-- ==== Sys2Proof/Word.lean ====
section
/-! DEFINITION. The widths of the core's values (spec 00_scope.md R6, R7): all values are unsigned. -/

namespace Sys2Proof

/-- A byte, 8 bits (R7); also a symbol, a byte value 0..255. -/
abbrev Byte := BitVec 8

/-- A host register, a counter `ft[v]`, `ntot`, a header field: `REGW = W = 64` bits (R6). -/
abbrev Word := BitVec 64

/-- A command word: `CMDW = 32` bits (R6, R90). -/
abbrev CmdWord := BitVec 32

/-- A node weight: `WTW = 72` bits (R6). -/
abbrev Weight := BitVec 72

/-- A node index: `IDXW = 9` bits (R6). -/
abbrev NodeIdx := BitVec 9

/-- A stored code: `CODEW = 256` bits (R6). -/
abbrev CodeBits := BitVec 256

/-- A table with one entry per symbol: `NSYM = 256` entries (R6). -/
abbrev SymTable (α : Type) := Vector α 256

end Sys2Proof
end

