-- ==== Sys2Proof/Config.lean ====
section
/-! DEFINITION. What this hardware fixes (spec 00_scope.md R6) and the free values of the spec. -/

namespace Sys2Proof.Config

/-- `FMT_VERSION` (R6): wire format version. -/
def fmtVersion : BitVec 8 := 1#8

/-- `W` (R6) as FMT[15:8] shows it (R29): 64 = 0x40. -/
def fieldWidth : BitVec 8 := 0x40#8

/-- `HDR_BYTES` (R6): 257 fields of 64 bits are 2056 bytes. -/
def headerBytes : Nat := 2056

/-- The exact value that executes INIT while `fault = 1` (30_encoding.md R99 step 1). -/
def initValue : Word := 0x0000000001000000#64

/-- FREE VALUE (log 5): what a short RBITS leaves in the bits of RES above the ones it obtained
(40_bitchannel.md R129, 93_implementation_defined.md U1). The argument is the draw's number. -/
opaque freeRes : Nat → Word

/-- FREE VALUE (log 4, log 25): the content of node memory after INIT, after the hardware reset and
after a table write, and after BUILD in the entries it has not written, which the spec calls
unspecified (10_state.md R32, R40, 93_implementation_defined.md U7): for the draw's number and the
entry's index, the 99 bits of the entry. -/
opaque freeNode : Nat → Nat → BitVec 99

end Sys2Proof.Config
end

