-- ==== Sys2Proof/Syntax.lean ====
section
/-! DEFINITION. The commands: one constructor per row of spec/opcode_table.json
(30_encoding.md R93), operands as R92 gives them. -/

namespace Sys2Proof

/-- The 25 commands of command set version 1 (R93). -/
inductive Instr where
  /-- NOP, format Z, op 0x00 (R220). -/
  | nop
  /-- INIT, format Z, op 0x01 (R221). -/
  | init
  /-- WBIT b, format B, op 0x10 (R125). -/
  | wbit (b : Bool)
  /-- WBITS n, format N, op 0x11 (R126); legal `n` are 1..64, see WellFormed. -/
  | wbits (n : BitVec 8)
  /-- WFLUSH, format Z, op 0x12 (R127). -/
  | wflush
  /-- RBIT, format Z, op 0x18 (R128). -/
  | rbit
  /-- RBITS n, format N, op 0x19 (R129); legal `n` are 1..64, see WellFormed. -/
  | rbits (n : BitVec 8)
  /-- FTCLR, format Z, op 0x20 (R140). -/
  | ftclr
  /-- FTINC sym, format S, op 0x21 (R142). -/
  | ftinc (sym : Byte)
  /-- FTRD sym, format S, op 0x22 (R143). -/
  | ftrd (sym : Byte)
  /-- SCAN, format Z, op 0x23 (R144). -/
  | scan
  /-- BUILD, format Z, op 0x30 (R154). -/
  | build
  /-- NDRD idx, format X, op 0x31 (R158). -/
  | ndrd (idx : NodeIdx)
  /-- CTGEN, format Z, op 0x40 (R172). -/
  | ctgen
  /-- CTLEN sym, format S, op 0x41 (R173). -/
  | ctlen (sym : Byte)
  /-- CTRD sym, w, format SW, op 0x42 (R174). -/
  | ctrd (sym : Byte) (w : BitVec 2)
  /-- ENCSYM sym, format S, op 0x43 (R176). -/
  | encsym (sym : Byte)
  /-- DECSYM, format Z, op 0x50 (R187). -/
  | decsym
  /-- WRHDR, format Z, op 0x60 (R199). -/
  | wrhdr
  /-- RDHDR, format Z, op 0x61 (R201). -/
  | rdhdr
  /-- SRCRW, format Z, op 0x62 (R202). -/
  | srcrw
  /-- ENCPAY, format Z, op 0x63 (R204). -/
  | encpay
  /-- DECPAY, format Z, op 0x64 (R206). -/
  | decpay
  /-- ENCODE, format Z, op 0x68 (R212). -/
  | encode
  /-- DECODE, format Z, op 0x69 (R214). -/
  | decode
deriving DecidableEq, Repr

end Sys2Proof
end

