-- ==== Sys2Proof/Machine/State.lean ====
section
/-! DEFINITION. The state of the machine (spec 10_state.md R20 to R41), of its environment
(20_memory.md R60 to R66), and the state after reset (10_state.md R40). -/

namespace Sys2Proof.Machine

/-- One entry of node memory (R32). In a leaf `left` and `right` are 0, in an internal node `sym`
is 0. -/
structure Node where
  leaf   : Bool
  sym    : Byte
  weight : Weight
  left   : NodeIdx
  right  : NodeIdx
deriving DecidableEq, Repr

/-- Node memory: `MAXNODES = 511` entries (R6, R32). -/
abbrev NodeMem := Vector Node 511

/-- One entry of the code table (R34): `code` is right-aligned, the first bit of the code in bit
`len - 1`. -/
structure CodeEntry where
  valid : Bool
  len   : BitVec 8
  code  : CodeBits
deriving DecidableEq, Repr

/-- The bit writer (R35): `bw_acc`, `bw_cnt`, `bw_fail`. -/
structure BitWriter where
  acc  : Byte
  cnt  : BitVec 3
  fail : Bool
deriving DecidableEq, Repr

/-- The bit reader (R36): `br_byte`, `br_cnt`, `br_eof`. -/
structure BitReader where
  byte : Byte
  cnt  : BitVec 4
  eof  : Bool
deriving DecidableEq, Repr

/-- The source at port IN (R60): a finite byte sequence and the cursor `src_pos`. -/
structure Source where
  bytes : List Byte
  pos   : Nat
deriving DecidableEq, Repr

/-- The sink at port OUT (R64): the bytes appended so far, oldest first, and the environment's
oracle (R66) as plain data (log 6): the answers to the coming puts, in order (true is ok), and the
answer to every put after those. The good sink is `answers = []`, `later = true`; the bounded sink
with room for `k` more bytes is `answers = List.replicate k true`, `later = false`. -/
structure Sink where
  bytes   : List Byte
  answers : List Bool
  later   : Bool
deriving DecidableEq, Repr

/-- What the outside world does to the core, one at a time (R21; log 1, log 12, log 21). -/
inductive Input where
  /-- `RegRead(i)`. -/
  | regRead (i : Nat)
  /-- `RegWrite(i, v)`. -/
  | regWrite (i : Nat) (v : Word)
  /-- A read on a byte-addressed bus: byte offset from the core's base, width in bytes. -/
  | busRead (offset width : Nat)
  /-- A write on a byte-addressed bus: byte offset, width in bytes, value. -/
  | busWrite (offset width : Nat) (v : Word)
  /-- The hardware reset (R260). -/
  | hwReset
deriving DecidableEq, Repr

/-- What the host is answered (R21). -/
inductive Reply where
  /-- The value of a register read. -/
  | value (v : Word)
  /-- A write is answered: a command has ended, or a register write is done or ignored. -/
  | done
  /-- The access error of R21 and R71; what it looks like is not specified (log 10). -/
  | accessError
deriving DecidableEq, Repr

/-- The core's state (R20), its environment's state (R13), and the model's draw counter. -/
structure State where
  /-- Host register OPR (R23). -/
  opr     : Word
  /-- Host register RES (R23). -/
  res     : Word
  /-- Command sequence counter (R24). -/
  cseq    : BitVec 32
  /-- Sticky fault flag (R37). -/
  fault   : Bool
  /-- Fault code (R26, R37). -/
  err     : BitVec 8
  /-- Fault information (R27, R37). -/
  errinfo : Word
  /-- Frequency counters (R31). -/
  ft      : SymTable Word
  /-- Total symbol count `N` (R31). -/
  ntot    : Word
  /-- Node memory (R32). -/
  node    : NodeMem
  /-- Number of valid entries of node memory (R33). -/
  nnodes  : BitVec 9
  /-- A tree is present (R33). -/
  treeOk  : Bool
  /-- Code table (R34). -/
  ct      : SymTable CodeEntry
  /-- The code table was derived from the current tree (R34). -/
  ctOk    : Bool
  /-- Bit writer (R35). -/
  bw      : BitWriter
  /-- Bit reader (R36). -/
  br      : BitReader
  /-- Environment: the source (R60). -/
  src     : Source
  /-- Environment: the sink (R64). -/
  snk     : Sink
  /-- Environment: the accesses still to come (R13, R21). -/
  inputs  : List Input
  /-- Environment: the answers given so far, oldest first (R21). -/
  replies : List Reply
  /-- The model's own: how many free values have been drawn (log 4, log 5, log 25). -/
  draws   : Nat
deriving DecidableEq, Repr

/-- The eight faults of the core (60_exceptions.md R230). -/
inductive Cause where
  /-- R231: ENCODE on a source of no bytes. -/
  | emptyInput
  /-- R232: BUILD or DECODE with all counts zero. -/
  | emptyAlphabet
  /-- R233: the reader ran out of bits in a header field or in a descent. -/
  | truncatedStream
  /-- R234: a put failed, seen by ENCODE at its end or by the decoder at the put. -/
  | sinkFailure
  /-- R235: the value written to CMD is illegal. -/
  | illegalCommand
  /-- R236: a command without its tree or code table. -/
  | stateInvalid
  /-- R237: a symbol without a code. -/
  | noCode
  /-- R238: a counter at its maximum. -/
  | countOverflow
deriving DecidableEq, Repr

/-- Why a step of the MODEL stops. A `raise` of the spec is no such stop: it is a next state with
`fault = 1` (00_scope.md R14, log 24). -/
inductive Fault where
  /-- Raised by CTGEN, and by the CTGEN body inside ENCODE, when the walk of R172 would descend for
  ever because node memory holds a cycle. BUILD never leaves one (42_treebuilder.md R155 (c)), so no
  run reaches it; in such a state the hardware's walk does not end. Safe (log 9). -/
  | codeWalkEndless
deriving DecidableEq, Repr

/-- Why the model has no answer. -/
inductive Refusal where
  /-- Answered by an arm of `exec` whose instruction has no meaning yet; safe. No arm does so. -/
  | notModelled (mnemonic : String)
deriving DecidableEq, Repr

/-- An entry of node memory with every field 0. -/
def Node.zero : Node := { leaf := false, sym := 0#8, weight := 0#72, left := 0#9, right := 0#9 }

/-- The entry of a symbol without a code (R34: invalid entries have length 0 and code 0). -/
def CodeEntry.none : CodeEntry := { valid := false, len := 0#8, code := 0#256 }

/-- A new writer has nothing buffered and has not failed (R40). -/
def BitWriter.empty : BitWriter := { acc := 0#8, cnt := 0#3, fail := false }

/-- A new reader has no byte and has not met the end (R40). -/
def BitReader.empty : BitReader := { byte := 0#8, cnt := 0#4, eof := false }

/-- The machine right after reset (R40, 70_reset_and_hazards.md R260, R261). DESIGN CHOICE (log 3):
node memory, which the spec leaves unspecified, holds zeros. DESIGN CHOICE (log 1, log 2): the
environment starts with an empty source at cursor 0, an empty good sink and no access to come. -/
def State.reset : State :=
  { opr := 0#64, res := 0#64, cseq := 0#32
    fault := false, err := 0#8, errinfo := 0#64
    ft := Vector.replicate 256 0#64, ntot := 0#64
    node := Vector.replicate 511 Node.zero, nnodes := 0#9, treeOk := false
    ct := Vector.replicate 256 CodeEntry.none, ctOk := false
    bw := BitWriter.empty, br := BitReader.empty
    src := { bytes := [], pos := 0 }
    snk := { bytes := [], answers := [], later := true }
    inputs := [], replies := [], draws := 0 }

end Sys2Proof.Machine
end

