-- ==== Sys2Proof/Machine/Ops.lean ====
section
/-! DEFINITION. The named operations every unit shares: the streams (20_memory.md R62 to R65), the
bit channel's five subroutines (40_bitchannel.md R120 to R124), the symbol and node spaces
(10_state.md R38), fault entry and return (60_exceptions.md R240, R244), the end of a command. -/

namespace Sys2Proof.Machine

/-! ### Outcomes inside a command -/

/-- What a command's pseudocode comes to: it runs on with a value, or it has raised (00_scope.md R10;
the state holds every write made before the raise), or it does not end (log 9). -/
inductive Result (α : Type) where
  | ok (a : α)
  | raised (c : Cause) (info : Word) (s : State)
  | endless
deriving DecidableEq, Repr

/-- Statement after statement (00_scope.md R8): a raise ends the command that called it (R10). -/
def Result.bind {α β : Type} (r : Result α) (k : α → Result β) : Result β :=
  match r with
  | .ok a => k a
  | .raised c info s => .raised c info s
  | .endless => .endless

/-- Fault codes, ERR[7:0] (60_exceptions.md R230). -/
def Cause.code : Cause → BitVec 8
  | .emptyInput => 1#8
  | .emptyAlphabet => 2#8
  | .truncatedStream => 3#8
  | .sinkFailure => 4#8
  | .illegalCommand => 5#8
  | .stateInvalid => 6#8
  | .noCode => 7#8
  | .countOverflow => 8#8

/-- A command ends: `cseq <- (cseq + 1) mod 2^32` (30_encoding.md R99 step 6, 10_state.md R24). -/
def retire (s : State) : State := { s with cseq := s.cseq + 1#32 }

/-- FAULT ENTRY, `raise X(info)` (60_exceptions.md R240): nothing else is saved or changed. -/
def raiseFault (c : Cause) (info : Word) (s : State) : State :=
  { s with fault := true, err := c.code, errinfo := info, cseq := s.cseq + 1#32 }

/-- The 99 bits of a node entry as a node: used for unspecified content only. -/
def nodeOfBits (x : BitVec 99) : Node :=
  { leaf := x.getLsbD 98, sym := x.extractLsb' 90 8, weight := x.extractLsb' 18 72
    left := x.extractLsb' 9 9, right := x.extractLsb' 0 9 }

/-- Node memory with unspecified content: the free values of draw number `k` (log 4, log 25). -/
@[irreducible] def unspecifiedNodes (k : Nat) : NodeMem :=
  ⟨((List.range 511).map fun i => nodeOfBits (Config.freeNode k i)).toArray, by simp⟩

/-- Every entry of node memory takes any value, a draw (00_scope.md R17, 60_exceptions.md R254). -/
def drawNodes (s : State) : State :=
  { s with node := unspecifiedNodes s.draws, draws := s.draws + 1 }

/-- THE RETURN from a fault, and reset (46_system.md R221, 70_reset_and_hazards.md R260 to R262):
every piece of core state takes its value of 10_state.md R40; the source, the sink and the host are
not touched (R61). -/
def resetCore (s : State) : State :=
  { drawNodes s with
    opr := 0#64, res := 0#64, cseq := 0#32
    fault := false, err := 0#8, errinfo := 0#64
    ft := Vector.replicate 256 0#64, ntot := 0#64
    nnodes := 0#9, treeOk := false
    ct := Vector.replicate 256 CodeEntry.none, ctOk := false
    bw := BitWriter.empty, br := BitReader.empty }

/-- How a command that ran its pseudocode ends (30_encoding.md R99 steps 5 and 6). -/
def finish (r : Result State) : Host.Outcome State Fault Refusal :=
  match r with
  | .ok s => .next (retire s)
  | .raised c info s => .next (raiseFault c info s)
  | .endless => .fault .codeWalkEndless

/-- Write a result to RES (10_state.md R23). -/
def setRes (v : Word) (s : State) : State := { s with res := v }

/-! ### Symbol space and node space (10_state.md R38 (2), (3)) -/

/-- All byte values, 0 to 255 ascending. -/
def allSyms : List Byte := (List.range 256).map (BitVec.ofNat 8)

/-- The entry of symbol `v`: the index is the zero-extended byte value (R31). -/
def symGet {α : Type} (t : SymTable α) (v : Byte) : α := t[v.toNat]'v.isLt

/-- Replace the entry of symbol `v`. -/
def symSet {α : Type} (t : SymTable α) (v : Byte) (x : α) : SymTable α := t.set v.toNat x v.isLt

/-- `node[i]`. Entries are 0..510 (R32); the index 511 selects no node and reads as 0
(30_encoding.md R92; log 8). -/
def nodeAt (m : NodeMem) (i : Nat) : Node := m[i]?.getD Node.zero

/-- Write `node[i]`; no command writes beyond entry 510. -/
def nodeSet (m : NodeMem) (i : Nat) (n : Node) : NodeMem := m.setIfInBounds i n

/-! ### The streams -/

/-- `SrcNext()` (20_memory.md R62): the next byte, or `EOS` (none) with the cursor unchanged. -/
def Source.next (p : Source) : Option Byte × Source :=
  match p.bytes[p.pos]? with
  | some b => (some b, { p with pos := p.pos + 1 })
  | none => (none, p)

/-- `SrcRewind()` (R63). -/
def Source.rewind (p : Source) : Source := { p with pos := 0 }

/-- How many bytes the source still has. -/
def Source.remaining (p : Source) : Nat := p.bytes.length - p.pos

/-- `SnkPut(b)` (R65): on ok the byte is appended, on fail it is lost. The answer is the
environment's (R66). -/
def Sink.put (k : Sink) (b : Byte) : Bool × Sink :=
  let ok := k.answers.headD k.later
  (ok, { k with bytes := if ok then k.bytes ++ [b] else k.bytes, answers := k.answers.tail })

/-! ### The bit writer -/

/-- The end of the writer's byte, shared by R120 and R122: put it, empty the buffer, latch a
failure. -/
def putAcc (p : BitWriter × Sink) : BitWriter × Sink :=
  let r := p.2.put p.1.acc
  ({ acc := 0#8, cnt := 0#3, fail := if r.1 then p.1.fail else true }, r.2)

/-- `bw_write(bit)` (40_bitchannel.md R120). -/
def writeBit (b : Bool) (p : BitWriter × Sink) : BitWriter × Sink :=
  if p.1.fail then p
  else
    let acc := p.1.acc ||| ((BitVec.ofBool b).setWidth 8 <<< (7 - p.1.cnt.toNat))
    if p.1.cnt = 7#3 then putAcc ({ p.1 with acc := acc }, p.2)
    else ({ p.1 with acc := acc, cnt := p.1.cnt + 1#3 }, p.2)

/-- `bw_write_bits(value, n)` (R121): bit `n - 1` of the value first, bit 0 last. -/
def writeBits {m : Nat} (value : BitVec m) : Nat → BitWriter × Sink → BitWriter × Sink
  | 0, p => p
  | n + 1, p => writeBits value n (writeBit (value.getLsbD n) p)

/-- `bw_flush()` (R122). -/
def flushBits (p : BitWriter × Sink) : BitWriter × Sink :=
  if p.1.fail then p else if p.1.cnt = 0#3 then p else putAcc p

/-- The writer and the sink of the state replaced. -/
def State.setOut (s : State) (p : BitWriter × Sink) : State := { s with bw := p.1, snk := p.2 }

/-- `bw_write(bit)` on the state. -/
def bwWrite (b : Bool) (s : State) : State := s.setOut (writeBit b (s.bw, s.snk))

/-- `bw_write_bits(value, n)` on the state. -/
def bwWriteBits {m : Nat} (value : BitVec m) (n : Nat) (s : State) : State :=
  s.setOut (writeBits value n (s.bw, s.snk))

/-- `bw_flush()` on the state. -/
def bwFlush (s : State) : State := s.setOut (flushBits (s.bw, s.snk))

/-! ### The bit reader -/

/-- Deliver a bit of `br_byte` (the second half of R123). -/
def deliverBit (p : BitReader × Source) : Option Bool × (BitReader × Source) :=
  (some (p.1.byte.getLsbD (p.1.cnt.toNat - 1)), ({ p.1 with cnt := p.1.cnt - 1#4 }, p.2))

/-- `br_read()` (R123): none is `(false, -)`. -/
def readBit (p : BitReader × Source) : Option Bool × (BitReader × Source) :=
  if p.1.cnt = 0#4 then
    match p.2.next with
    | (none, src) => (none, ({ p.1 with eof := true }, src))
    | (some b, src) => deliverBit ({ p.1 with byte := b, cnt := 8#4 }, src)
  else deliverBit p

/-- The loop of `br_read_bits` (R124): up to `n` more bits onto the `k` bits of `value`. Answers the
number of bits actually read and those bits, the first read most significant. -/
def readBitsLoop : Nat → Nat → Word → BitReader × Source → Nat × Word × (BitReader × Source)
  | 0, k, value, p => (k, value, p)
  | n + 1, k, value, p =>
    match readBit p with
    | (none, p') => (k, value, p')
    | (some b, p') => readBitsLoop n (k + 1) ((value <<< 1) ||| (BitVec.ofBool b).setWidth 64) p'

/-- `br_read_bits(n)` (R124). -/
def readBits (n : Nat) (p : BitReader × Source) : Nat × Word × (BitReader × Source) :=
  readBitsLoop n 0 0#64 p

/-- How many bits the reader can still deliver: its own and eight for each byte of the source. -/
def bitsLeft (p : BitReader × Source) : Nat := p.1.cnt.toNat + 8 * p.2.remaining

/-- The reader and the source of the state replaced. -/
def State.setIn (s : State) (p : BitReader × Source) : State := { s with br := p.1, src := p.2 }

end Sys2Proof.Machine
end

