-- ==== Sys2Proof/Machine/Operands.lean ====
section
/-! DEFINITION. How operands are taken and results are put together (30_encoding.md R92,
20_memory.md R79: every narrow value is zero-extended). -/

namespace Sys2Proof.Machine

/-- `zext_64` of a byte (00_scope.md R7). -/
def zextByte (b : Byte) : Word := b.setWidth 64

/-- `zext_64` of a bit (00_scope.md R7). -/
def zextBit (b : Bool) : Word := (BitVec.ofBool b).setWidth 64

/-- `zext_72` of a counter (42_treebuilder.md R151). -/
def zextWeight (x : Word) : Weight := x.setWidth 72

/-- `ct_code[64*w + 63 : 64*w]`, the word CTRD selects (43_codetable.md R174). -/
def codeWord (code : CodeBits) (w : BitVec 2) : Word := code.extractLsb' (64 * w.toNat) 64

/-- CTLEN's result `{0[63:9], ct_valid, ct_len[7:0]}` (43_codetable.md R173). -/
def lenWord (e : CodeEntry) : Word := 0#55 ++ BitVec.ofBool e.valid ++ e.len

/-- NDRD's result for a valid entry (42_treebuilder.md R158):
`{1, leaf, 0[61:41], right, 0[31:25], left, 0[15:8], sym}`. -/
def nodeWord (m : Node) : Word :=
  1#1 ++ BitVec.ofBool m.leaf ++ 0#21 ++ m.right ++ 0#7 ++ m.left ++ 0#8 ++ m.sym

/-- RES after an RBITS that obtained only `k` bits (40_bitchannel.md R129): RES[k-1:0] holds them,
RES[63:k] is unspecified, here the bits of the free value `free` (log 5). -/
def shortResult (k : Nat) (value free : Word) : Word :=
  let low : Word := BitVec.ofNat 64 (2 ^ k - 1)
  (value &&& low) ||| (free &&& ~~~low)

end Sys2Proof.Machine
end

