-- ==== Sys2Proof/Machine/BitChannel.lean ====
section
/-! DEFINITION. WBIT, WBITS, WFLUSH, RBIT, RBITS (40_bitchannel.md R125 to R129). -/

namespace Sys2Proof.Machine

/-- WBIT b (R125): `bw_write(b)`. -/
def execWbit (b : Bool) (s : State) : Host.Outcome State Fault Refusal :=
  finish (.ok (bwWrite b s))

/-- WBITS n (R126): `bw_write_bits(OPR, n)`. -/
def execWbits (n : BitVec 8) (s : State) : Host.Outcome State Fault Refusal :=
  finish (.ok (bwWriteBits s.opr n.toNat s))

/-- WFLUSH (R127): `bw_flush()`. -/
def execWflush (s : State) : Host.Outcome State Fault Refusal := finish (.ok (bwFlush s))

/-- The body of RBIT (R128): at end of input RES keeps its old value. -/
def rbitBody (s : State) : State :=
  match readBit (s.br, s.src) with
  | (some b, p) => setRes (zextBit b) (s.setIn p)
  | (none, p) => s.setIn p

/-- RBIT (R128). -/
def execRbit (s : State) : Host.Outcome State Fault Refusal := finish (.ok (rbitBody s))

/-- The body of RBITS n (R129): a short read leaves RES[63:k] unspecified, a free value (log 5). -/
def rbitsBody (n : Nat) (s : State) : State :=
  match readBits n (s.br, s.src) with
  | (k, value, p) =>
    if k = n then setRes value (s.setIn p)
    else { setRes (shortResult k value (Config.freeRes s.draws)) (s.setIn p) with
             draws := s.draws + 1 }

/-- RBITS n (R129). -/
def execRbits (n : BitVec 8) (s : State) : Host.Outcome State Fault Refusal :=
  finish (.ok (rbitsBody n.toNat s))

end Sys2Proof.Machine
end

