-- ==== Sys2Proof/WellFormed.lean ====
section
/-! DEFINITION. Which commands have legal operands (30_encoding.md R92, R95 (c)). -/

namespace Sys2Proof

/-- A bit count of WBITS or RBITS is legal exactly when it is 1 to 64 (R92, R95 (c)). -/
def legalCount (n : BitVec 8) : Bool := decide (1 ≤ n.toNat ∧ n.toNat ≤ 64)

/-- Every other operand value is legal (R92). -/
def Instr.wf : Instr → Bool
  | .wbits n => legalCount n
  | .rbits n => legalCount n
  | .nop | .init | .wbit _ | .wflush | .rbit | .ftclr | .ftinc _ | .ftrd _ | .scan | .build
  | .ndrd _ | .ctgen | .ctlen _ | .ctrd _ _ | .encsym _ | .decsym | .wrhdr | .rdhdr | .srcrw
  | .encpay | .decpay | .encode | .decode => true

end Sys2Proof
end

