-- ==== Sys2Proof/Decode.lean ====
section
/-! DEFINITION. The decoder, total on every 64-bit value written to CMD (30_encoding.md R90 to R95),
and the encoder, from the same tables. -/

namespace Sys2Proof

/-- Why a value written to CMD is illegal (R95). -/
inductive Illegal where
  /-- R95 (a): `v[63:32]` is not zero. -/
  | upperBits
  /-- R95 (b): the opcode is in no row of R93. -/
  | unassignedOpcode
  /-- R95 (b): a must-be-zero bit of the row's format is 1. -/
  | mustBeZero
  /-- R95 (c): the row is WBITS or RBITS and `n = 0` or `n > 64`. -/
  | badCount
deriving DecidableEq, Repr

/-- The six formats (R91). -/
inductive Format where
  | z | b | n | s | sw | x
deriving DecidableEq, Repr

/-- The mask of a format: a 1 in every bit the format fixes (R91). -/
def Format.mask : Format → CmdWord
  | .z  => 0xFFFFFFFF#32
  | .b  => 0xFFFFFFFE#32
  | .n  => 0xFF00FFFF#32
  | .s  => 0xFFFFFF00#32
  | .sw => 0xFFFCFF00#32
  | .x  => 0xFFFFFE00#32

/-- Bits [31:24] of every command (R90). -/
def opField (w : CmdWord) : BitVec 8 := w.extractLsb' 24 8
/-- Format B: `b` = bit [0] (R91). -/
def bField (w : CmdWord) : Bool := w.getLsbD 0
/-- Format N: `n` = bits [23:16] (R91). -/
def nField (w : CmdWord) : BitVec 8 := w.extractLsb' 16 8
/-- Formats S and SW: `sym` = bits [7:0] (R91). -/
def symField (w : CmdWord) : Byte := w.extractLsb' 0 8
/-- Format SW: `w` = bits [17:16] (R91). -/
def wField (w : CmdWord) : BitVec 2 := w.extractLsb' 16 2
/-- Format X: `idx` = bits [8:0] (R91). -/
def idxField (w : CmdWord) : NodeIdx := w.extractLsb' 0 9

/-- The instruction `i` of a row with format `f`, if the word is an instance of the row whose
`match` is the opcode over zeros: `(w AND mask) = match` (R91), and if its operands are legal
(R95 (c)). -/
def rowInstr (f : Format) (w : CmdWord) (i : Instr) : Except Illegal Instr :=
  if w &&& f.mask ≠ w &&& 0xFF000000#32 then .error .mustBeZero
  else if i.wf then .ok i else .error .badCount

/-- Decoding a 32-bit command word by its opcode (R93). -/
def decodeWord (w : CmdWord) : Except Illegal Instr :=
  match opField w with
  | 0x00#8 => rowInstr .z w .nop
  | 0x01#8 => rowInstr .z w .init
  | 0x10#8 => rowInstr .b w (.wbit (bField w))
  | 0x11#8 => rowInstr .n w (.wbits (nField w))
  | 0x12#8 => rowInstr .z w .wflush
  | 0x18#8 => rowInstr .z w .rbit
  | 0x19#8 => rowInstr .n w (.rbits (nField w))
  | 0x20#8 => rowInstr .z w .ftclr
  | 0x21#8 => rowInstr .s w (.ftinc (symField w))
  | 0x22#8 => rowInstr .s w (.ftrd (symField w))
  | 0x23#8 => rowInstr .z w .scan
  | 0x30#8 => rowInstr .z w .build
  | 0x31#8 => rowInstr .x w (.ndrd (idxField w))
  | 0x40#8 => rowInstr .z w .ctgen
  | 0x41#8 => rowInstr .s w (.ctlen (symField w))
  | 0x42#8 => rowInstr .sw w (.ctrd (symField w) (wField w))
  | 0x43#8 => rowInstr .s w (.encsym (symField w))
  | 0x50#8 => rowInstr .z w .decsym
  | 0x60#8 => rowInstr .z w .wrhdr
  | 0x61#8 => rowInstr .z w .rdhdr
  | 0x62#8 => rowInstr .z w .srcrw
  | 0x63#8 => rowInstr .z w .encpay
  | 0x64#8 => rowInstr .z w .decpay
  | 0x68#8 => rowInstr .z w .encode
  | 0x69#8 => rowInstr .z w .decode
  | _      => .error .unassignedOpcode

/-- Decoding a value written to CMD: `v[63:32]` must be zero (R95 (a)). -/
def decode (v : Word) : Except Illegal Instr :=
  if v.extractLsb' 32 32 ≠ 0#32 then .error .upperBits else decodeWord (v.extractLsb' 0 32)

/-- The opcode of a command (R93). -/
def opcode : Instr → BitVec 8
  | .nop => 0x00#8 | .init => 0x01#8
  | .wbit _ => 0x10#8 | .wbits _ => 0x11#8 | .wflush => 0x12#8
  | .rbit => 0x18#8 | .rbits _ => 0x19#8
  | .ftclr => 0x20#8 | .ftinc _ => 0x21#8 | .ftrd _ => 0x22#8 | .scan => 0x23#8
  | .build => 0x30#8 | .ndrd _ => 0x31#8
  | .ctgen => 0x40#8 | .ctlen _ => 0x41#8 | .ctrd _ _ => 0x42#8 | .encsym _ => 0x43#8
  | .decsym => 0x50#8
  | .wrhdr => 0x60#8 | .rdhdr => 0x61#8 | .srcrw => 0x62#8 | .encpay => 0x63#8 | .decpay => 0x64#8
  | .encode => 0x68#8 | .decode => 0x69#8

/-- The operand bits [23:0] of a command, each operand at its place (R91). -/
def operandBits : Instr → BitVec 24
  | .wbit b => 0#23 ++ BitVec.ofBool b
  | .wbits n => n ++ 0#16
  | .rbits n => n ++ 0#16
  | .ftinc sym => 0#16 ++ sym
  | .ftrd sym => 0#16 ++ sym
  | .ndrd idx => 0#15 ++ idx
  | .ctlen sym => 0#16 ++ sym
  | .ctrd sym w => 0#6 ++ w ++ 0#8 ++ sym
  | .encsym sym => 0#16 ++ sym
  | .nop | .init | .wflush | .rbit | .ftclr | .scan | .build | .ctgen | .decsym | .wrhdr | .rdhdr
  | .srcrw | .encpay | .decpay | .encode | .decode => 0#24

/-- The command word of an instruction (R91, R93). -/
def encode (i : Instr) : CmdWord := opcode i ++ operandBits i

/-- The value the host writes to CMD for an instruction: the word with CMD[63:32] = 0 (R90). -/
def encodeCmd (i : Instr) : Word := (encode i).setWidth 64

/-- The instruction the decoder reads from a table row's word: the `nbits` bits of `w`, every bit
above them 0. A command is one 32-bit word (R90), so a word is laid out in CMD as it stands. -/
def decodeTableWord (nbits w : Nat) : Option Instr :=
  (decode (BitVec.ofNat 64 (w % 2 ^ nbits))).toOption

end Sys2Proof
end

