-- ==== Sys2Proof/Machine/Flags.lean ====
section
/-! DEFINITION. The flags and counts STATUS shows (10_state.md R25), the withdrawal of derived
structures (41_freqtable.md R145), and the preconditions of 30_encoding.md R99 step 4. -/

namespace Sys2Proof.Machine

/-- WGOOD: the writer's `good()` (R25, R35). -/
def wgood (s : State) : Bool := !s.bw.fail

/-- STATUS (R25): [63:25] 0, NNODES [24:16], RCNT [15:12], [11] 0, WCNT [10:8], [7:5] 0, CTOK,
TREEOK, REOF, WGOOD, FAULT. -/
def statusView (s : State) : Word :=
  0#39 ++ s.nnodes ++ s.br.cnt ++ 0#1 ++ s.bw.cnt ++ 0#3 ++ BitVec.ofBool s.ctOk
    ++ BitVec.ofBool s.treeOk ++ BitVec.ofBool s.br.eof ++ BitVec.ofBool (wgood s)
    ++ BitVec.ofBool s.fault

/-- `invalidate()` (41_freqtable.md R145). Node memory, of which no entry is then reachable, takes any
value (log 25; 93_implementation_defined.md U7); the code table entries are left standing (U8). -/
def invalidate (s : State) : State :=
  { drawNodes s with treeOk := false, nnodes := 0#9, ctOk := false }

/-- Precondition `tree_ok = 1` (30_encoding.md R99 step 4): when it fails, StateInvalid with the
command word zero-extended (60_exceptions.md R236), before any effect. -/
def needTree (word : Word) (s : State) (k : Host.Outcome State Fault Refusal) :
    Host.Outcome State Fault Refusal :=
  if s.treeOk then k else .next (raiseFault .stateInvalid word s)

/-- Precondition `ct_ok = 1` (30_encoding.md R99 step 4). -/
def needTable (word : Word) (s : State) (k : Host.Outcome State Fault Refusal) :
    Host.Outcome State Fault Refusal :=
  if s.ctOk then k else .next (raiseFault .stateInvalid word s)

end Sys2Proof.Machine
end

