-- ==== Sys2Proof/Machine/CodeTable.lean ====
section
/-! DEFINITION. CTGEN, CTLEN, CTRD, ENCSYM (43_codetable.md R170 to R176). -/

namespace Sys2Proof.Machine

/-- `visit(i, len, code)` (R172), left before right. The first number bounds the depth: node indices
have 9 bits, so a walk of more than 512 nodes has met a cycle and does not end (none; log 9). -/
def visit (m : NodeMem) : Nat → NodeIdx → BitVec 8 → CodeBits → SymTable CodeEntry →
    Option (SymTable CodeEntry)
  | 0, _, _, _, _ => none
  | d + 1, i, len, code, t =>
    let n := nodeAt m i.toNat
    if n.leaf then some (symSet t n.sym { valid := true, len := len, code := code })
    else
      (visit m d n.left (len + 1#8) (code <<< 1) t).bind
        (visit m d n.right (len + 1#8) ((code <<< 1) ||| 1#256))

/-- The depth bound of `visit`: the number of 9-bit indices. -/
def visitDepth : Nat := 512

/-- CTGEN's pseudocode (R172): every entry is cleared, then the tree is walked from its root
`nnodes - 1`. -/
def ctgenBody (s : State) : Result State :=
  match visit s.node visitDepth (s.nnodes - 1#9) 0#8 0#256 (Vector.replicate 256 CodeEntry.none) with
  | some t => .ok { s with ct := t, ctOk := true }
  | none => .endless

/-- CTGEN (R172). -/
def execCtgen (s : State) : Host.Outcome State Fault Refusal :=
  needTree (encodeCmd .ctgen) s (finish (ctgenBody s))

/-- CTLEN sym (R173). -/
def execCtlen (sym : Byte) (s : State) : Host.Outcome State Fault Refusal :=
  needTable (encodeCmd (.ctlen sym)) s (finish (.ok (setRes (lenWord (symGet s.ct sym)) s)))

/-- CTRD sym, w (R174). -/
def execCtrd (sym : Byte) (w : BitVec 2) (s : State) : Host.Outcome State Fault Refusal :=
  needTable (encodeCmd (.ctrd sym w)) s
    (finish (.ok (setRes (codeWord (symGet s.ct sym).code w) s)))

/-- `enc_sym(v)` (R175): the code's bits, first bit first; the empty code writes nothing. -/
def encSym (v : Byte) (s : State) : Result State :=
  if (symGet s.ct v).valid then
    .ok (bwWriteBits (symGet s.ct v).code (symGet s.ct v).len.toNat s)
  else .raised .noCode (zextByte v) s

/-- ENCSYM sym (R176). -/
def execEncsym (sym : Byte) (s : State) : Host.Outcome State Fault Refusal :=
  needTable (encodeCmd (.encsym sym)) s (finish (encSym sym s))

end Sys2Proof.Machine
end

