-- ==== Sys2Proof/Machine/DecodeFsm.lean ====
section
/-! DEFINITION. The symbol decode FSM and DECSYM (44_decode_fsm.md R185 to R188). -/

namespace Sys2Proof.Machine

/-- The descent (R185, R186) from node `cur`: the leaf's symbol, or none where the reader ran out of
bits. Every edge takes one bit, so the number of bits left bounds the edges: at 0 the FETCH of R185
finds no bit. -/
def descend (m : NodeMem) : Nat → NodeIdx → BitReader × Source → Option Byte × (BitReader × Source)
  | 0, cur, p =>
    if (nodeAt m cur.toNat).leaf then (some (nodeAt m cur.toNat).sym, p) else (none, (readBit p).2)
  | n + 1, cur, p =>
    if (nodeAt m cur.toNat).leaf then (some (nodeAt m cur.toNat).sym, p)
    else
      match readBit p with
      | (none, p') => (none, p')
      | (some b, p') =>
        descend m n (if b then (nodeAt m cur.toNat).right else (nodeAt m cur.toNat).left) p'

/-- `dec_sym(info)` (R186): from the root `nnodes - 1`; a stream that ends in the walk raises. -/
def decSym (info : Word) (s : State) : Result (Byte × State) :=
  match descend s.node (bitsLeft (s.br, s.src)) (s.nnodes - 1#9) (s.br, s.src) with
  | (some sym, p) => .ok (sym, s.setIn p)
  | (none, p) => .raised .truncatedStream info (s.setIn p)

/-- DECSYM (R187): `RES <- zext_64(dec_sym(0))`. -/
def execDecsym (s : State) : Host.Outcome State Fault Refusal :=
  needTree (encodeCmd .decsym) s
    (finish ((decSym 0#64 s).bind fun r => .ok (setRes (zextByte r.1) r.2)))

end Sys2Proof.Machine
end

