-- ==== Sys2Proof/Machine/FreqTable.lean ====
section
/-! DEFINITION. FTCLR, FTINC, FTRD, SCAN (41_freqtable.md R140 to R145). -/

namespace Sys2Proof.Machine

/-- All counters and `ntot` become 0 (R140, 45_codec.md R210). -/
def clearTable (s : State) : State := { s with ft := Vector.replicate 256 0#64, ntot := 0#64 }

/-- `ft_inc(v)` (R141): a counter at `2^64 - 1` raises and nothing has been incremented. -/
def ftInc (v : Byte) (s : State) : Result State :=
  if symGet s.ft v = BitVec.allOnes 64 ∨ s.ntot = BitVec.allOnes 64 then
    .raised .countOverflow (zextByte v) s
  else .ok { s with ft := symSet s.ft v (symGet s.ft v + 1#64), ntot := s.ntot + 1#64 }

/-- The loop of SCAN (R144) and of ENCODE's first pass (45_codec.md R212). The number bounds the
source bytes still to come, so that 0 means the next `SrcNext` answers `EOS`. -/
def scanLoop : Nat → State → Result State
  | 0, s => .ok s
  | n + 1, s =>
    match s.src.next with
    | (none, _) => .ok s
    | (some b, src) => (ftInc b { s with src := src }).bind (scanLoop n)

/-- From the source's cursor to its end (R144). -/
def scanBody (s : State) : Result State := scanLoop s.src.remaining s

/-- FTCLR (R140). -/
def execFtclr (s : State) : Host.Outcome State Fault Refusal :=
  finish (.ok (clearTable (invalidate s)))

/-- FTINC sym (R142). -/
def execFtinc (sym : Byte) (s : State) : Host.Outcome State Fault Refusal :=
  finish (ftInc sym (invalidate s))

/-- FTRD sym (R143). -/
def execFtrd (sym : Byte) (s : State) : Host.Outcome State Fault Refusal :=
  finish (.ok (setRes (symGet s.ft sym) s))

/-- SCAN (R144). -/
def execScan (s : State) : Host.Outcome State Fault Refusal := finish (scanBody (invalidate s))

end Sys2Proof.Machine
end

