-- ==== Sys2Proof/Machine/TreeBuilder.lean ====
section
/-! DEFINITION. BUILD and NDRD (42_treebuilder.md R150 to R158). -/

namespace Sys2Proof.Machine

/-- What BUILD works on (R154): node memory, the priority queue as the set of its node indices, and
the next free entry. The queue lives only inside BUILD (10_state.md R39 (c)). -/
structure Builder where
  node : NodeMem
  pq   : List Nat
  next : Nat
deriving DecidableEq, Repr

/-- The queue's order (R152): `(weight, index)`, lexicographic, the smaller extracted first. -/
def keyLess (m : NodeMem) (i j : Nat) : Bool :=
  (nodeAt m i).weight < (nodeAt m j).weight
    || ((nodeAt m i).weight == (nodeAt m j).weight && i < j)

/-- The index with the smallest key among `i` and the list. -/
def minKey (m : NodeMem) : Nat → List Nat → Nat
  | i, [] => i
  | i, j :: js => minKey m (if keyLess m j i then j else i) js

/-- `extract_min(pq)` (R152): the index with the smallest key, and the queue without it. -/
def extractMin (m : NodeMem) : List Nat → Option (Nat × List Nat)
  | [] => none
  | i :: is => some (minKey m i is, (i :: is).erase (minKey m i is))

/-- The leaf of symbol `v` at the next free entry, if its count is not zero (R151). -/
def addLeaf (ft : SymTable Word) (b : Builder) (v : Byte) : Builder :=
  if symGet ft v = 0#64 then b
  else
    { node := nodeSet b.node b.next
        { leaf := true, sym := v, weight := zextWeight (symGet ft v), left := 0#9, right := 0#9 }
      pq := b.pq ++ [b.next]
      next := b.next + 1 }

/-- All leaves, in ascending byte-value order (R151). -/
def addLeaves (ft : SymTable Word) (m : NodeMem) : Builder :=
  allSyms.foldl (addLeaf ft) { node := m, pq := [], next := 0 }

/-- One combining pass (R153): the node extracted first is the left child. -/
def combine (b : Builder) : Builder :=
  match extractMin b.node b.pq with
  | none => b
  | some (i, pq1) =>
    match extractMin b.node pq1 with
    | none => b
    | some (j, pq2) =>
      { node := nodeSet b.node b.next
          { leaf := false, sym := 0#8
            weight := (nodeAt b.node i).weight + (nodeAt b.node j).weight
            left := BitVec.ofNat 9 i, right := BitVec.ofNat 9 j }
        pq := pq2 ++ [b.next]
        next := b.next + 1 }

/-- The loop of R154, `while size(pq) > 1`. Each pass leaves the queue one shorter, so its length
bounds the passes. -/
def combineAll : Nat → Builder → Builder
  | 0, b => b
  | n + 1, b => if 1 < b.pq.length then combineAll n (combine b) else b

/-- BUILD's pseudocode (R154). `invalidate` draws node memory, so the entries BUILD does not write,
those at or above the new `nnodes`, and every entry when it fails, end with any value (log 25;
10_state.md R32, 93_implementation_defined.md U7). -/
def buildBody (s : State) : Result State :=
  let s0 := invalidate s
  let b := addLeaves s0.ft s0.node
  if b.next = 0 then .raised .emptyAlphabet 0#64 { s0 with node := b.node }
  else
    let t := combineAll b.pq.length b
    .ok { s0 with node := t.node, nnodes := BitVec.ofNat 9 t.next, treeOk := true }

/-- BUILD (R154). -/
def execBuild (s : State) : Host.Outcome State Fault Refusal := finish (buildBody s)

/-- What NDRD reads (R158): 0 for an index at or above `nnodes`. -/
def nodeRead (idx : NodeIdx) (s : State) : Word :=
  if s.nnodes ≤ idx then 0#64 else nodeWord (nodeAt s.node idx.toNat)

/-- NDRD idx (R158). -/
def execNdrd (idx : NodeIdx) (s : State) : Host.Outcome State Fault Refusal :=
  needTree (encodeCmd (.ndrd idx)) s (finish (.ok (setRes (nodeRead idx s) s)))

end Sys2Proof.Machine
end

