-- ==== Sys2Proof/Machine/Codec.lean ====
section
/-! DEFINITION. The codec sequencer: WRHDR, RDHDR, SRCRW, ENCPAY, DECPAY, ENCODE, DECODE
(45_codec.md R195 to R214). -/

namespace Sys2Proof.Machine

/-! ### Header -/

/-- `wr_hdr()` (R198): the 256 counts in byte-value order, then `N`, 64 bits each. -/
def wrHdr (s : State) : State :=
  bwWriteBits s.ntot 64 (allSyms.foldl (fun s' v => bwWriteBits (symGet s'.ft v) 64 s') s)

/-- One header field (R200): 64 bits, or TruncatedStream with the field's index. -/
def rdField (index : Nat) (s : State) : Result (Word × State) :=
  match readBits 64 (s.br, s.src) with
  | (k, value, p) =>
    if k < 64 then .raised .truncatedStream (BitVec.ofNat 64 index) (s.setIn p)
    else .ok (value, s.setIn p)

/-- The counts' loop of `rd_hdr()` (R200). -/
def rdCounts : List Byte → State → Result State
  | [], s => .ok s
  | v :: vs, s =>
    (rdField v.toNat s).bind fun r => rdCounts vs { r.2 with ft := symSet r.2.ft v r.1 }

/-- `rd_hdr()` (R200). -/
def rdHdr (s : State) : Result State :=
  (rdCounts allSyms (invalidate s)).bind fun s1 =>
    (rdField 256 s1).bind fun r => .ok { r.2 with ntot := r.1 }

/-- WRHDR (R199). -/
def execWrhdr (s : State) : Host.Outcome State Fault Refusal := finish (.ok (wrHdr s))

/-- RDHDR (R201). -/
def execRdhdr (s : State) : Host.Outcome State Fault Refusal := finish (rdHdr s)

/-! ### Source rewind -/

/-- `SrcRewind()` on the state (20_memory.md R63). -/
def srcRewind (s : State) : State := { s with src := s.src.rewind }

/-- SRCRW (R202): the source rewound and the reader emptied. -/
def execSrcrw (s : State) : Host.Outcome State Fault Refusal :=
  finish (.ok { srcRewind s with br := BitReader.empty })

/-! ### Payload -/

/-- The loop of `enc_pay()` (R203). The number bounds the source bytes still to come. -/
def encPayLoop : Nat → State → Result State
  | 0, s => .ok s
  | n + 1, s =>
    match s.src.next with
    | (none, _) => .ok s
    | (some b, src) => (encSym b { s with src := src }).bind (encPayLoop n)

/-- `enc_pay()` (R203): from the source's cursor to its end. -/
def encPay (s : State) : Result State := encPayLoop s.src.remaining s

/-- One symbol of `dec_pay()` (R205): the descent, then the put; a failed put raises at once. -/
def decPayOne (i : Word) (s : State) : Result State :=
  (decSym i s).bind fun r =>
    let q := r.2.snk.put r.1
    if q.1 then .ok { r.2 with snk := q.2 }
    else .raised .sinkFailure i { r.2 with snk := q.2 }

/-- The loop of `dec_pay()` (R205): so many symbols still to come, symbol `i` next. -/
def decPayLoop : Nat → Word → State → Result State
  | 0, _, s => .ok s
  | n + 1, i, s => (decPayOne i s).bind (decPayLoop n (i + 1#64))

/-- `dec_pay()` (R205): exactly `ntot` symbols. -/
def decPay (s : State) : Result State := decPayLoop s.ntot.toNat 0#64 s

/-- ENCPAY (R204). -/
def execEncpay (s : State) : Host.Outcome State Fault Refusal :=
  needTable (encodeCmd .encpay) s (finish (encPay s))

/-- DECPAY (R206). -/
def execDecpay (s : State) : Host.Outcome State Fault Refusal :=
  needTree (encodeCmd .decpay) s (finish (decPay s))

/-! ### The whole procedures -/

/-- `clear_units()` (R210). -/
def clearUnits (s : State) : State :=
  { invalidate (clearTable s) with bw := BitWriter.empty, br := BitReader.empty }

/-- The end of ENCODE (R212): the closing flush, then the one test for a sink failure. -/
def closeEncode (s : State) : Result State :=
  let s' := bwFlush s
  if s'.bw.fail then .raised .sinkFailure 0#64 s' else .ok s'

/-- ENCODE's pseudocode (R212), steps 1 to 5 and the close. -/
def encodeBody (s : State) : Result State :=
  (scanBody (srcRewind (clearUnits s))).bind fun s1 =>
    if s1.ntot = 0#64 then .raised .emptyInput 0#64 s1
    else
      (buildBody s1).bind fun s2 =>
      (ctgenBody s2).bind fun s3 =>
      (encPay (srcRewind (wrHdr s3))).bind closeEncode

/-- DECODE's pseudocode (R214), steps 1 to 4. -/
def decodeBody (s : State) : Result State :=
  (rdHdr (srcRewind (clearUnits s))).bind fun s1 => (buildBody s1).bind decPay

/-- ENCODE (R212). -/
def execEncode (s : State) : Host.Outcome State Fault Refusal := finish (encodeBody s)

/-- DECODE (R214). -/
def execDecode (s : State) : Host.Outcome State Fault Refusal := finish (decodeBody s)

end Sys2Proof.Machine
end

