-- ==== Sys2Proof/Machine/System.lean ====
section
/-! DEFINITION. NOP and INIT (46_system.md). -/

namespace Sys2Proof.Machine

/-- NOP (46_system.md R220): only `cseq` advances. -/
def execNop (s : State) : Host.Outcome State Fault Refusal := finish (.ok s)

/-- INIT (46_system.md R221): the reset state of the core; `cseq` is 0, not 1. -/
def execInit (s : State) : Host.Outcome State Fault Refusal := .next (resetCore s)

end Sys2Proof.Machine
end

