-- ==== Sys2Proof/Machine/Dispatch.lean ====
section
/-! DEFINITION. Which meaning each command has (spec 30_encoding.md R93): one arm per command. -/

namespace Sys2Proof.Machine

def exec (i : Instr) (s : State) : Host.Outcome State Fault Refusal :=
  match i with
  | .nop => Sys2Proof.Machine.execNop s
  | .init => Sys2Proof.Machine.execInit s
  | .wbit b => Sys2Proof.Machine.execWbit b s
  | .wbits n => Sys2Proof.Machine.execWbits n s
  | .wflush => Sys2Proof.Machine.execWflush s
  | .rbit => Sys2Proof.Machine.execRbit s
  | .rbits n => Sys2Proof.Machine.execRbits n s
  | .ftclr => Sys2Proof.Machine.execFtclr s
  | .ftinc sym => Sys2Proof.Machine.execFtinc sym s
  | .ftrd sym => Sys2Proof.Machine.execFtrd sym s
  | .scan => Sys2Proof.Machine.execScan s
  | .build => Sys2Proof.Machine.execBuild s
  | .ndrd idx => Sys2Proof.Machine.execNdrd idx s
  | .ctgen => Sys2Proof.Machine.execCtgen s
  | .ctlen sym => Sys2Proof.Machine.execCtlen sym s
  | .ctrd sym w => Sys2Proof.Machine.execCtrd sym w s
  | .encsym sym => Sys2Proof.Machine.execEncsym sym s
  | .decsym => Sys2Proof.Machine.execDecsym s
  | .wrhdr => Sys2Proof.Machine.execWrhdr s
  | .rdhdr => Sys2Proof.Machine.execRdhdr s
  | .srcrw => Sys2Proof.Machine.execSrcrw s
  | .encpay => Sys2Proof.Machine.execEncpay s
  | .decpay => Sys2Proof.Machine.execDecpay s
  | .encode => Sys2Proof.Machine.execEncode s
  | .decode => Sys2Proof.Machine.execDecode s

end Sys2Proof.Machine
end

