-- ==== Sys2Proof/Machine/Envelope.lean ====
section
/-! DEFINITION. What a host access does: the register map (10_state.md R21 to R30), the command
envelope (30_encoding.md R99), the byte-addressed bus (R21, 20_memory.md R71), the hardware reset. -/

namespace Sys2Proof.Machine

/-- What the envelope adds after a command that gave a next state; a stop stays a stop. -/
def onNext (f : State → State) (o : Host.Outcome State Fault Refusal) :
    Host.Outcome State Fault Refusal :=
  match o with
  | .next s => .next (f s)
  | .fault r => .fault r
  | .refused r => .refused r

/-- FMT, a constant (10_state.md R29): `FMT_VERSION` in [7:0], `W` in [15:8]. -/
def fmtView : Word := 0#48 ++ Config.fieldWidth ++ Config.fmtVersion

/-- `RegRead(i)` (10_state.md R21, R22); none where there is no such register. -/
def regRead (i : Nat) (s : State) : Option Word :=
  match i with
  | 0 => some 0#64
  | 1 => some s.opr
  | 2 => some s.res
  | 3 => some (statusView s)
  | 4 => some (s.err.setWidth 64)
  | 5 => some s.errinfo
  | 6 => some s.ntot
  | 7 => some fmtView
  | 8 => some (s.cseq.setWidth 64)
  | _ => none

/-- The answer to the host is logged. -/
def reply (r : Reply) (s : State) : State := { s with replies := s.replies ++ [r] }

/-- `RegWrite(0, v)`: the command envelope (30_encoding.md R99). Step 4 stands in the meanings of the
commands that have a precondition. -/
def writeCmd (v : Word) (s : State) : Host.Outcome State Fault Refusal :=
  if s.fault then
    if v = Config.initValue then exec .init s else .next s
  else
    match decode v with
    | .error _ => .next (raiseFault .illegalCommand v s)
    | .ok i => exec i s

/-- `RegRead(i)` is answered with the value, or an access error (R21); it changes no state. -/
def hostRead (i : Nat) (s : State) : State :=
  match regRead i s with
  | some v => reply (.value v) s
  | none => reply .accessError s

/-- `RegWrite(i, v)` (R21): CMD executes, OPR is written, writes to read-only registers change
nothing, a number above 8 is an access error. -/
def hostWrite (i : Nat) (v : Word) (s : State) : Host.Outcome State Fault Refusal :=
  match i with
  | 0 => onNext (reply .done) (writeCmd v s)
  | 1 => .next (reply .done { s with opr := v })
  | _ => if i ≤ 8 then .next (reply .done s) else .next (reply .accessError s)

/-- The register a bus access reaches: register `i` is at byte offset `8*i` (R21), accesses are 64
bits wide and whole (20_memory.md R71). -/
def busRegister (offset width : Nat) : Option Nat :=
  if width = 8 ∧ offset % 8 = 0 then some (offset / 8) else none

/-- One input. -/
def accept (a : Input) (s : State) : Host.Outcome State Fault Refusal :=
  match a with
  | .regRead i => .next (hostRead i s)
  | .regWrite i v => hostWrite i v s
  | .busRead offset width =>
    match busRegister offset width with
    | some i => .next (hostRead i s)
    | none => .next (reply .accessError s)
  | .busWrite offset width v =>
    match busRegister offset width with
    | some i => hostWrite i v s
    | none => .next (reply .accessError s)
  | .hwReset => .next (resetCore s)

/-- A step: the next input, in the order the host gave them (20_memory.md R74); with none to come the
core waits and loses nothing (60_exceptions.md R252, log 11). -/
def stepBody (s : State) : Host.Outcome State Fault Refusal :=
  match s.inputs with
  | [] => .next s
  | a :: rest => accept a { s with inputs := rest }

/-- The command word `w` of `nbits` bits, every bit above them 0, is the host's next write to CMD. -/
def placeCommand (s : State) (nbits w : Nat) : State :=
  { s with inputs := .regWrite 0 (BitVec.ofNat 64 (w % 2 ^ nbits)) :: s.inputs }

end Sys2Proof.Machine
end

