-- ==== Sys2Proof/Machine/Step.lean ====
section
/-! DEFINITION. One step of the machine, and how an instruction is placed where the step takes its
next one from (log 1). -/

namespace Sys2Proof.Machine

/-- One step: the next access of the host, to its end (spec 00_scope.md R12, 20_memory.md R74). -/
def step (s : State) : Host.Outcome State Fault Refusal := stepBody s

/-- The core fetches nothing (10_state.md R24): the next command is the host's next write to CMD. -/
def State.withFetchWord (s : State) (nbits w : Nat) : State := placeCommand s nbits w

end Sys2Proof.Machine
end

