-- ==== Sys2Proof/Safety.lean ====
section
/-! DEFINITION. What counts as a good run (spec 00_scope.md R15), the invariants of 10_state.md R41,
and the terms the claims are stated in: the bit space over the two streams (20_memory.md R67, R68),
the wire format (45_codec.md R195 to R197), the paths of the tree (43_codetable.md R170). -/

namespace Sys2Proof.Machine

/-! ### The bit space -/

/-- An `n`-bit field as it travels: bit `n - 1` of the value first, bit 0 last (R68). -/
def fieldBits {m : Nat} (v : BitVec m) : Nat → List Bool
  | 0 => []
  | n + 1 => v.getLsbD n :: fieldBits v n

/-- The bits of a byte sequence: within a byte the most significant first (R67). -/
def bitsOf (bytes : List Byte) : List Bool := bytes.flatMap fun b => fieldBits b 8

/-- The unsigned integer whose bits, most significant first, are these. -/
def natOf (bits : List Bool) : Nat := bits.foldl (fun v b => 2 * v + b.toNat) 0

/-- The bits waiting in the writer: the top `bw_cnt` positions of `bw_acc` (10_state.md R35). -/
def pendingBits (w : BitWriter) : List Bool := (fieldBits w.acc 8).take w.cnt.toNat

/-- Every bit the writer has been given: those in the sink, then those still waiting. -/
def outBits (p : BitWriter × Sink) : List Bool := bitsOf p.2.bytes ++ pendingBits p.1

/-- Every bit the reader has still to deliver: the unread bits of its byte (10_state.md R36), then
the source's from the cursor on. -/
def inBits (p : BitReader × Source) : List Bool :=
  fieldBits p.1.byte p.1.cnt.toNat ++ bitsOf (p.2.bytes.drop p.2.pos)

/-- Bit after bit through `bw_write` (40_bitchannel.md R120). -/
def writeAll (bits : List Bool) (p : BitWriter × Sink) : BitWriter × Sink :=
  bits.foldl (fun q b => writeBit b q) p

/-- A good sink answers ok to every put (20_memory.md R66). -/
def Sink.Good (k : Sink) : Prop := k.later = true ∧ ∀ a ∈ k.answers, a = true

/-- The same sink with every put answered ok. -/
def Sink.madeGood (k : Sink) : Sink := { k with answers := [], later := true }

/-! ### The wire format -/

/-- The header's bits (45_codec.md R196): the counts in byte-value order, then `N`. -/
def headerBits (ft : SymTable Word) (n : Word) : List Bool :=
  (allSyms.flatMap fun v => fieldBits (symGet ft v) 64) ++ fieldBits n 64

/-- The code of a symbol as it is sent, first bit first (43_codetable.md R171). -/
def codeBits (ct : SymTable CodeEntry) (v : Byte) : List Bool :=
  fieldBits (symGet ct v).code (symGet ct v).len.toNat

/-- The bytes the source still has, in order. -/
def Source.rest (p : Source) : List Byte := p.bytes.drop p.pos

/-- How often each symbol stands in a byte sequence, as counters. -/
def countsOf (bytes : List Byte) : SymTable Word :=
  Vector.ofFn fun i => BitVec.ofNat 64 (bytes.count (BitVec.ofNat 8 i.val))

/-! ### The tree -/

/-- Walking down from a node, left on 0 and right on 1; none where a bit is left over at a leaf. -/
def followPath (m : NodeMem) : NodeIdx → List Bool → Option NodeIdx
  | i, [] => some i
  | i, b :: bs =>
    if (nodeAt m i.toNat).leaf then none
    else followPath m (if b then (nodeAt m i.toNat).right else (nodeAt m i.toNat).left) bs

/-- `bits` is the path from node `i` to a leaf that holds symbol `v` (43_codetable.md R170). -/
def LeafAt (m : NodeMem) (i : NodeIdx) (bits : List Bool) (v : Byte) : Prop :=
  ∃ j, followPath m i bits = some j ∧ (nodeAt m j.toNat).leaf = true ∧ (nodeAt m j.toNat).sym = v

/-- `bits` is the code of `v` in the state's tree: the path starts at the root `nnodes - 1`. -/
def IsCode (s : State) (bits : List Bool) (v : Byte) : Prop :=
  LeafAt s.node (s.nnodes - 1#9) bits v

/-- `j` is a child of the internal node `i`. -/
def ChildOf (m : NodeMem) (i j : Nat) : Prop :=
  (nodeAt m i).left.toNat = j ∨ (nodeAt m i).right.toNat = j

/-- The shape of a tree of `L` leaves in entries `0 .. 2L-2` (10_state.md R33, R41 (d),
42_treebuilder.md R155 (a), (c)). -/
structure TreeShape (m : NodeMem) (nnodes : BitVec 9) (L : Nat) : Prop where
  some_leaf : 1 ≤ L
  symbols : L ≤ 256
  size : nnodes.toNat = 2 * L - 1
  leaves : ∀ i, i < 2 * L - 1 → ((nodeAt m i).leaf = true ↔ i < L)
  ascending : ∀ i j, i < j → j < L → (nodeAt m i).sym.toNat < (nodeAt m j).sym.toNat
  leaf_fields : ∀ i, i < L → (nodeAt m i).left = 0#9 ∧ (nodeAt m i).right = 0#9
  internal_sym : ∀ i, L ≤ i → i < 2 * L - 1 → (nodeAt m i).sym = 0#8
  left_below : ∀ i, L ≤ i → i < 2 * L - 1 → (nodeAt m i).left.toNat < i
  right_below : ∀ i, L ≤ i → i < 2 * L - 1 → (nodeAt m i).right.toNat < i
  two_children : ∀ i, L ≤ i → i < 2 * L - 1 → (nodeAt m i).left ≠ (nodeAt m i).right
  one_parent : ∀ j, j < 2 * L - 2 → ∃! i, (L ≤ i ∧ i < 2 * L - 1) ∧ ChildOf m i j
  weight_sum : ∀ i, L ≤ i → i < 2 * L - 1 →
    (nodeAt m i).weight.toNat =
      (nodeAt m (nodeAt m i).left.toNat).weight.toNat
        + (nodeAt m (nodeAt m i).right.toNat).weight.toNat

/-- The code table is the one of the state's tree (10_state.md R41 (e), 43_codetable.md R172): a
valid entry holds its symbol's path, right-aligned with zeros above (R171); an invalid one is empty
and its symbol is in no leaf. -/
def TableOfTree (s : State) : Prop :=
  ∀ v : Byte,
    ((symGet s.ct v).valid = true →
      IsCode s (codeBits s.ct v) v ∧ (symGet s.ct v).code.toNat < 2 ^ (symGet s.ct v).len.toNat) ∧
    ((symGet s.ct v).valid = false → symGet s.ct v = CodeEntry.none ∧ ∀ bits, ¬ IsCode s bits v)

/-- The queue's order on a finished memory (42_treebuilder.md R152): smaller weight first, among
equal weights the smaller index. -/
def LighterThan (m : NodeMem) (i j : Nat) : Prop :=
  (nodeAt m i).weight.toNat < (nodeAt m j).weight.toNat ∨
    ((nodeAt m i).weight.toNat = (nodeAt m j).weight.toNat ∧ i < j)

/-- What the queue holds when entry `t` is about to be built in a tree of `L` leaves (R153): the
earlier entries that no earlier internal node has taken as a child. -/
def Waiting (m : NodeMem) (L t j : Nat) : Prop :=
  j < t ∧ ∀ i, L ≤ i → i < t → ¬ ChildOf m i j

/-- How many symbols have a count that is not zero (R151). -/
def leafCount (ft : SymTable Word) : Nat := (allSyms.filter fun v => symGet ft v ≠ 0#64).length

/-- The sum of all counts. -/
def countSum (ft : SymTable Word) : Nat := (allSyms.map fun v => (symGet ft v).toNat).sum

/-! ### The tree and the code table of the counts (42_treebuilder.md R155 (f), 43_codetable.md R179) -/

/-- The builder BUILD ends with on the counts `ft`, over node memory `m` (R154). -/
def treeOf (ft : SymTable Word) (m : NodeMem) : Builder :=
  combineAll (addLeaves ft m).pq.length (addLeaves ft m)

/-- The tree of the counts alone: which node memory BUILD starts over does not matter for its
entries (R155 (f)), so this one starts over zeros. -/
def treeOfCounts (ft : SymTable Word) : Builder := treeOf ft (Vector.replicate 511 Node.zero)

/-- `bits` is the code of `v` in the tree of the counts `ft`; nothing but `ft` is asked. -/
def IsCodeOf (ft : SymTable Word) (bits : List Bool) (v : Byte) : Prop :=
  LeafAt (treeOfCounts ft).node (BitVec.ofNat 9 (treeOfCounts ft).next - 1#9) bits v

/-- The code table of the counts (R172, R179): the walk of their tree from its root. -/
def codeTableOf (ft : SymTable Word) : SymTable CodeEntry :=
  (visit (treeOfCounts ft).node visitDepth (BitVec.ofNat 9 (treeOfCounts ft).next - 1#9) 0#8 0#256
    (Vector.replicate 256 CodeEntry.none)).getD (Vector.replicate 256 CodeEntry.none)

/-! ### Invariants -/

/-- The writer between commands (10_state.md R41 (a), R35, 40_bitchannel.md R120): the low
`8 - bw_cnt` bits of `bw_acc` are 0, and a failed writer holds nothing. -/
def BitWriter.Wf (w : BitWriter) : Prop :=
  (∀ i, i < 8 - w.cnt.toNat → w.acc.getLsbD i = false) ∧ (w.fail = true → w.acc = 0#8 ∧ w.cnt = 0#3)

/-- The reader between commands (R41 (b)). -/
def BitReader.Wf (r : BitReader) : Prop := r.cnt.toNat ≤ 7

/-- The source's cursor stays in `0..len` (20_memory.md R60). -/
def Source.Wf (p : Source) : Prop := p.pos ≤ p.bytes.length

/-- R41 (a), (b), (c), (f), R60, and the fault codes of 60_exceptions.md R230: `err` is 1..8 while
`fault = 1`. -/
structure UnitInv (s : State) : Prop where
  writer : s.bw.Wf
  reader : s.br.Wf
  source : s.src.Wf
  no_tree : s.treeOk = false → s.nnodes = 0#9 ∧ s.ctOk = false
  no_fault : s.fault = false → s.err = 0#8 ∧ s.errinfo = 0#64
  fault_code : s.fault = true → 1 ≤ s.err.toNat ∧ s.err.toNat ≤ 8

/-- R41 (d) and (e). -/
structure TreeInv (s : State) : Prop where
  tree : s.treeOk = true → ∃ L, TreeShape s.node s.nnodes L
  table : s.ctOk = true → s.treeOk = true ∧ TableOfTree s

/-- The invariants of R41 together. -/
structure Inv (s : State) : Prop where
  units : UnitInv s
  trees : TreeInv s

/-! ### Runs -/

/-- Commands one after another, each to its end (20_memory.md R74); while `fault = 1` a command but
INIT is dropped (30_encoding.md R99 step 1). -/
def runCommands : List Instr → State → Host.Outcome State Fault Refusal
  | [], s => .next s
  | i :: is, s =>
    if s.fault = true ∧ i ≠ .init then runCommands is s
    else
      match exec i s with
      | .next t => runCommands is t
      | .fault r => .fault r
      | .refused r => .refused r

/-- A run is over when its last access has been answered (00_scope.md R15). -/
def RunOver (s : State) : Prop := s.inputs = []

/-- A run is good when `fault = 0` at its end (R15). -/
def GoodEnd (s : State) : Prop := RunOver s ∧ s.fault = false

end Sys2Proof.Machine
end

