-- ==== Sys2Proof/Certificates/Slice0/Obligations.lean ====
section
/-! DEFINITION. The statements for the provers, from the numbered rules of spec/. -/

open Sys2Proof Sys2Proof.Machine Host.Outcome

/-! ### Encoding (30_encoding.md) -/

/-- Every command with legal operands is read back from its own word, every operand included (R91,
R92, R93). -/
def Obligations.DecodeInvertsEncode : Prop :=
  ∀ i : Instr, i.wf = true → decode (encodeCmd i) = .ok i

/-- The decoder is total and exact (R95): a value it accepts is the word of exactly the command it
reads, and that command's operands are legal. -/
def Obligations.AcceptedValueIsItsCommandsWord : Prop :=
  ∀ (v : Word) (i : Instr), decode v = .ok i → i.wf = true ∧ encodeCmd i = v

/-- Words written out from R102 (the spec's own inference from R91 to R95): each decodes to its
command, or is rejected for its reason. -/
def Obligations.WorkedEncodings : Prop :=
  decode 0x0000000000000000#64 = .ok .nop ∧
  decode 0x0000000010000001#64 = .ok (.wbit true) ∧
  decode 0x0000000011400000#64 = .ok (.wbits 64#8) ∧
  decode 0x0000000019060000#64 = .ok (.rbits 6#8) ∧
  decode 0x0000000021000041#64 = .ok (.ftinc 0x41#8) ∧
  decode 0x00000000310001FE#64 = .ok (.ndrd 510#9) ∧
  decode 0x000000004203006C#64 = .ok (.ctrd 0x6C#8 3#2) ∧
  decode 0x0000000043000068#64 = .ok (.encsym 0x68#8) ∧
  decode 0x0000000069000000#64 = .ok .decode ∧
  decode 0x0000000011000000#64 = .error .badCount ∧
  decode 0x0000000011410000#64 = .error .badCount ∧
  decode 0x0000000010000002#64 = .error .mustBeZero ∧
  decode 0x0000000042040000#64 = .error .mustBeZero ∧
  decode 0x0000000031000200#64 = .error .mustBeZero ∧
  decode 0x0000000070000000#64 = .error .unassignedOpcode ∧
  decode 0x0100000001000000#64 = .error .upperBits

/-! ### The envelope and the registers

In these statements the queue `inputs` of host accesses, the list `replies` of answers and the form
of an access error are the model's choice (log 1, log 10); the rules named are the spec's. -/

/-- R99: a value written to CMD while `fault = 0` that decodes to a command runs that command, and
the host is answered when it has ended. -/
def Obligations.StepRunsDecodedCommand : Prop :=
  ∀ (s : State) (v : Word) (i : Instr) (rest : List Input),
    s.inputs = .regWrite 0 v :: rest → s.fault = false → decode v = .ok i →
    step s = onNext (fun t => { t with replies := t.replies ++ [.done] })
      (exec i { s with inputs := rest })

/-- R235: an illegal value raises IllegalCommand with the whole value, and has no other effect. -/
def Obligations.IllegalValueRaises : Prop :=
  ∀ (s : State) (v : Word) (rest : List Input),
    s.inputs = .regWrite 0 v :: rest → s.fault = false → (∀ i, i.wf = true → encodeCmd i ≠ v) →
    step s = next
      { s with
        inputs := rest, replies := s.replies ++ [.done]
        fault := true, err := 5#8, errinfo := v, cseq := s.cseq + 1#32 }

/-- R99 step 1: while `fault = 1` a write to CMD of any value but INIT's changes nothing (`cseq`
included), and INIT's value performs INIT. -/
def Obligations.FaultedCoreDropsCommands : Prop :=
  ∀ (s : State) (v : Word) (rest : List Input),
    s.inputs = .regWrite 0 v :: rest → s.fault = true →
    (v ≠ 0x0000000001000000#64 →
      step s = next { s with inputs := rest, replies := s.replies ++ [.done] }) ∧
    (v = 0x0000000001000000#64 →
      step s = onNext (fun t => { t with replies := t.replies ++ [.done] })
        (exec .init { s with inputs := rest }))

/-- R21, R22, R28, R29, R223: a register read is answered in every state, faulted or not, and
changes nothing; CMD reads 0, FMT reads 0x4001. A write to OPR is accepted in every state; a write
to a read-only register changes nothing. A number above 8 gets the access error and changes nothing.
-/
def Obligations.RegisterAccesses : Prop :=
  ∀ (s : State) (i : Nat) (v : Word) (rest : List Input),
    (s.inputs = .regRead i :: rest →
      ∃ r, step s = next { s with inputs := rest, replies := s.replies ++ [r] } ∧
        (i = 0 → r = .value 0#64) ∧ (i = 1 → r = .value s.opr) ∧ (i = 2 → r = .value s.res) ∧
        (i = 3 → r = .value (statusView s)) ∧ (i = 4 → r = .value (s.err.setWidth 64)) ∧
        (i = 5 → r = .value s.errinfo) ∧ (i = 6 → r = .value s.ntot) ∧
        (i = 7 → r = .value 0x4001#64) ∧ (i = 8 → r = .value (s.cseq.setWidth 64)) ∧
        (8 < i → r = .accessError)) ∧
    (s.inputs = .regWrite i v :: rest →
      (i = 1 → step s = next { s with inputs := rest, opr := v, replies := s.replies ++ [.done] }) ∧
      (2 ≤ i → i ≤ 8 → step s = next { s with inputs := rest, replies := s.replies ++ [.done] }) ∧
      (8 < i → step s = next { s with inputs := rest, replies := s.replies ++ [.accessError] }))

/-- R25: every field of STATUS, and zeros between them. -/
def Obligations.StatusFields : Prop :=
  ∀ s : State,
    (statusView s).getLsbD 0 = s.fault ∧ (statusView s).getLsbD 1 = !s.bw.fail ∧
    (statusView s).getLsbD 2 = s.br.eof ∧ (statusView s).getLsbD 3 = s.treeOk ∧
    (statusView s).getLsbD 4 = s.ctOk ∧ (statusView s).extractLsb' 5 3 = 0#3 ∧
    (statusView s).extractLsb' 8 3 = s.bw.cnt ∧ (statusView s).getLsbD 11 = false ∧
    (statusView s).extractLsb' 12 4 = s.br.cnt ∧ (statusView s).extractLsb' 16 9 = s.nnodes ∧
    (statusView s).extractLsb' 25 39 = 0#39

/-- R21, R71: on a byte-addressed bus register `i` is at offset `8*i`, accessed whole; any other
access gets the access error and changes nothing. -/
def Obligations.BusAccessesReachRegisters : Prop :=
  ∀ (s : State) (offset width : Nat) (v : Word) (rest : List Input),
    (width = 8 → offset % 8 = 0 →
      step { s with inputs := .busRead offset width :: rest }
        = step { s with inputs := .regRead (offset / 8) :: rest } ∧
      step { s with inputs := .busWrite offset width v :: rest }
        = step { s with inputs := .regWrite (offset / 8) v :: rest }) ∧
    (width ≠ 8 ∨ offset % 8 ≠ 0 →
      step { s with inputs := .busRead offset width :: rest }
        = next { s with inputs := rest, replies := s.replies ++ [.accessError] } ∧
      step { s with inputs := .busWrite offset width v :: rest }
        = next { s with inputs := rest, replies := s.replies ++ [.accessError] })

/-! ### Reset, faults -/

/-- R40: the value of every piece of core state after reset. The environment at the start of a run
is the model's choice (log 2), as is node memory (log 3), which is left out here. -/
def Obligations.ResetValues : Prop :=
  State.reset.opr = 0#64 ∧ State.reset.res = 0#64 ∧ State.reset.cseq = 0#32 ∧
  State.reset.fault = false ∧ State.reset.err = 0#8 ∧ State.reset.errinfo = 0#64 ∧
  (∀ v, symGet State.reset.ft v = 0#64) ∧ State.reset.ntot = 0#64 ∧
  State.reset.nnodes = 0#9 ∧ State.reset.treeOk = false ∧ State.reset.ctOk = false ∧
  (∀ v, symGet State.reset.ct v = { valid := false, len := 0#8, code := 0#256 }) ∧
  State.reset.bw = { acc := 0#8, cnt := 0#3, fail := false } ∧
  State.reset.br = { byte := 0#8, cnt := 0#4, eof := false } ∧
  statusView State.reset = 0x2#64

/-- R221, R260, R261: INIT and the hardware reset give every piece of core state its reset value in
every state, faulted or not, and touch neither the source nor the sink. Node memory is left free
(log 4); the hardware reset comes as an input (log 12). -/
def Obligations.InitAndResetRestoreTheCore : Prop :=
  ∀ (s : State) (rest : List Input),
    ∃ (m : NodeMem) (d : Nat),
      let t : State :=
        { s with
          opr := 0#64, res := 0#64, cseq := 0#32, fault := false, err := 0#8, errinfo := 0#64
          ft := Vector.replicate 256 0#64, ntot := 0#64, node := m, nnodes := 0#9, treeOk := false
          ct := Vector.replicate 256 { valid := false, len := 0#8, code := 0#256 }, ctOk := false
          bw := { acc := 0#8, cnt := 0#3, fail := false }
          br := { byte := 0#8, cnt := 0#4, eof := false }, draws := d }
      exec .init s = next t ∧
      step { s with inputs := .hwReset :: rest } = next { t with inputs := rest } ∧
      step { s with inputs := .regWrite 0 0x0000000001000000#64 :: rest }
        = next { t with inputs := rest, replies := s.replies ++ [.done] }

/-- R240: fault entry writes the flag, the code, the information and `cseq`, and nothing else; the
codes are those of R230. -/
def Obligations.FaultEntry : Prop :=
  ∀ (c : Cause) (info : Word) (s : State),
    (∃ code : BitVec 8,
      raiseFault c info s
        = { s with fault := true, err := code, errinfo := info, cseq := s.cseq + 1#32 } ∧
      (c = .emptyInput → code = 1#8) ∧ (c = .emptyAlphabet → code = 2#8) ∧
      (c = .truncatedStream → code = 3#8) ∧ (c = .sinkFailure → code = 4#8) ∧
      (c = .illegalCommand → code = 5#8) ∧ (c = .stateInvalid → code = 6#8) ∧
      (c = .noCode → code = 7#8) ∧ (c = .countOverflow → code = 8#8))

/-- R236, R99 step 4: without its tree or its code table a command raises StateInvalid with the
command word, and has no other effect. -/
def Obligations.PreconditionFailureRaises : Prop :=
  ∀ s : State,
    (s.treeOk = false → ∀ i : Instr,
      (i = .ctgen ∨ i = .decsym ∨ i = .decpay ∨ ∃ idx, i = .ndrd idx) →
      exec i s = next
        { s with fault := true, err := 6#8, errinfo := (encode i).setWidth 64
                 cseq := s.cseq + 1#32 }) ∧
    (s.ctOk = false → ∀ i : Instr,
      (i = .encpay ∨ (∃ v, i = .ctlen v) ∨ (∃ v w, i = .ctrd v w) ∨ ∃ v, i = .encsym v) →
      exec i s = next
        { s with fault := true, err := 6#8, errinfo := (encode i).setWidth 64
                 cseq := s.cseq + 1#32 })

/-- R244, R245, R241: the only way out of the fault state is INIT or a hardware reset; a step that
stays in it changes nothing but OPR and the host's queues, so `err` and `errinfo` keep describing
the first fault. -/
def Obligations.FaultStateIsSticky : Prop :=
  ∀ s t : State, s.fault = true → step s = next t →
    (t.fault = false →
      ∃ rest, s.inputs = .hwReset :: rest ∨
        s.inputs = .regWrite 0 0x0000000001000000#64 :: rest ∨
        s.inputs = .busWrite 0 8 0x0000000001000000#64 :: rest) ∧
    (t.fault = true → t = { s with opr := t.opr, inputs := t.inputs, replies := t.replies })

/-! ### System -/

/-- R220, R140, R202: NOP, FTCLR and SRCRW complete in every state with exactly their effect. Node
memory after FTCLR is left open (93_implementation_defined.md U7). -/
def Obligations.NopFtclrSrcrw : Prop :=
  ∀ s : State,
    exec .nop s = next { s with cseq := s.cseq + 1#32 } ∧
    (∃ (m : NodeMem) (d : Nat),
      exec .ftclr s = next
        { s with ft := Vector.replicate 256 0#64, ntot := 0#64, node := m, draws := d
                 treeOk := false, nnodes := 0#9, ctOk := false, cseq := s.cseq + 1#32 }) ∧
    exec .srcrw s = next
      { s with src := { s.src with pos := 0 }, br := { byte := 0#8, cnt := 0#4, eof := false }
               cseq := s.cseq + 1#32 }

/-- R23, R24: every command but INIT that ends, by completing or by faulting, adds 1 to `cseq`
modulo `2^32` and leaves OPR as it is; only RBIT, RBITS, FTRD, NDRD, CTLEN, CTRD, DECSYM and INIT
change RES. -/
def Obligations.WhoWritesCseqOprRes : Prop :=
  ∀ (i : Instr) (s t : State), i ≠ .init → exec i s = next t →
    t.cseq = s.cseq + 1#32 ∧ t.opr = s.opr ∧
    (i ≠ .rbit → (∀ n, i ≠ .rbits n) → (∀ v, i ≠ .ftrd v) → (∀ x, i ≠ .ndrd x) →
      (∀ v, i ≠ .ctlen v) → (∀ v w, i ≠ .ctrd v w) → i ≠ .decsym → t.res = s.res)

/-- R31, R32, R34, for every command but INIT: only FTCLR, FTINC, SCAN, RDHDR, ENCODE and DECODE
change the counters or `ntot`, only CTGEN and ENCODE the entries of the code table. Node memory that
holds a tree is written by BUILD, ENCODE and DECODE only; a command that writes the counters withdraws
the tree, after which no content is promised (93_implementation_defined.md U7). -/
def Obligations.WhoWritesTheTables : Prop :=
  ∀ (i : Instr) (s t : State), i ≠ .init → exec i s = next t →
    (i ≠ .ftclr → (∀ v, i ≠ .ftinc v) → i ≠ .scan → i ≠ .rdhdr → i ≠ .encode → i ≠ .decode →
      t.ft = s.ft ∧ t.ntot = s.ntot) ∧
    (i ≠ .build → i ≠ .encode → i ≠ .decode →
      t.node = s.node ∨
        ((i = .ftclr ∨ (∃ v, i = .ftinc v) ∨ i = .scan ∨ i = .rdhdr) ∧
          t.treeOk = false ∧ t.nnodes = 0#9 ∧ t.ctOk = false)) ∧
    (i ≠ .ctgen → i ≠ .encode → t.ct = s.ct)

/-- R60, R64: no step changes the source's bytes or takes back a byte of the sink. -/
def Obligations.SourceFixedSinkGrows : Prop :=
  ∀ s t : State, step s = next t → t.src.bytes = s.src.bytes ∧ s.snk.bytes <+: t.snk.bytes

/-! ### BitChannel (40_bitchannel.md) -/

/-- R120, R125: WBIT in every state of the writer. -/
def Obligations.WbitEveryCase : Prop :=
  ∀ (b : Bool) (s : State),
    let acc := s.bw.acc ||| ((if b then 1#8 else 0#8) <<< (7 - s.bw.cnt.toNat))
    (s.bw.fail = true → exec (.wbit b) s = next { s with cseq := s.cseq + 1#32 }) ∧
    (s.bw.fail = false → s.bw.cnt ≠ 7#3 →
      exec (.wbit b) s = next
        { s with bw := { acc := acc, cnt := s.bw.cnt + 1#3, fail := false }
                 cseq := s.cseq + 1#32 }) ∧
    (s.bw.fail = false → s.bw.cnt = 7#3 →
      exec (.wbit b) s = next
        { s with bw := { acc := 0#8, cnt := 0#3, fail := !(s.snk.put acc).1 }
                 snk := (s.snk.put acc).2, cseq := s.cseq + 1#32 })

/-- R121, R126: WBITS is the bits `n-1..0` of OPR through `bw_write`, one after another, whatever
the sink answers; OPR's other bits have no effect. -/
def Obligations.WbitsSendsTheField : Prop :=
  ∀ (n : BitVec 8) (s : State),
    let p := writeAll (fieldBits s.opr n.toNat) (s.bw, s.snk)
    exec (.wbits n) s = next { s with bw := p.1, snk := p.2, cseq := s.cseq + 1#32 }

/-- R67, R68, R126: with a writer that has not failed over a good sink, WBITS puts the field's bits,
most significant first, behind every bit given before, WCNT becomes `(WCNT + n) mod 8`, and the
writer stays good. -/
def Obligations.WbitsOrderOnAGoodSink : Prop :=
  ∀ (n : BitVec 8) (s : State), s.bw.Wf → s.bw.fail = false → s.snk.Good →
    ∃ (w : BitWriter) (k : Sink),
      exec (.wbits n) s = next { s with bw := w, snk := k, cseq := s.cseq + 1#32 } ∧
      outBits (w, k) = outBits (s.bw, s.snk) ++ fieldBits s.opr n.toNat ∧
      w.cnt.toNat = (s.bw.cnt.toNat + n.toNat) % 8 ∧ w.fail = false ∧ w.Wf ∧ k.Good

/-- R122, R127: WFLUSH puts a partial byte, once, and nothing for an empty or failed writer. -/
def Obligations.WflushEveryCase : Prop :=
  ∀ s : State,
    (s.bw.fail = true ∨ s.bw.cnt = 0#3 →
      exec .wflush s = next { s with cseq := s.cseq + 1#32 }) ∧
    (s.bw.fail = false → s.bw.cnt ≠ 0#3 →
      exec .wflush s = next
        { s with bw := { acc := 0#8, cnt := 0#3, fail := !(s.snk.put s.bw.acc).1 }
                 snk := (s.snk.put s.bw.acc).2, cseq := s.cseq + 1#32 })

/-- R66, R120: what reaches a sink that may fail is the beginning of what a good sink would get, and
all of it when the writer has not failed. -/
def Obligations.FailingSinkTruncates : Prop :=
  ∀ (bits : List Bool) (p : BitWriter × Sink), p.1.fail = false →
    (writeAll bits p).2.bytes <+: (writeAll bits (p.1, p.2.madeGood)).2.bytes ∧
    ((writeAll bits p).1.fail = false →
      (writeAll bits p).2.bytes = (writeAll bits (p.1, p.2.madeGood)).2.bytes ∧
      (writeAll bits p).1 = (writeAll bits (p.1, p.2.madeGood)).1) ∧
    ((writeAll bits p).1.fail = true → (writeAll bits p).1.acc = 0#8 ∧ (writeAll bits p).1.cnt = 0#3)

/-- R123, R128: RBIT in every state of the reader: from its byte, from a refill, at the end. -/
def Obligations.RbitEveryCase : Prop :=
  ∀ s : State,
    (s.br.cnt ≠ 0#4 →
      exec .rbit s = next
        { s with br := { s.br with cnt := s.br.cnt - 1#4 }
                 res := if s.br.byte.getLsbD (s.br.cnt.toNat - 1) then 1#64 else 0#64
                 cseq := s.cseq + 1#32 }) ∧
    (s.br.cnt = 0#4 → ∀ b, s.src.bytes[s.src.pos]? = some b →
      exec .rbit s = next
        { s with br := { byte := b, cnt := 7#4, eof := s.br.eof }
                 src := { s.src with pos := s.src.pos + 1 }
                 res := if b.getLsbD 7 then 1#64 else 0#64
                 cseq := s.cseq + 1#32 }) ∧
    (s.br.cnt = 0#4 → s.src.bytes[s.src.pos]? = none →
      exec .rbit s = next { s with br := { s.br with eof := true }, cseq := s.cseq + 1#32 })

/-- R124, R129: RBITS where the stream holds `n` more bits puts them in RES, the first read most
significant, and the end mark is as before. Where the stream ends mid-field the command completes
too: the end mark is set, the bits there were are in the low bits of RES, and nothing is said of the
bits above them (log 5). -/
def Obligations.RbitsReadsTheField : Prop :=
  ∀ (n : BitVec 8) (s : State), n.toNat ≤ 64 →
    (n.toNat ≤ (inBits (s.br, s.src)).length →
      ∃ (r : BitReader) (p : Source),
        exec (.rbits n) s = next
          { s with br := r, src := p, cseq := s.cseq + 1#32
                   res := BitVec.ofNat 64 (natOf ((inBits (s.br, s.src)).take n.toNat)) } ∧
        inBits (r, p) = (inBits (s.br, s.src)).drop n.toNat ∧ r.eof = s.br.eof ∧
        p.bytes = s.src.bytes) ∧
    ((inBits (s.br, s.src)).length < n.toNat →
      ∃ (r : BitReader) (p : Source) (x : Word) (d : Nat),
        exec (.rbits n) s = next
          { s with br := r, src := p, res := x, draws := d, cseq := s.cseq + 1#32 } ∧
        x.toNat % 2 ^ (inBits (s.br, s.src)).length = natOf (inBits (s.br, s.src)) ∧
        inBits (r, p) = [] ∧ r.eof = true ∧ p.bytes = s.src.bytes)

/-- R67, R123, R131: `inBits` is what the reader delivers. `br_read` takes the first of these bits
and leaves the others, and reports the end exactly when there is none; and a field through
`bw_write_bits` (R121) is its bits one after another. -/
def Obligations.ReaderDeliversInBits : Prop :=
  ∀ p : BitReader × Source,
    (inBits p = [] → readBit p = (none, ({ p.1 with eof := true }, p.2))) ∧
    (∀ (b : Bool) (bs : List Bool), inBits p = b :: bs →
      ∃ p', readBit p = (some b, p') ∧ inBits p' = bs ∧ p'.1.eof = p.1.eof ∧
        p'.2.bytes = p.2.bytes) ∧
    ∀ (v : Word) (n : Nat) (q : BitWriter × Sink), writeBits v n q = writeAll (fieldBits v n) q

/-- R130 (the spec's own inference): the reader is the dual of the writer. Any bits written from an
empty writer over a good empty sink and flushed stand in the sink followed by zeros up to the byte
boundary, so a reader that starts empty on those bytes delivers exactly those bits and then the
zeros; a field of `n` bits written and read back is the value modulo `2^n`. -/
def Obligations.ReaderIsDualOfWriter : Prop :=
  ∀ (k : Sink), k.Good → k.bytes = [] →
    (∀ bits : List Bool,
      let q := flushBits (writeAll bits (BitWriter.empty, k))
      q.2.bytes.length = (bits.length + 7) / 8 ∧
      inBits (BitReader.empty, { bytes := q.2.bytes, pos := 0 })
        = bits ++ List.replicate ((8 - bits.length % 8) % 8) false) ∧
    (∀ (v : Word) (n : Nat), n ≤ 64 →
      let q := flushBits (writeBits v n (BitWriter.empty, k))
      ∃ p, readBits n (BitReader.empty, { bytes := q.2.bytes, pos := 0 })
        = (n, BitVec.ofNat 64 (v.toNat % 2 ^ n), p))

/-! ### Frequency table (41_freqtable.md) -/

/-- R141, R142: FTINC adds one to its slot and to `ntot`, or raises CountOverflow with neither
changed; either way the tree and the code table are withdrawn, node memory then holding any value
(93_implementation_defined.md U7). -/
def Obligations.FtincCountsOrOverflows : Prop :=
  ∀ (v : Byte) (s : State), ∃ (m : NodeMem) (d : Nat),
    let u : State :=
      { s with node := m, draws := d, treeOk := false, nnodes := 0#9, ctOk := false }
    ((symGet s.ft v).toNat < 2 ^ 64 - 1 → s.ntot.toNat < 2 ^ 64 - 1 →
      ∃ ft : SymTable Word,
        exec (.ftinc v) s = next { u with ft := ft, ntot := s.ntot + 1#64, cseq := s.cseq + 1#32 } ∧
        symGet ft v = symGet s.ft v + 1#64 ∧ ∀ x, x ≠ v → symGet ft x = symGet s.ft x) ∧
    ((symGet s.ft v).toNat = 2 ^ 64 - 1 ∨ s.ntot.toNat = 2 ^ 64 - 1 →
      exec (.ftinc v) s = next
        { u with fault := true, err := 8#8, errinfo := v.setWidth 64, cseq := s.cseq + 1#32 })

/-- R144: SCAN adds to each slot how often its symbol stands in the source from the cursor on, and
leaves the cursor at the end; the reader is not involved. -/
def Obligations.ScanCountsTheSource : Prop :=
  ∀ s : State, (∀ v, (symGet s.ft v).toNat + s.src.rest.count v < 2 ^ 64) →
    s.ntot.toNat + s.src.rest.length < 2 ^ 64 →
    ∃ (ft : SymTable Word) (m : NodeMem) (d : Nat),
      exec .scan s = next
        { s with ft := ft, ntot := s.ntot + BitVec.ofNat 64 s.src.rest.length
                 src := { s.src with pos := s.src.pos + s.src.rest.length }
                 node := m, draws := d, treeOk := false, nnodes := 0#9, ctOk := false
                 cseq := s.cseq + 1#32 } ∧
      ∀ v, (symGet ft v).toNat = (symGet s.ft v).toNat + s.src.rest.count v

/-- R144, R238: SCAN stops at the first byte whose slot or whose total is full; that byte is
consumed, the bytes before it are counted. -/
def Obligations.ScanStopsAtOverflow : Prop :=
  ∀ (s : State) (before after : List Byte) (v : Byte), s.src.rest = before ++ v :: after →
    (∀ x, (symGet s.ft x).toNat + before.count x < 2 ^ 64) →
    s.ntot.toNat + before.length < 2 ^ 64 →
    (symGet s.ft v).toNat + before.count v = 2 ^ 64 - 1 ∨
      s.ntot.toNat + before.length = 2 ^ 64 - 1 →
    ∃ (ft : SymTable Word) (m : NodeMem) (d : Nat),
      exec .scan s = next
        { s with ft := ft, ntot := s.ntot + BitVec.ofNat 64 before.length
                 src := { s.src with pos := s.src.pos + before.length + 1 }
                 node := m, draws := d, treeOk := false, nnodes := 0#9, ctOk := false
                 fault := true, err := 8#8, errinfo := v.setWidth 64, cseq := s.cseq + 1#32 } ∧
      ∀ x, (symGet ft x).toNat = (symGet s.ft x).toNat + before.count x

/-! ### Tree builder (42_treebuilder.md) -/

/-- R157, R212, R231, R232: BUILD on a table of zeros raises EmptyAlphabet and leaves no tree;
ENCODE of a source of no bytes raises EmptyInput and nothing is put to the sink. Node memory holds
any value after either (93_implementation_defined.md U7). -/
def Obligations.NothingToBuildOrEncode : Prop :=
  ∀ s : State,
    ((∀ v, symGet s.ft v = 0#64) →
      ∃ (m : NodeMem) (d : Nat),
        exec .build s = next
          { s with node := m, draws := d, treeOk := false, nnodes := 0#9, ctOk := false
                   fault := true, err := 2#8, errinfo := 0#64, cseq := s.cseq + 1#32 }) ∧
    (s.src.bytes = [] →
      ∃ (m : NodeMem) (d : Nat),
        exec .encode s = next
          { s with
            ft := Vector.replicate 256 0#64, ntot := 0#64, node := m, draws := d
            treeOk := false, nnodes := 0#9, ctOk := false
            bw := BitWriter.empty, br := BitReader.empty, src := { s.src with pos := 0 }
            fault := true, err := 1#8, errinfo := 0#64, cseq := s.cseq + 1#32 })

/-- R151, R154, R155 (a), (c): BUILD on any other table completes with a tree whose leaves are
exactly the symbols present, each weighted by its count; nothing but node memory, the tree's marks
and `cseq` changes. -/
def Obligations.BuildMakesATree : Prop :=
  ∀ s : State, (∃ v, symGet s.ft v ≠ 0#64) →
    ∃ (m : NodeMem) (n : BitVec 9) (d : Nat),
      exec .build s = next
        { s with node := m, nnodes := n, treeOk := true, ctOk := false, draws := d
                 cseq := s.cseq + 1#32 } ∧
      TreeShape m n (leafCount s.ft) ∧
      (∀ i, i < leafCount s.ft →
        symGet s.ft (nodeAt m i).sym ≠ 0#64 ∧
        (nodeAt m i).weight.toNat = (symGet s.ft (nodeAt m i).sym).toNat) ∧
      (∀ v, symGet s.ft v ≠ 0#64 → ∃ i, i < leafCount s.ft ∧ (nodeAt m i).sym = v)

/-- R152, R153: each internal node joins the two lightest nodes that are waiting, ties broken by the
smaller index; the lightest is the left child and the next the right. -/
def Obligations.BuildJoinsTheTwoLightest : Prop :=
  ∀ s t : State, (∃ v, symGet s.ft v ≠ 0#64) → exec .build s = next t →
    ∀ i, leafCount s.ft ≤ i → i < t.nnodes.toNat →
      let l := (nodeAt t.node i).left.toNat
      let r := (nodeAt t.node i).right.toNat
      Waiting t.node (leafCount s.ft) i l ∧ Waiting t.node (leafCount s.ft) i r ∧
      LighterThan t.node l r ∧
      ∀ j, Waiting t.node (leafCount s.ft) i j → j ≠ l → j ≠ r → LighterThan t.node r j

/-- R155 (d), (e): internal weights do not decrease in build order, and the root weighs the sum of
all counts. -/
def Obligations.BuiltWeights : Prop :=
  ∀ s t : State, (∃ v, symGet s.ft v ≠ 0#64) → exec .build s = next t →
    (∀ i, leafCount s.ft ≤ i → i + 1 < t.nnodes.toNat →
      (nodeAt t.node i).weight.toNat ≤ (nodeAt t.node (i + 1)).weight.toNat) ∧
    (nodeAt t.node (t.nnodes.toNat - 1)).weight.toNat = countSum s.ft

/-- R155 (f), R161: BUILD is a function of the counts alone. Two cores with the same counts,
whatever else they hold, get the same tree, entry for entry, or both fault. -/
def Obligations.BuildDependsOnCountsAlone : Prop :=
  ∀ s t : State, s.ft = t.ft →
    ∃ s' t', exec .build s = next s' ∧ exec .build t = next t' ∧
      s'.treeOk = t'.treeOk ∧ s'.nnodes = t'.nnodes ∧
      (∀ i, i < s'.nnodes.toNat → nodeAt s'.node i = nodeAt t'.node i) ∧
      (s'.treeOk = false → s'.err = 2#8 ∧ t'.err = 2#8)

/-- R158: NDRD with a tree: 0 for an index at or above `nnodes`, else the entry's fields at their
places, and nothing but RES changes. -/
def Obligations.NdrdReadsAnEntry : Prop :=
  ∀ (idx : NodeIdx) (s : State), s.treeOk = true →
    ∃ x : Word, exec (.ndrd idx) s = next { s with res := x, cseq := s.cseq + 1#32 } ∧
      (s.nnodes.toNat ≤ idx.toNat → x = 0#64) ∧
      (idx.toNat < s.nnodes.toNat →
        x.getLsbD 63 = true ∧ x.getLsbD 62 = (nodeAt s.node idx.toNat).leaf ∧
        x.extractLsb' 41 21 = 0#21 ∧ x.extractLsb' 32 9 = (nodeAt s.node idx.toNat).right ∧
        x.extractLsb' 25 7 = 0#7 ∧ x.extractLsb' 16 9 = (nodeAt s.node idx.toNat).left ∧
        x.extractLsb' 8 8 = 0#8 ∧ x.extractLsb' 0 8 = (nodeAt s.node idx.toNat).sym)

/-! ### Code table (43_codetable.md) -/

/-- R170, R171, R172: CTGEN on a tree completes; a symbol's entry is the path to its leaf, and a
symbol without a leaf has none. -/
def Obligations.CtgenWalksTheTree : Prop :=
  ∀ (s : State) (L : Nat), s.treeOk = true → TreeShape s.node s.nnodes L →
    ∃ ct : SymTable CodeEntry,
      exec .ctgen s = next { s with ct := ct, ctOk := true, cseq := s.cseq + 1#32 } ∧
      TableOfTree { s with ct := ct }

/-- R178 (the spec's own inference): no code of a code table is the beginning of another's. -/
def Obligations.CodesArePrefixFree : Prop :=
  ∀ (s : State) (a b : Byte), TreeInv s → s.ctOk = true → a ≠ b →
    (symGet s.ct a).valid = true → (symGet s.ct b).valid = true →
    ¬ codeBits s.ct a <+: codeBits s.ct b

/-- R143, R173, R174: FTRD in every state, CTLEN and CTRD with a code table, read their entry and
change nothing but RES. -/
def Obligations.TableReadouts : Prop :=
  ∀ (v : Byte) (w : BitVec 2) (s : State),
    exec (.ftrd v) s = next { s with res := symGet s.ft v, cseq := s.cseq + 1#32 } ∧
    (s.ctOk = true →
      ∃ x : Word, exec (.ctlen v) s = next { s with res := x, cseq := s.cseq + 1#32 } ∧
        x.extractLsb' 9 55 = 0#55 ∧ x.getLsbD 8 = (symGet s.ct v).valid ∧
        x.extractLsb' 0 8 = (symGet s.ct v).len) ∧
    (s.ctOk = true →
      ∃ x : Word, exec (.ctrd v w) s = next { s with res := x, cseq := s.cseq + 1#32 } ∧
        ∀ k, k < 64 → x.getLsbD k = (symGet s.ct v).code.getLsbD (64 * w.toNat + k))

/-- R175, R176: ENCSYM with a code table sends the symbol's code, first bit first, whatever the sink
answers, or raises NoCode with the symbol and sends nothing. -/
def Obligations.EncsymSendsTheCode : Prop :=
  ∀ (v : Byte) (s : State), s.ctOk = true →
    let p := writeAll (codeBits s.ct v) (s.bw, s.snk)
    ((symGet s.ct v).valid = true →
      exec (.encsym v) s = next { s with bw := p.1, snk := p.2, cseq := s.cseq + 1#32 }) ∧
    ((symGet s.ct v).valid = false →
      exec (.encsym v) s = next
        { s with fault := true, err := 7#8, errinfo := v.setWidth 64, cseq := s.cseq + 1#32 })

/-! ### Decode FSM (44_decode_fsm.md) -/

/-- R186, R187, R233: DECSYM on a stream that begins with a symbol's path takes exactly that path
and gives the symbol; on a stream that ends before a leaf it raises TruncatedStream with 0, the bits
read are not given back, the end mark is set, and RES is as before. -/
def Obligations.DecsymFollowsThePath : Prop :=
  ∀ s : State, s.treeOk = true →
    (∀ (bits more : List Bool) (v : Byte), IsCode s bits v → inBits (s.br, s.src) = bits ++ more →
      ∃ (r : BitReader) (p : Source),
        exec .decsym s = next
          { s with br := r, src := p, res := v.setWidth 64, cseq := s.cseq + 1#32 } ∧
        inBits (r, p) = more ∧ r.eof = s.br.eof ∧ p.bytes = s.src.bytes) ∧
    ((∀ (bits : List Bool) (v : Byte), IsCode s bits v → ¬ bits <+: inBits (s.br, s.src)) →
      ∃ (r : BitReader) (p : Source),
        exec .decsym s = next
          { s with br := r, src := p, fault := true, err := 3#8, errinfo := 0#64
                   cseq := s.cseq + 1#32 } ∧
        inBits (r, p) = [] ∧ r.eof = true ∧ p.bytes = s.src.bytes)

/-- R188: on a single-leaf tree DECSYM gives the sole symbol and reads nothing. -/
def Obligations.DecsymSingleLeaf : Prop :=
  ∀ s : State, s.treeOk = true → s.nnodes = 1#9 → (nodeAt s.node 0).leaf = true →
    exec .decsym s = next
      { s with res := (nodeAt s.node 0).sym.setWidth 64, cseq := s.cseq + 1#32 }

/-! ### Codec (45_codec.md) -/

/-- R196, R198, R199: WRHDR sends the header's bits, whatever the sink answers. -/
def Obligations.WrhdrSendsTheHeader : Prop :=
  ∀ s : State,
    let p := writeAll (headerBits s.ft s.ntot) (s.bw, s.snk)
    exec .wrhdr s = next { s with bw := p.1, snk := p.2, cseq := s.cseq + 1#32 }

/-- R200, R201: RDHDR on a stream that begins with a header takes over its counts and its `N`
without any check, and withdraws the tree and the code table. -/
def Obligations.RdhdrTakesTheHeader : Prop :=
  ∀ (s : State) (ft : SymTable Word) (n : Word) (more : List Bool),
    inBits (s.br, s.src) = headerBits ft n ++ more →
    ∃ (r : BitReader) (p : Source) (m : NodeMem) (d : Nat),
      exec .rdhdr s = next
        { s with ft := ft, ntot := n, node := m, draws := d, treeOk := false, nnodes := 0#9
                 ctOk := false, br := r, src := p, cseq := s.cseq + 1#32 } ∧
      inBits (r, p) = more ∧ r.eof = s.br.eof ∧ p.bytes = s.src.bytes

/-- R200, R233: RDHDR on a stream shorter than a header raises TruncatedStream with the index of the
field it could not complete; the fields before it are stored, the partial one is not. -/
def Obligations.RdhdrTruncated : Prop :=
  ∀ s : State, (inBits (s.br, s.src)).length < 257 * 64 →
    ∃ (ft : SymTable Word) (r : BitReader) (p : Source) (m : NodeMem) (d : Nat),
      exec .rdhdr s = next
        { s with ft := ft, node := m, draws := d, treeOk := false, nnodes := 0#9, ctOk := false
                 br := r, src := p
                 fault := true, err := 3#8
                 errinfo := BitVec.ofNat 64 ((inBits (s.br, s.src)).length / 64)
                 cseq := s.cseq + 1#32 } ∧
      r.eof = true ∧ inBits (r, p) = [] ∧ p.bytes = s.src.bytes ∧
      ∀ v : Byte,
        symGet ft v =
          if v.toNat < (inBits (s.br, s.src)).length / 64 then
            BitVec.ofNat 64 (natOf (((inBits (s.br, s.src)).drop (64 * v.toNat)).take 64))
          else symGet s.ft v

/-- R203, R204: ENCPAY sends the codes of the source's bytes from the cursor on, in input order,
whatever the sink answers; at the first byte without a code it raises NoCode with that byte, the
codes before it sent. -/
def Obligations.EncpaySendsTheCodes : Prop :=
  ∀ (s : State) (before after : List Byte), s.ctOk = true → s.src.rest = before ++ after →
    (∀ b ∈ before, (symGet s.ct b).valid = true) →
    let p := writeAll (before.flatMap (codeBits s.ct)) (s.bw, s.snk)
    (after = [] →
      exec .encpay s = next
        { s with bw := p.1, snk := p.2, src := { s.src with pos := s.src.pos + before.length }
                 cseq := s.cseq + 1#32 }) ∧
    (∀ v rest, after = v :: rest → (symGet s.ct v).valid = false →
      exec .encpay s = next
        { s with bw := p.1, snk := p.2, src := { s.src with pos := s.src.pos + before.length + 1 }
                 fault := true, err := 7#8, errinfo := v.setWidth 64, cseq := s.cseq + 1#32 })

/-- R205, R206: DECPAY on a stream that begins with the paths of `N` symbols, over a sink that takes
the next `N` puts, puts exactly those symbols; what follows them stays unread, and nothing but the
reader, the source's cursor, the sink and `cseq` changes. -/
def Obligations.DecpayPutsExactlyN : Prop :=
  ∀ (s : State) (out : List Byte) (paths : List (List Bool)) (more : List Bool),
    s.treeOk = true → s.ntot.toNat = out.length →
    List.Forall₂ (fun bits v => IsCode s bits v) paths out →
    inBits (s.br, s.src) = paths.flatten ++ more →
    (∀ j, j < out.length → s.snk.answers.getD j s.snk.later = true) →
    ∃ (r : BitReader) (p : Source) (k : Sink),
      exec .decpay s = next { s with br := r, src := p, snk := k, cseq := s.cseq + 1#32 } ∧
      k.bytes = s.snk.bytes ++ out ∧
      (∀ j, k.answers.getD j k.later = s.snk.answers.getD (out.length + j) s.snk.later) ∧
      inBits (r, p) = more ∧ r.eof = s.br.eof ∧ p.bytes = s.src.bytes

/-- R205, R233, R234: DECPAY that meets the end of the stream, or a failed put, after `i` symbols
raises TruncatedStream or SinkFailure with `i`; the `i` symbols stay in the sink. At the end of the
stream every bit has been taken; at a failed put exactly the paths so far have. Nothing but the
reader, the source's cursor, the sink, the fault and `cseq` changes. -/
def Obligations.DecpayFaultsAfterISymbols : Prop :=
  ∀ (s : State) (out : List Byte) (paths : List (List Bool)) (more : List Bool),
    s.treeOk = true → out.length < s.ntot.toNat →
    List.Forall₂ (fun bits v => IsCode s bits v) paths out →
    inBits (s.br, s.src) = paths.flatten ++ more →
    (∀ k, k < out.length → s.snk.answers.getD k s.snk.later = true) →
    ((∀ (bits : List Bool) (v : Byte), IsCode s bits v → ¬ bits <+: more) →
      ∃ (r : BitReader) (p : Source) (k : Sink),
        exec .decpay s = next
          { s with br := r, src := p, snk := k, fault := true, err := 3#8
                   errinfo := BitVec.ofNat 64 out.length, cseq := s.cseq + 1#32 } ∧
        k.bytes = s.snk.bytes ++ out ∧
        (∀ j, k.answers.getD j k.later = s.snk.answers.getD (out.length + j) s.snk.later) ∧
        inBits (r, p) = [] ∧ r.eof = true ∧ p.bytes = s.src.bytes) ∧
    (∀ (bits rest : List Bool) (v : Byte), IsCode s bits v → more = bits ++ rest →
      s.snk.answers.getD out.length s.snk.later = false →
      ∃ (r : BitReader) (p : Source) (k : Sink),
        exec .decpay s = next
          { s with br := r, src := p, snk := k, fault := true, err := 4#8
                   errinfo := BitVec.ofNat 64 out.length, cseq := s.cseq + 1#32 } ∧
        k.bytes = s.snk.bytes ++ out ∧
        (∀ j, k.answers.getD j k.later = s.snk.answers.getD (out.length + 1 + j) s.snk.later) ∧
        inBits (r, p) = rest ∧ r.eof = s.br.eof ∧ p.bytes = s.src.bytes)

/-- R195, R197, R212: ENCODE of a source of at least one byte completes over a sink that takes its
puts, be it bounded with just that room. The sink has received the header of the source's counts,
then the codes of its bytes in input order, then zeros up to the byte boundary, and nothing else.
The tree is the one BUILD makes of those counts, its leaves being exactly the source's symbols; the
code table is the one CTGEN reads off that tree. A source's byte number `2^64` raises CountOverflow
with that byte (R238), before anything is put. -/
def Obligations.EncodeProducesTheStream : Prop :=
  ∀ s : State, s.src.bytes ≠ [] →
    let ft := countsOf s.src.bytes
    let n := BitVec.ofNat 64 s.src.bytes.length
    let ct := codeTableOf ft
    let bits := headerBits ft n ++ s.src.bytes.flatMap (codeBits ct)
    let puts := (bits.length + 7) / 8
    (s.src.bytes.length < 2 ^ 64 →
      (∀ j, j < puts → s.snk.answers.getD j s.snk.later = true) →
      ∃ (u : State) (m : NodeMem) (k : Sink) (d pad : Nat),
        let t : State :=
          { s with
            ft := ft, ntot := n, node := m, nnodes := u.nnodes, treeOk := true
            ct := ct, ctOk := true, bw := BitWriter.empty, br := BitReader.empty
            src := { s.src with pos := s.src.bytes.length }, snk := k, draws := d
            cseq := s.cseq + 1#32 }
        exec .encode s = next t ∧
        exec .build { s with ft := ft } = next u ∧
        (∀ i, i < u.nnodes.toNat → nodeAt m i = nodeAt u.node i) ∧
        exec .ctgen u = next { u with ct := ct, ctOk := true, cseq := u.cseq + 1#32 } ∧
        TreeInv t ∧
        (∀ b, b ∈ s.src.bytes ↔ ∃ path, IsCode t path b) ∧
        (∀ b, b ∈ s.src.bytes ↔ (symGet ct b).valid = true) ∧
        pad < 8 ∧
        bitsOf k.bytes = bitsOf s.snk.bytes ++ bits ++ List.replicate pad false ∧
        ∀ j, k.answers.getD j k.later = s.snk.answers.getD (puts + j) s.snk.later) ∧
    (∀ (before after : List Byte) (v : Byte),
      s.src.bytes = before ++ v :: after → before.length = 2 ^ 64 - 1 →
      ∃ (m : NodeMem) (d : Nat),
        exec .encode s = next
          { s with
            ft := countsOf before, ntot := 0xFFFFFFFFFFFFFFFF#64, node := m, draws := d
            treeOk := false, nnodes := 0#9, ctOk := false
            bw := BitWriter.empty, br := BitReader.empty
            src := { s.src with pos := before.length + 1 }
            fault := true, err := 8#8, errinfo := v.setWidth 64, cseq := s.cseq + 1#32 })

/-- R212, R234: if one of the puts ENCODE makes fails, it raises SinkFailure with 0 at its end, and
the sink holds the bytes before the first failed put. -/
def Obligations.EncodeReportsSinkFailure : Prop :=
  ∀ (s g : State) (stream : List Byte) (j : Nat),
    s.src.bytes ≠ [] → s.src.bytes.length < 2 ^ 64 →
    exec .encode { s with snk := s.snk.madeGood } = next g → g.snk.bytes = s.snk.bytes ++ stream →
    j < stream.length → (∀ k, k < j → s.snk.answers.getD k s.snk.later = true) →
    s.snk.answers.getD j s.snk.later = false →
    ∃ t, exec .encode s = next t ∧ t.fault = true ∧ t.err = 4#8 ∧ t.errinfo = 0#64 ∧
      t.bw.fail = true ∧ t.snk.bytes = s.snk.bytes ++ stream.take j

/-- R214: DECODE of a stream that is a header and the paths of `N` symbols in the header's own tree,
over a sink that takes the next `N` puts, completes with exactly those symbols in the sink, whatever
follows them in the stream and whatever tree, table or writer the core held. -/
def Obligations.DecodeProducesTheSymbols : Prop :=
  ∀ (s u : State) (ft : SymTable Word) (out : List Byte) (paths : List (List Bool))
    (more : List Bool),
    u.ft = ft → (∃ v, symGet ft v ≠ 0#64) → out.length < 2 ^ 64 →
    (∀ j, j < out.length → s.snk.answers.getD j s.snk.later = true) →
    (∀ u', exec .build u = next u' → List.Forall₂ (fun bits v => IsCode u' bits v) paths out) →
    bitsOf s.src.bytes
      = headerBits ft (BitVec.ofNat 64 out.length) ++ paths.flatten ++ more →
    ∃ (m : NodeMem) (n : BitVec 9) (r : BitReader) (p : Source) (k : Sink) (d : Nat),
      exec .decode s = next
        { s with
          ft := ft, ntot := BitVec.ofNat 64 out.length, node := m, nnodes := n, treeOk := true
          ctOk := false, bw := BitWriter.empty, br := r, src := p, snk := k, draws := d
          cseq := s.cseq + 1#32 } ∧
      k.bytes = s.snk.bytes ++ out ∧ inBits (r, p) = more ∧ r.eof = false ∧
      p.bytes = s.src.bytes

/-- R214, R232, R233: DECODE of a stream shorter than a header raises TruncatedStream with the
field's index and no tree; DECODE of a header of zero counts raises EmptyAlphabet; neither puts a
byte. -/
def Obligations.DecodeRefusesABadHeader : Prop :=
  ∀ s : State,
    (s.src.bytes.length < 2056 →
      ∃ t, exec .decode s = next t ∧ t.fault = true ∧ t.err = 3#8 ∧
        t.errinfo = BitVec.ofNat 64 (s.src.bytes.length / 8) ∧ t.treeOk = false ∧
        t.br.eof = true ∧ t.ntot = 0#64 ∧ t.snk = s.snk) ∧
    (∀ (n : Word) (more : List Bool),
      bitsOf s.src.bytes = headerBits (Vector.replicate 256 0#64) n ++ more →
      ∃ t, exec .decode s = next t ∧ t.fault = true ∧ t.err = 2#8 ∧ t.errinfo = 0#64 ∧
        t.treeOk = false ∧ t.ntot = n ∧ t.snk = s.snk)

/-- R215 (the spec's own inference), the round trip: for every non-empty byte sequence, what one
core encodes another core decodes to the same sequence. -/
def Obligations.RoundTrip : Prop :=
  ∀ (s d : State), s.src.bytes ≠ [] → s.src.bytes.length < 2 ^ 64 →
    s.snk.Good → s.snk.bytes = [] → d.snk.Good → d.snk.bytes = [] →
    ∃ t, exec .encode s = next t ∧ t.fault = s.fault ∧
      (d.src.bytes = t.snk.bytes →
        ∃ u, exec .decode d = next u ∧ u.fault = d.fault ∧ u.snk.bytes = s.src.bytes)

/-- R217 (the spec's own inference), the single-symbol law: `m` copies of one byte encode to the
2056 header bytes alone, the symbol's code is the empty one (CTLEN reads 0x100), and they decode
back by reading exactly those 2056 bytes and never meeting the end of the input. -/
def Obligations.SingleSymbolLaw : Prop :=
  ∀ (s d : State) (a : Byte) (m : Nat), 1 ≤ m → m < 2 ^ 64 → s.src.bytes = List.replicate m a →
    s.snk.Good → s.snk.bytes = [] → d.snk.Good → d.snk.bytes = [] →
    ∃ t, exec .encode s = next t ∧ t.fault = s.fault ∧ t.snk.bytes.length = 2056 ∧
      bitsOf t.snk.bytes = headerBits t.ft t.ntot ∧ t.ntot = BitVec.ofNat 64 m ∧
      symGet t.ft a = BitVec.ofNat 64 m ∧ (∀ x, x ≠ a → symGet t.ft x = 0#64) ∧
      exec (.ctlen a) t = next { t with res := 0x100#64, cseq := t.cseq + 1#32 } ∧
      (d.src.bytes = t.snk.bytes →
        ∃ u, exec .decode d = next u ∧ u.fault = d.fault ∧ u.snk.bytes = List.replicate m a ∧
          u.src.pos = 2056 ∧ u.br.eof = false)

/-- R216 (the spec's own inference): from `fault = 0`, an empty good writer and a source of at least
one byte, the nine step commands leave the same sink, counts, tree, code table and writer as ENCODE,
a sink failure showing as WGOOD = 0 with no fault; on an empty source they fault with EmptyAlphabet
where ENCODE reports EmptyInput. From `fault = 0` the four step commands of the other side leave the
same sink, counts, tree marks, reader and source as DECODE, and fault where it faults with the same
code and information; the writer is left as it was. `cseq` advances by 9, or by 4, instead of 1.
The entries of the tree are the same; those of no tree hold any value. -/
def Obligations.StepwiseEquivalents : Prop :=
  ∀ s : State, s.fault = false →
    (s.bw = BitWriter.empty → s.src.bytes ≠ [] → s.src.bytes.length < 2 ^ 64 →
      ∃ t u,
        runCommands [.ftclr, .srcrw, .scan, .build, .ctgen, .wrhdr, .srcrw, .encpay, .wflush] s
          = next t ∧
        exec .encode s = next u ∧
        t.snk = u.snk ∧ t.ft = u.ft ∧ t.ntot = u.ntot ∧ t.nnodes = u.nnodes ∧
        (∀ i, i < u.nnodes.toNat → nodeAt t.node i = nodeAt u.node i) ∧
        t.treeOk = u.treeOk ∧ t.ct = u.ct ∧ t.ctOk = u.ctOk ∧ t.bw = u.bw ∧
        t.cseq = s.cseq + 9#32 ∧ u.cseq = s.cseq + 1#32 ∧ t.fault = false ∧
        u.fault = t.bw.fail) ∧
    (s.src.bytes = [] →
      ∃ t u,
        runCommands [.ftclr, .srcrw, .scan, .build, .ctgen, .wrhdr, .srcrw, .encpay, .wflush] s
          = next t ∧
        exec .encode s = next u ∧ t.fault = true ∧ t.err = 2#8 ∧ u.fault = true ∧ u.err = 1#8) ∧
    (∃ t u,
      runCommands [.srcrw, .rdhdr, .build, .decpay] s = next t ∧ exec .decode s = next u ∧
      t.fault = u.fault ∧ t.err = u.err ∧ t.errinfo = u.errinfo ∧ t.snk = u.snk ∧
      t.bw = s.bw ∧
      (u.fault = false →
        t.ft = u.ft ∧ t.ntot = u.ntot ∧ t.nnodes = u.nnodes ∧
        (∀ i, i < u.nnodes.toNat → nodeAt t.node i = nodeAt u.node i) ∧
        t.treeOk = u.treeOk ∧ t.ctOk = u.ctOk ∧ t.br = u.br ∧ t.src = u.src ∧
        t.cseq = s.cseq + 4#32 ∧ u.cseq = s.cseq + 1#32))

/-! ### Invariants (10_state.md R41) -/

/-- R41 holds after reset. -/
def Obligations.ResetMeetsTheInvariants : Prop := Inv State.reset

/-- R41 (a), (b), (c), (f), R60, R230: every step keeps the units' invariants. -/
def Obligations.StepKeepsUnitInvariants : Prop :=
  ∀ s t : State, UnitInv s → step s = next t → UnitInv t

/-- R41 (d), (e): every step keeps the shape of the tree and the code table's agreement with it. -/
def Obligations.StepKeepsTreeAndCodeTable : Prop :=
  ∀ s t : State, UnitInv s → TreeInv s → step s = next t → TreeInv t

/-- R254, R272: the core has no stuck state. From every state that meets the invariants every step
ends in a next state: no command stops, and none fails to end. -/
def Obligations.NoStepStops : Prop := ∀ s : State, Inv s → ∃ t, step s = next t

/-! ### DECODE completes (45_codec.md R214) -/

/-- R214: DECODE completes on every stream that is a header of counts that are not all zero and the
codes of its `N` symbols in the tree of those counts, over a sink that takes the next `N` puts. The
conditions are on the state and the stream alone. Exactly those symbols are put; the tree is the one
BUILD makes of the header's counts; what follows the codes is left unread. -/
def Obligations.DecodeCompletes : Prop :=
  ∀ (s : State) (ft : SymTable Word) (out : List Byte) (paths : List (List Bool))
    (more : List Bool),
    (∃ v, symGet ft v ≠ 0#64) → out.length < 2 ^ 64 →
    List.Forall₂ (IsCodeOf ft) paths out →
    bitsOf s.src.bytes
      = headerBits ft (BitVec.ofNat 64 out.length) ++ paths.flatten ++ more →
    (∀ j, j < out.length → s.snk.answers.getD j s.snk.later = true) →
    ∃ (u : State) (m : NodeMem) (r : BitReader) (p : Source) (k : Sink) (d : Nat),
      exec .decode s = next
        { s with
          ft := ft, ntot := BitVec.ofNat 64 out.length, node := m, nnodes := u.nnodes
          treeOk := true, ctOk := false, bw := BitWriter.empty, br := r, src := p, snk := k
          draws := d, cseq := s.cseq + 1#32 } ∧
      exec .build { s with ft := ft } = next u ∧
      (∀ i, i < u.nnodes.toNat → nodeAt m i = nodeAt u.node i) ∧
      k.bytes = s.snk.bytes ++ out ∧
      (∀ j, k.answers.getD j k.later = s.snk.answers.getD (out.length + j) s.snk.later) ∧
      inBits (r, p) = more ∧ r.eof = false ∧ p.bytes = s.src.bytes
end

