-- ==== Sys2Proof/Laws/State.lean ====
section
/-! SUPPORT. One lemma per field per update of the state, each true by rfl: later proofs rewrite with
them and unfold no record update. -/

namespace Sys2Proof.Machine

/-! ### How a command ends -/

@[simp] theorem finish_ok (s : State) : finish (.ok s) = .next (retire s) := rfl
@[simp] theorem finish_raised (c : Cause) (info : Word) (s : State) :
    finish (.raised c info s) = .next (raiseFault c info s) := rfl
theorem finish_of_ok {r : Result State} {s : State} (h : r = .ok s) :
    finish r = .next (retire s) := by rw [h]; rfl
theorem finish_of_raised {r : Result State} {c : Cause} {info : Word} {s : State}
    (h : r = .raised c info s) : finish r = .next (raiseFault c info s) := by rw [h]; rfl
@[simp] theorem bind_ok {α β : Type} (a : α) (k : α → Result β) : (Result.ok a).bind k = k a := rfl
@[simp] theorem bind_raised {α β : Type} (c : Cause) (info : Word) (s : State) (k : α → Result β) :
    (Result.raised c info s).bind k = .raised c info s := rfl
@[simp] theorem bind_endless {α β : Type} (k : α → Result β) :
    (Result.endless : Result α).bind k = .endless := rfl

theorem needTree_ok (w : Word) (s : State) (k : Host.Outcome State Fault Refusal)
    (h : s.treeOk = true) : needTree w s k = k := by simp [needTree, h]
theorem needTree_missing (w : Word) (s : State) (k : Host.Outcome State Fault Refusal)
    (h : s.treeOk = false) : needTree w s k = .next (raiseFault .stateInvalid w s) := by
  simp [needTree, h]
theorem needTable_ok (w : Word) (s : State) (k : Host.Outcome State Fault Refusal)
    (h : s.ctOk = true) : needTable w s k = k := by simp [needTable, h]
theorem needTable_missing (w : Word) (s : State) (k : Host.Outcome State Fault Refusal)
    (h : s.ctOk = false) : needTable w s k = .next (raiseFault .stateInvalid w s) := by
  simp [needTable, h]

/-! ### `retire` -/

@[simp] theorem retire_opr (s : State) : (retire s).opr = s.opr := rfl
@[simp] theorem retire_res (s : State) : (retire s).res = s.res := rfl
@[simp] theorem retire_cseq (s : State) : (retire s).cseq = s.cseq + 1#32 := rfl
@[simp] theorem retire_fault (s : State) : (retire s).fault = s.fault := rfl
@[simp] theorem retire_err (s : State) : (retire s).err = s.err := rfl
@[simp] theorem retire_errinfo (s : State) : (retire s).errinfo = s.errinfo := rfl
@[simp] theorem retire_ft (s : State) : (retire s).ft = s.ft := rfl
@[simp] theorem retire_ntot (s : State) : (retire s).ntot = s.ntot := rfl
@[simp] theorem retire_node (s : State) : (retire s).node = s.node := rfl
@[simp] theorem retire_nnodes (s : State) : (retire s).nnodes = s.nnodes := rfl
@[simp] theorem retire_treeOk (s : State) : (retire s).treeOk = s.treeOk := rfl
@[simp] theorem retire_ct (s : State) : (retire s).ct = s.ct := rfl
@[simp] theorem retire_ctOk (s : State) : (retire s).ctOk = s.ctOk := rfl
@[simp] theorem retire_bw (s : State) : (retire s).bw = s.bw := rfl
@[simp] theorem retire_br (s : State) : (retire s).br = s.br := rfl
@[simp] theorem retire_src (s : State) : (retire s).src = s.src := rfl
@[simp] theorem retire_snk (s : State) : (retire s).snk = s.snk := rfl
@[simp] theorem retire_inputs (s : State) : (retire s).inputs = s.inputs := rfl
@[simp] theorem retire_replies (s : State) : (retire s).replies = s.replies := rfl
@[simp] theorem retire_draws (s : State) : (retire s).draws = s.draws := rfl

/-! ### `raiseFault` -/

@[simp] theorem raiseFault_opr (c : Cause) (info : Word) (s : State) : (raiseFault c info s).opr = s.opr := rfl
@[simp] theorem raiseFault_res (c : Cause) (info : Word) (s : State) : (raiseFault c info s).res = s.res := rfl
@[simp] theorem raiseFault_cseq (c : Cause) (info : Word) (s : State) : (raiseFault c info s).cseq = s.cseq + 1#32 := rfl
@[simp] theorem raiseFault_fault (c : Cause) (info : Word) (s : State) : (raiseFault c info s).fault = true := rfl
@[simp] theorem raiseFault_err (c : Cause) (info : Word) (s : State) : (raiseFault c info s).err = c.code := rfl
@[simp] theorem raiseFault_errinfo (c : Cause) (info : Word) (s : State) : (raiseFault c info s).errinfo = info := rfl
@[simp] theorem raiseFault_ft (c : Cause) (info : Word) (s : State) : (raiseFault c info s).ft = s.ft := rfl
@[simp] theorem raiseFault_ntot (c : Cause) (info : Word) (s : State) : (raiseFault c info s).ntot = s.ntot := rfl
@[simp] theorem raiseFault_node (c : Cause) (info : Word) (s : State) : (raiseFault c info s).node = s.node := rfl
@[simp] theorem raiseFault_nnodes (c : Cause) (info : Word) (s : State) : (raiseFault c info s).nnodes = s.nnodes := rfl
@[simp] theorem raiseFault_treeOk (c : Cause) (info : Word) (s : State) : (raiseFault c info s).treeOk = s.treeOk := rfl
@[simp] theorem raiseFault_ct (c : Cause) (info : Word) (s : State) : (raiseFault c info s).ct = s.ct := rfl
@[simp] theorem raiseFault_ctOk (c : Cause) (info : Word) (s : State) : (raiseFault c info s).ctOk = s.ctOk := rfl
@[simp] theorem raiseFault_bw (c : Cause) (info : Word) (s : State) : (raiseFault c info s).bw = s.bw := rfl
@[simp] theorem raiseFault_br (c : Cause) (info : Word) (s : State) : (raiseFault c info s).br = s.br := rfl
@[simp] theorem raiseFault_src (c : Cause) (info : Word) (s : State) : (raiseFault c info s).src = s.src := rfl
@[simp] theorem raiseFault_snk (c : Cause) (info : Word) (s : State) : (raiseFault c info s).snk = s.snk := rfl
@[simp] theorem raiseFault_inputs (c : Cause) (info : Word) (s : State) : (raiseFault c info s).inputs = s.inputs := rfl
@[simp] theorem raiseFault_replies (c : Cause) (info : Word) (s : State) : (raiseFault c info s).replies = s.replies := rfl
@[simp] theorem raiseFault_draws (c : Cause) (info : Word) (s : State) : (raiseFault c info s).draws = s.draws := rfl

/-! ### `resetCore` -/

@[simp] theorem resetCore_opr (s : State) : (resetCore s).opr = 0#64 := rfl
@[simp] theorem resetCore_res (s : State) : (resetCore s).res = 0#64 := rfl
@[simp] theorem resetCore_cseq (s : State) : (resetCore s).cseq = 0#32 := rfl
@[simp] theorem resetCore_fault (s : State) : (resetCore s).fault = false := rfl
@[simp] theorem resetCore_err (s : State) : (resetCore s).err = 0#8 := rfl
@[simp] theorem resetCore_errinfo (s : State) : (resetCore s).errinfo = 0#64 := rfl
@[simp] theorem resetCore_ft (s : State) : (resetCore s).ft = Vector.replicate 256 0#64 := rfl
@[simp] theorem resetCore_ntot (s : State) : (resetCore s).ntot = 0#64 := rfl
@[simp] theorem resetCore_node (s : State) : (resetCore s).node = unspecifiedNodes s.draws := rfl
@[simp] theorem resetCore_nnodes (s : State) : (resetCore s).nnodes = 0#9 := rfl
@[simp] theorem resetCore_treeOk (s : State) : (resetCore s).treeOk = false := rfl
@[simp] theorem resetCore_ct (s : State) : (resetCore s).ct = Vector.replicate 256 CodeEntry.none := rfl
@[simp] theorem resetCore_ctOk (s : State) : (resetCore s).ctOk = false := rfl
@[simp] theorem resetCore_bw (s : State) : (resetCore s).bw = BitWriter.empty := rfl
@[simp] theorem resetCore_br (s : State) : (resetCore s).br = BitReader.empty := rfl
@[simp] theorem resetCore_src (s : State) : (resetCore s).src = s.src := rfl
@[simp] theorem resetCore_snk (s : State) : (resetCore s).snk = s.snk := rfl
@[simp] theorem resetCore_inputs (s : State) : (resetCore s).inputs = s.inputs := rfl
@[simp] theorem resetCore_replies (s : State) : (resetCore s).replies = s.replies := rfl
@[simp] theorem resetCore_draws (s : State) : (resetCore s).draws = s.draws + 1 := rfl

/-! ### `setRes` -/

@[simp] theorem setRes_opr (v : Word) (s : State) : (setRes v s).opr = s.opr := rfl
@[simp] theorem setRes_res (v : Word) (s : State) : (setRes v s).res = v := rfl
@[simp] theorem setRes_cseq (v : Word) (s : State) : (setRes v s).cseq = s.cseq := rfl
@[simp] theorem setRes_fault (v : Word) (s : State) : (setRes v s).fault = s.fault := rfl
@[simp] theorem setRes_err (v : Word) (s : State) : (setRes v s).err = s.err := rfl
@[simp] theorem setRes_errinfo (v : Word) (s : State) : (setRes v s).errinfo = s.errinfo := rfl
@[simp] theorem setRes_ft (v : Word) (s : State) : (setRes v s).ft = s.ft := rfl
@[simp] theorem setRes_ntot (v : Word) (s : State) : (setRes v s).ntot = s.ntot := rfl
@[simp] theorem setRes_node (v : Word) (s : State) : (setRes v s).node = s.node := rfl
@[simp] theorem setRes_nnodes (v : Word) (s : State) : (setRes v s).nnodes = s.nnodes := rfl
@[simp] theorem setRes_treeOk (v : Word) (s : State) : (setRes v s).treeOk = s.treeOk := rfl
@[simp] theorem setRes_ct (v : Word) (s : State) : (setRes v s).ct = s.ct := rfl
@[simp] theorem setRes_ctOk (v : Word) (s : State) : (setRes v s).ctOk = s.ctOk := rfl
@[simp] theorem setRes_bw (v : Word) (s : State) : (setRes v s).bw = s.bw := rfl
@[simp] theorem setRes_br (v : Word) (s : State) : (setRes v s).br = s.br := rfl
@[simp] theorem setRes_src (v : Word) (s : State) : (setRes v s).src = s.src := rfl
@[simp] theorem setRes_snk (v : Word) (s : State) : (setRes v s).snk = s.snk := rfl
@[simp] theorem setRes_inputs (v : Word) (s : State) : (setRes v s).inputs = s.inputs := rfl
@[simp] theorem setRes_replies (v : Word) (s : State) : (setRes v s).replies = s.replies := rfl
@[simp] theorem setRes_draws (v : Word) (s : State) : (setRes v s).draws = s.draws := rfl

/-! ### `setOut` -/

@[simp] theorem setOut_opr (s : State) (p : BitWriter × Sink) : (s.setOut p).opr = s.opr := rfl
@[simp] theorem setOut_res (s : State) (p : BitWriter × Sink) : (s.setOut p).res = s.res := rfl
@[simp] theorem setOut_cseq (s : State) (p : BitWriter × Sink) : (s.setOut p).cseq = s.cseq := rfl
@[simp] theorem setOut_fault (s : State) (p : BitWriter × Sink) : (s.setOut p).fault = s.fault := rfl
@[simp] theorem setOut_err (s : State) (p : BitWriter × Sink) : (s.setOut p).err = s.err := rfl
@[simp] theorem setOut_errinfo (s : State) (p : BitWriter × Sink) : (s.setOut p).errinfo = s.errinfo := rfl
@[simp] theorem setOut_ft (s : State) (p : BitWriter × Sink) : (s.setOut p).ft = s.ft := rfl
@[simp] theorem setOut_ntot (s : State) (p : BitWriter × Sink) : (s.setOut p).ntot = s.ntot := rfl
@[simp] theorem setOut_node (s : State) (p : BitWriter × Sink) : (s.setOut p).node = s.node := rfl
@[simp] theorem setOut_nnodes (s : State) (p : BitWriter × Sink) : (s.setOut p).nnodes = s.nnodes := rfl
@[simp] theorem setOut_treeOk (s : State) (p : BitWriter × Sink) : (s.setOut p).treeOk = s.treeOk := rfl
@[simp] theorem setOut_ct (s : State) (p : BitWriter × Sink) : (s.setOut p).ct = s.ct := rfl
@[simp] theorem setOut_ctOk (s : State) (p : BitWriter × Sink) : (s.setOut p).ctOk = s.ctOk := rfl
@[simp] theorem setOut_bw (s : State) (p : BitWriter × Sink) : (s.setOut p).bw = p.1 := rfl
@[simp] theorem setOut_br (s : State) (p : BitWriter × Sink) : (s.setOut p).br = s.br := rfl
@[simp] theorem setOut_src (s : State) (p : BitWriter × Sink) : (s.setOut p).src = s.src := rfl
@[simp] theorem setOut_snk (s : State) (p : BitWriter × Sink) : (s.setOut p).snk = p.2 := rfl
@[simp] theorem setOut_inputs (s : State) (p : BitWriter × Sink) : (s.setOut p).inputs = s.inputs := rfl
@[simp] theorem setOut_replies (s : State) (p : BitWriter × Sink) : (s.setOut p).replies = s.replies := rfl
@[simp] theorem setOut_draws (s : State) (p : BitWriter × Sink) : (s.setOut p).draws = s.draws := rfl

/-! ### `setIn` -/

@[simp] theorem setIn_opr (s : State) (p : BitReader × Source) : (s.setIn p).opr = s.opr := rfl
@[simp] theorem setIn_res (s : State) (p : BitReader × Source) : (s.setIn p).res = s.res := rfl
@[simp] theorem setIn_cseq (s : State) (p : BitReader × Source) : (s.setIn p).cseq = s.cseq := rfl
@[simp] theorem setIn_fault (s : State) (p : BitReader × Source) : (s.setIn p).fault = s.fault := rfl
@[simp] theorem setIn_err (s : State) (p : BitReader × Source) : (s.setIn p).err = s.err := rfl
@[simp] theorem setIn_errinfo (s : State) (p : BitReader × Source) : (s.setIn p).errinfo = s.errinfo := rfl
@[simp] theorem setIn_ft (s : State) (p : BitReader × Source) : (s.setIn p).ft = s.ft := rfl
@[simp] theorem setIn_ntot (s : State) (p : BitReader × Source) : (s.setIn p).ntot = s.ntot := rfl
@[simp] theorem setIn_node (s : State) (p : BitReader × Source) : (s.setIn p).node = s.node := rfl
@[simp] theorem setIn_nnodes (s : State) (p : BitReader × Source) : (s.setIn p).nnodes = s.nnodes := rfl
@[simp] theorem setIn_treeOk (s : State) (p : BitReader × Source) : (s.setIn p).treeOk = s.treeOk := rfl
@[simp] theorem setIn_ct (s : State) (p : BitReader × Source) : (s.setIn p).ct = s.ct := rfl
@[simp] theorem setIn_ctOk (s : State) (p : BitReader × Source) : (s.setIn p).ctOk = s.ctOk := rfl
@[simp] theorem setIn_bw (s : State) (p : BitReader × Source) : (s.setIn p).bw = s.bw := rfl
@[simp] theorem setIn_br (s : State) (p : BitReader × Source) : (s.setIn p).br = p.1 := rfl
@[simp] theorem setIn_src (s : State) (p : BitReader × Source) : (s.setIn p).src = p.2 := rfl
@[simp] theorem setIn_snk (s : State) (p : BitReader × Source) : (s.setIn p).snk = s.snk := rfl
@[simp] theorem setIn_inputs (s : State) (p : BitReader × Source) : (s.setIn p).inputs = s.inputs := rfl
@[simp] theorem setIn_replies (s : State) (p : BitReader × Source) : (s.setIn p).replies = s.replies := rfl
@[simp] theorem setIn_draws (s : State) (p : BitReader × Source) : (s.setIn p).draws = s.draws := rfl

/-! ### `drawNodes` -/

@[simp] theorem drawNodes_opr (s : State) : (drawNodes s).opr = s.opr := rfl
@[simp] theorem drawNodes_res (s : State) : (drawNodes s).res = s.res := rfl
@[simp] theorem drawNodes_cseq (s : State) : (drawNodes s).cseq = s.cseq := rfl
@[simp] theorem drawNodes_fault (s : State) : (drawNodes s).fault = s.fault := rfl
@[simp] theorem drawNodes_err (s : State) : (drawNodes s).err = s.err := rfl
@[simp] theorem drawNodes_errinfo (s : State) : (drawNodes s).errinfo = s.errinfo := rfl
@[simp] theorem drawNodes_ft (s : State) : (drawNodes s).ft = s.ft := rfl
@[simp] theorem drawNodes_ntot (s : State) : (drawNodes s).ntot = s.ntot := rfl
@[simp] theorem drawNodes_node (s : State) : (drawNodes s).node = unspecifiedNodes s.draws := rfl
@[simp] theorem drawNodes_nnodes (s : State) : (drawNodes s).nnodes = s.nnodes := rfl
@[simp] theorem drawNodes_treeOk (s : State) : (drawNodes s).treeOk = s.treeOk := rfl
@[simp] theorem drawNodes_ct (s : State) : (drawNodes s).ct = s.ct := rfl
@[simp] theorem drawNodes_ctOk (s : State) : (drawNodes s).ctOk = s.ctOk := rfl
@[simp] theorem drawNodes_bw (s : State) : (drawNodes s).bw = s.bw := rfl
@[simp] theorem drawNodes_br (s : State) : (drawNodes s).br = s.br := rfl
@[simp] theorem drawNodes_src (s : State) : (drawNodes s).src = s.src := rfl
@[simp] theorem drawNodes_snk (s : State) : (drawNodes s).snk = s.snk := rfl
@[simp] theorem drawNodes_inputs (s : State) : (drawNodes s).inputs = s.inputs := rfl
@[simp] theorem drawNodes_replies (s : State) : (drawNodes s).replies = s.replies := rfl
@[simp] theorem drawNodes_draws (s : State) : (drawNodes s).draws = s.draws + 1 := rfl

/-! ### `invalidate` -/

@[simp] theorem invalidate_opr (s : State) : (invalidate s).opr = s.opr := rfl
@[simp] theorem invalidate_res (s : State) : (invalidate s).res = s.res := rfl
@[simp] theorem invalidate_cseq (s : State) : (invalidate s).cseq = s.cseq := rfl
@[simp] theorem invalidate_fault (s : State) : (invalidate s).fault = s.fault := rfl
@[simp] theorem invalidate_err (s : State) : (invalidate s).err = s.err := rfl
@[simp] theorem invalidate_errinfo (s : State) : (invalidate s).errinfo = s.errinfo := rfl
@[simp] theorem invalidate_ft (s : State) : (invalidate s).ft = s.ft := rfl
@[simp] theorem invalidate_ntot (s : State) : (invalidate s).ntot = s.ntot := rfl
@[simp] theorem invalidate_node (s : State) : (invalidate s).node = unspecifiedNodes s.draws := rfl
@[simp] theorem invalidate_nnodes (s : State) : (invalidate s).nnodes = 0#9 := rfl
@[simp] theorem invalidate_treeOk (s : State) : (invalidate s).treeOk = false := rfl
@[simp] theorem invalidate_ct (s : State) : (invalidate s).ct = s.ct := rfl
@[simp] theorem invalidate_ctOk (s : State) : (invalidate s).ctOk = false := rfl
@[simp] theorem invalidate_bw (s : State) : (invalidate s).bw = s.bw := rfl
@[simp] theorem invalidate_br (s : State) : (invalidate s).br = s.br := rfl
@[simp] theorem invalidate_src (s : State) : (invalidate s).src = s.src := rfl
@[simp] theorem invalidate_snk (s : State) : (invalidate s).snk = s.snk := rfl
@[simp] theorem invalidate_inputs (s : State) : (invalidate s).inputs = s.inputs := rfl
@[simp] theorem invalidate_replies (s : State) : (invalidate s).replies = s.replies := rfl
@[simp] theorem invalidate_draws (s : State) : (invalidate s).draws = s.draws + 1 := rfl

/-! ### `clearTable` -/

@[simp] theorem clearTable_opr (s : State) : (clearTable s).opr = s.opr := rfl
@[simp] theorem clearTable_res (s : State) : (clearTable s).res = s.res := rfl
@[simp] theorem clearTable_cseq (s : State) : (clearTable s).cseq = s.cseq := rfl
@[simp] theorem clearTable_fault (s : State) : (clearTable s).fault = s.fault := rfl
@[simp] theorem clearTable_err (s : State) : (clearTable s).err = s.err := rfl
@[simp] theorem clearTable_errinfo (s : State) : (clearTable s).errinfo = s.errinfo := rfl
@[simp] theorem clearTable_ft (s : State) : (clearTable s).ft = Vector.replicate 256 0#64 := rfl
@[simp] theorem clearTable_ntot (s : State) : (clearTable s).ntot = 0#64 := rfl
@[simp] theorem clearTable_node (s : State) : (clearTable s).node = s.node := rfl
@[simp] theorem clearTable_nnodes (s : State) : (clearTable s).nnodes = s.nnodes := rfl
@[simp] theorem clearTable_treeOk (s : State) : (clearTable s).treeOk = s.treeOk := rfl
@[simp] theorem clearTable_ct (s : State) : (clearTable s).ct = s.ct := rfl
@[simp] theorem clearTable_ctOk (s : State) : (clearTable s).ctOk = s.ctOk := rfl
@[simp] theorem clearTable_bw (s : State) : (clearTable s).bw = s.bw := rfl
@[simp] theorem clearTable_br (s : State) : (clearTable s).br = s.br := rfl
@[simp] theorem clearTable_src (s : State) : (clearTable s).src = s.src := rfl
@[simp] theorem clearTable_snk (s : State) : (clearTable s).snk = s.snk := rfl
@[simp] theorem clearTable_inputs (s : State) : (clearTable s).inputs = s.inputs := rfl
@[simp] theorem clearTable_replies (s : State) : (clearTable s).replies = s.replies := rfl
@[simp] theorem clearTable_draws (s : State) : (clearTable s).draws = s.draws := rfl

/-! ### `clearUnits` -/

@[simp] theorem clearUnits_opr (s : State) : (clearUnits s).opr = s.opr := rfl
@[simp] theorem clearUnits_res (s : State) : (clearUnits s).res = s.res := rfl
@[simp] theorem clearUnits_cseq (s : State) : (clearUnits s).cseq = s.cseq := rfl
@[simp] theorem clearUnits_fault (s : State) : (clearUnits s).fault = s.fault := rfl
@[simp] theorem clearUnits_err (s : State) : (clearUnits s).err = s.err := rfl
@[simp] theorem clearUnits_errinfo (s : State) : (clearUnits s).errinfo = s.errinfo := rfl
@[simp] theorem clearUnits_ft (s : State) : (clearUnits s).ft = Vector.replicate 256 0#64 := rfl
@[simp] theorem clearUnits_ntot (s : State) : (clearUnits s).ntot = 0#64 := rfl
@[simp] theorem clearUnits_node (s : State) : (clearUnits s).node = unspecifiedNodes s.draws := rfl
@[simp] theorem clearUnits_nnodes (s : State) : (clearUnits s).nnodes = 0#9 := rfl
@[simp] theorem clearUnits_treeOk (s : State) : (clearUnits s).treeOk = false := rfl
@[simp] theorem clearUnits_ct (s : State) : (clearUnits s).ct = s.ct := rfl
@[simp] theorem clearUnits_ctOk (s : State) : (clearUnits s).ctOk = false := rfl
@[simp] theorem clearUnits_bw (s : State) : (clearUnits s).bw = BitWriter.empty := rfl
@[simp] theorem clearUnits_br (s : State) : (clearUnits s).br = BitReader.empty := rfl
@[simp] theorem clearUnits_src (s : State) : (clearUnits s).src = s.src := rfl
@[simp] theorem clearUnits_snk (s : State) : (clearUnits s).snk = s.snk := rfl
@[simp] theorem clearUnits_inputs (s : State) : (clearUnits s).inputs = s.inputs := rfl
@[simp] theorem clearUnits_replies (s : State) : (clearUnits s).replies = s.replies := rfl
@[simp] theorem clearUnits_draws (s : State) : (clearUnits s).draws = s.draws + 1 := rfl

/-! ### `srcRewind` -/

@[simp] theorem srcRewind_opr (s : State) : (srcRewind s).opr = s.opr := rfl
@[simp] theorem srcRewind_res (s : State) : (srcRewind s).res = s.res := rfl
@[simp] theorem srcRewind_cseq (s : State) : (srcRewind s).cseq = s.cseq := rfl
@[simp] theorem srcRewind_fault (s : State) : (srcRewind s).fault = s.fault := rfl
@[simp] theorem srcRewind_err (s : State) : (srcRewind s).err = s.err := rfl
@[simp] theorem srcRewind_errinfo (s : State) : (srcRewind s).errinfo = s.errinfo := rfl
@[simp] theorem srcRewind_ft (s : State) : (srcRewind s).ft = s.ft := rfl
@[simp] theorem srcRewind_ntot (s : State) : (srcRewind s).ntot = s.ntot := rfl
@[simp] theorem srcRewind_node (s : State) : (srcRewind s).node = s.node := rfl
@[simp] theorem srcRewind_nnodes (s : State) : (srcRewind s).nnodes = s.nnodes := rfl
@[simp] theorem srcRewind_treeOk (s : State) : (srcRewind s).treeOk = s.treeOk := rfl
@[simp] theorem srcRewind_ct (s : State) : (srcRewind s).ct = s.ct := rfl
@[simp] theorem srcRewind_ctOk (s : State) : (srcRewind s).ctOk = s.ctOk := rfl
@[simp] theorem srcRewind_bw (s : State) : (srcRewind s).bw = s.bw := rfl
@[simp] theorem srcRewind_br (s : State) : (srcRewind s).br = s.br := rfl
@[simp] theorem srcRewind_src (s : State) : (srcRewind s).src = s.src.rewind := rfl
@[simp] theorem srcRewind_snk (s : State) : (srcRewind s).snk = s.snk := rfl
@[simp] theorem srcRewind_inputs (s : State) : (srcRewind s).inputs = s.inputs := rfl
@[simp] theorem srcRewind_replies (s : State) : (srcRewind s).replies = s.replies := rfl
@[simp] theorem srcRewind_draws (s : State) : (srcRewind s).draws = s.draws := rfl

/-! ### `reply` -/

@[simp] theorem reply_opr (r : Reply) (s : State) : (reply r s).opr = s.opr := rfl
@[simp] theorem reply_res (r : Reply) (s : State) : (reply r s).res = s.res := rfl
@[simp] theorem reply_cseq (r : Reply) (s : State) : (reply r s).cseq = s.cseq := rfl
@[simp] theorem reply_fault (r : Reply) (s : State) : (reply r s).fault = s.fault := rfl
@[simp] theorem reply_err (r : Reply) (s : State) : (reply r s).err = s.err := rfl
@[simp] theorem reply_errinfo (r : Reply) (s : State) : (reply r s).errinfo = s.errinfo := rfl
@[simp] theorem reply_ft (r : Reply) (s : State) : (reply r s).ft = s.ft := rfl
@[simp] theorem reply_ntot (r : Reply) (s : State) : (reply r s).ntot = s.ntot := rfl
@[simp] theorem reply_node (r : Reply) (s : State) : (reply r s).node = s.node := rfl
@[simp] theorem reply_nnodes (r : Reply) (s : State) : (reply r s).nnodes = s.nnodes := rfl
@[simp] theorem reply_treeOk (r : Reply) (s : State) : (reply r s).treeOk = s.treeOk := rfl
@[simp] theorem reply_ct (r : Reply) (s : State) : (reply r s).ct = s.ct := rfl
@[simp] theorem reply_ctOk (r : Reply) (s : State) : (reply r s).ctOk = s.ctOk := rfl
@[simp] theorem reply_bw (r : Reply) (s : State) : (reply r s).bw = s.bw := rfl
@[simp] theorem reply_br (r : Reply) (s : State) : (reply r s).br = s.br := rfl
@[simp] theorem reply_src (r : Reply) (s : State) : (reply r s).src = s.src := rfl
@[simp] theorem reply_snk (r : Reply) (s : State) : (reply r s).snk = s.snk := rfl
@[simp] theorem reply_inputs (r : Reply) (s : State) : (reply r s).inputs = s.inputs := rfl
@[simp] theorem reply_replies (r : Reply) (s : State) : (reply r s).replies = s.replies ++ [r] := rfl
@[simp] theorem reply_draws (r : Reply) (s : State) : (reply r s).draws = s.draws := rfl

/-! ### Updates after updates -/

@[simp] theorem setOut_setOut (s : State) (p q : BitWriter × Sink) :
    (s.setOut p).setOut q = s.setOut q := rfl
@[simp] theorem setIn_setIn (s : State) (p q : BitReader × Source) :
    (s.setIn p).setIn q = s.setIn q := rfl

/-- A command that wrote through the writer, as one record. -/
theorem retire_setOut (s : State) (p : BitWriter × Sink) :
    retire (s.setOut p) = { s with bw := p.1, snk := p.2, cseq := s.cseq + 1#32 } := rfl

end Sys2Proof.Machine
end

