-- ==== Sys2Proof/Laws/BitChannel.lean ====
section
/-! SUPPORT. What the bit channel's subroutines can do (40_bitchannel.md R120 to R124, R130), in
terms of the bits given and the bits still to come. -/

namespace Sys2Proof.Machine

/-! ### Fields as bits -/

@[simp] theorem fieldBits_length {m : Nat} (v : BitVec m) (n : Nat) :
    (fieldBits v n).length = n := by
  induction n with
  | zero => rfl
  | succ n ih => simp [fieldBits, ih]

theorem fieldBits_getElem? {m : Nat} (v : BitVec m) (n k : Nat) (h : k < n) :
    (fieldBits v n)[k]? = some (v.getLsbD (n - 1 - k)) := by
  induction n generalizing k with
  | zero => omega
  | succ n ih =>
    cases k with
    | zero => simp [fieldBits]
    | succ k =>
      have := ih k (by omega)
      simp only [fieldBits, List.getElem?_cons_succ, this]
      congr 2; omega

@[simp] theorem bitsOf_nil : bitsOf [] = [] := rfl

@[simp] theorem bitsOf_cons (b : Byte) (bs : List Byte) :
    bitsOf (b :: bs) = fieldBits b 8 ++ bitsOf bs := rfl

@[simp] theorem bitsOf_append (as bs : List Byte) : bitsOf (as ++ bs) = bitsOf as ++ bitsOf bs := by
  simp [bitsOf]

@[simp] theorem bitsOf_length (bs : List Byte) : (bitsOf bs).length = 8 * bs.length := by
  induction bs with
  | nil => rfl
  | cons b bs ih => simp [ih]; omega

/-! ### The writer -/

@[simp] theorem writeAll_nil (p : BitWriter × Sink) : writeAll [] p = p := rfl

@[simp] theorem writeAll_cons (b : Bool) (bs : List Bool) (p : BitWriter × Sink) :
    writeAll (b :: bs) p = writeAll bs (writeBit b p) := rfl

theorem writeAll_append (as bs : List Bool) (p : BitWriter × Sink) :
    writeAll (as ++ bs) p = writeAll bs (writeAll as p) := by
  simp [writeAll]

/-- `bw_write_bits(value, n)` (R121) is the field's bits, one after another. -/
theorem writeBits_eq_writeAll {m : Nat} (v : BitVec m) (n : Nat) (p : BitWriter × Sink) :
    writeBits v n p = writeAll (fieldBits v n) p := by
  induction n generalizing p with
  | zero => rfl
  | succ n ih => simp [writeBits, fieldBits, ih]

/-- A failed writer ignores every bit (R120). -/
theorem writeBit_failed (b : Bool) (p : BitWriter × Sink) (h : p.1.fail = true) :
    writeBit b p = p := by
  simp [writeBit, h]

theorem writeAll_failed (bs : List Bool) (p : BitWriter × Sink) (h : p.1.fail = true) :
    writeAll bs p = p := by
  induction bs with
  | nil => rfl
  | cons b bs ih => simp [writeBit_failed b p h, ih]

/-- A put into a good sink appends the byte and leaves the sink good (20_memory.md R65, R66). -/
theorem put_good (k : Sink) (b : Byte) (h : k.Good) :
    (k.put b).1 = true ∧ (k.put b).2.bytes = k.bytes ++ [b] ∧ (k.put b).2.Good := by
  obtain ⟨hl, ha⟩ := h
  cases hk : k.answers with
  | nil => simp [Sink.put, hk, hl, Sink.Good]
  | cons a as =>
    have : a = true := ha a (by simp [hk])
    subst this
    refine ⟨by simp [Sink.put, hk], by simp [Sink.put, hk], ?_, ?_⟩
    · simpa [Sink.put] using hl
    · intro x hx
      exact ha x (by simp [Sink.put, hk] at hx; simp [hk, hx])

theorem cnt_cases (c : BitVec 3) :
    c = 0#3 ∨ c = 1#3 ∨ c = 2#3 ∨ c = 3#3 ∨ c = 4#3 ∨ c = 5#3 ∨ c = 6#3 ∨ c = 7#3 := by
  revert c; decide

/-- One bit into a good writer over a good sink (R120): it is the last of the bits given. -/
theorem writeBit_good (b : Bool) (p : BitWriter × Sink) (hw : p.1.Wf) (hf : p.1.fail = false)
    (hk : p.2.Good) :
    outBits (writeBit b p) = outBits p ++ [b] ∧ (writeBit b p).1.Wf ∧
      (writeBit b p).1.fail = false ∧ (writeBit b p).2.Good ∧
      (writeBit b p).1.cnt = p.1.cnt + 1#3 := by
  obtain ⟨⟨acc, cnt, fail⟩, k⟩ := p
  simp only at hf hk
  subst hf
  obtain ⟨hz, -⟩ := hw
  have hlow : ∀ j, ∀ h : j < 8, j < 8 - cnt.toNat → acc[j] = false := fun j h hj => by
    simpa [BitVec.getLsbD_eq_getElem h] using hz j hj
  have e0 := hlow 0 (by decide)
  have e1 := hlow 1 (by decide)
  have e2 := hlow 2 (by decide)
  have e3 := hlow 3 (by decide)
  have e4 := hlow 4 (by decide)
  have e5 := hlow 5 (by decide)
  have e6 := hlow 6 (by decide)
  have e7 := hlow 7 (by decide)
  clear hz hlow
  obtain ⟨hp, hb, hg⟩ := put_good k (acc ||| ((BitVec.ofBool b).setWidth 8 <<< (7 - cnt.toNat))) hk
  rcases cnt_cases cnt with rfl | rfl | rfl | rfl | rfl | rfl | rfl | rfl
  case inr.inr.inr.inr.inr.inr.inr =>
    simp at hp hb hg e0
    simp [writeBit, putAcc, hp, hb, hg, outBits, pendingBits, fieldBits, BitWriter.Wf, e0]
  all_goals
    clear hp hb hg
    refine ⟨?_, ⟨fun i hi => ?_, ?_⟩, ?_, ?_, ?_⟩
    · simp at e0 e1 e2 e3 e4 e5 e6 e7
      simp [writeBit, outBits, pendingBits, fieldBits, *]
    · have hi' : i < 8 := by simp [writeBit] at hi; omega
      simp [writeBit] at hi
      simp at e0 e1 e2 e3 e4 e5 e6 e7
      interval_cases i <;> first | omega | simp [writeBit, *]
    all_goals simp [writeBit, hk]

/-- Any bits into a good writer over a good sink (R130): they stand after the bits given before. -/
theorem writeAll_good (bs : List Bool) (p : BitWriter × Sink) (hw : p.1.Wf)
    (hf : p.1.fail = false) (hk : p.2.Good) :
    outBits (writeAll bs p) = outBits p ++ bs ∧ (writeAll bs p).1.Wf ∧
      (writeAll bs p).1.fail = false ∧ (writeAll bs p).2.Good ∧
      (writeAll bs p).1.cnt = p.1.cnt + BitVec.ofNat 3 bs.length := by
  induction bs generalizing p with
  | nil => simp [hw, hf, hk]
  | cons b bs ih =>
    obtain ⟨h1, h2, h3, h4, h5⟩ := writeBit_good b p hw hf hk
    obtain ⟨g1, g2, g3, g4, g5⟩ := ih (writeBit b p) h2 h3 h4
    refine ⟨by simp [g1, h1], g2, g3, g4, ?_⟩
    simp only [writeAll_cons, g5, h5, List.length_cons]
    rw [BitVec.add_assoc, BitVec.ofNat_add, BitVec.add_comm 1#3]

/-- Whole bytes into an empty writer over a good sink: as many bytes are put, and nothing waits. -/
theorem writeAll_whole (bs : List Bool) (n : Nat) (w : BitWriter) (k : Sink) (hk : k.Good)
    (he : w = BitWriter.empty) (hl : bs.length = 8 * n) :
    (writeAll bs (w, k)).2.bytes.length = k.bytes.length + n ∧ (writeAll bs (w, k)).1.cnt = 0#3 := by
  have hw : w.Wf := by simp [he, BitWriter.Wf, BitWriter.empty]
  obtain ⟨h1, -, -, -, h5⟩ := writeAll_good bs (w, k) hw (by simp [he, BitWriter.empty]) hk
  have h0 : w.cnt = 0#3 := by rw [he]; rfl
  have hc : (writeAll bs (w, k)).1.cnt = 0#3 := by
    rw [h5, h0, hl]; apply BitVec.eq_of_toNat_eq; simp
  have hp : ∀ v : BitWriter, v.cnt = 0#3 → pendingBits v = [] := fun v hv => by
    simp [pendingBits, hv]
  have hlen := congrArg List.length h1
  simp only [outBits, hp _ hc, hp _ h0, List.length_append, bitsOf_length, List.length_nil, hl] at hlen
  exact ⟨by omega, hc⟩

/-- `SnkPut` on any sink (20_memory.md R65): the byte is appended or lost. -/
theorem put_cases (k : Sink) (b : Byte) :
    ((k.put b).1 = true ∧ (k.put b).2.bytes = k.bytes ++ [b]) ∨
      ((k.put b).1 = false ∧ (k.put b).2.bytes = k.bytes) := by
  cases h : k.answers.headD k.later <;> simp only [Sink.put, h] <;> simp

/-- The closing flush of a writer that has not failed (R122): nothing for an empty buffer, else one
put that empties it. -/
theorem flushBits_cases (p : BitWriter × Sink) (hf : p.1.fail = false) :
    (p.1.cnt = 0#3 ∧ flushBits p = p) ∨
      (p.1.cnt ≠ 0#3 ∧ flushBits p = putAcc p) := by
  by_cases h : p.1.cnt = 0#3 <;> simp [flushBits, hf, h]

theorem fieldBits_zero_low (acc : Byte) (c : Nat) (hc : c ≤ 8)
    (h : ∀ i, i < 8 - c → acc.getLsbD i = false) :
    fieldBits acc 8 = (fieldBits acc 8).take c ++ List.replicate (8 - c) false := by
  apply List.ext_getElem? ; intro k
  by_cases hk : k < 8
  · rw [fieldBits_getElem? acc 8 k hk]
    by_cases hkc : k < c
    · rw [List.getElem?_append_left (by simp; omega), List.getElem?_take_of_lt hkc,
        fieldBits_getElem? acc 8 k hk]
    · rw [List.getElem?_append_right (by simp; omega), List.getElem?_replicate]
      have e : (List.take c (fieldBits acc 8)).length = c := by simp; omega
      rw [e, if_pos (by omega), h _ (by omega)]
  · rw [List.getElem?_eq_none (by simp; omega), List.getElem?_eq_none (by simp; omega)]

/-- The closing flush over a good sink (R122, R130): the bits given, then zeros up to the next byte
boundary, and an empty writer. -/
theorem flushBits_good (p : BitWriter × Sink) (hw : p.1.Wf) (hf : p.1.fail = false)
    (hk : p.2.Good) :
    bitsOf (flushBits p).2.bytes
        = outBits p ++ List.replicate ((8 - p.1.cnt.toNat) % 8) false ∧
      (flushBits p).1 = BitWriter.empty ∧ (flushBits p).2.Good := by
  obtain ⟨⟨acc, cnt, fail⟩, k⟩ := p
  simp only at hf hk
  subst hf
  obtain ⟨hz, -⟩ := hw
  have hc : cnt.toNat < 8 := cnt.isLt
  obtain ⟨hp, hb, hg⟩ := put_good k acc hk
  by_cases h : cnt = 0#3
  · subst h
    have ha : acc = 0#8 := by
      apply BitVec.eq_of_getLsbD_eq
      intro i hi
      simpa using hz i (by simpa using hi)
    subst ha
    simp [flushBits, outBits, pendingBits, BitWriter.empty, hk]
  · have hn : cnt.toNat ≠ 0 := fun e => h (BitVec.eq_of_toNat_eq (by simpa using e))
    have e : (8 - cnt.toNat) % 8 = 8 - cnt.toNat := by omega
    have hfl : flushBits ({ acc := acc, cnt := cnt, fail := false }, k)
        = putAcc ({ acc := acc, cnt := cnt, fail := false }, k) := by simp [flushBits, h]
    rw [hfl]
    refine ⟨?_, ?_, ?_⟩
    · simp only [putAcc, hb, bitsOf_append, outBits, pendingBits, List.append_assoc, e]
      rw [← fieldBits_zero_low acc cnt.toNat (by omega) hz]
      simp
    · simp [putAcc, hp, BitWriter.empty]
    · exact hg

/-! ### The reader -/

theorem inBits_length (p : BitReader × Source) : (inBits p).length = bitsLeft p := by
  simp [inBits, bitsLeft, Source.remaining]

/-- A reader with no bit left (R123): the end mark is set and nothing else changes. -/
theorem readBit_nil (p : BitReader × Source) (h : inBits p = []) :
    readBit p = (none, ({ p.1 with eof := true }, p.2)) := by
  obtain ⟨⟨byte, cnt, eof⟩, ⟨bytes, pos⟩⟩ := p
  have hl := congrArg List.length h
  simp [inBits] at hl
  have hc : cnt = 0#4 := BitVec.eq_of_toNat_eq (by simpa using hl.1)
  have hs : bytes[pos]? = none := List.getElem?_eq_none (by omega)
  simp [readBit, hc, Source.next, hs]

/-- A reader with bits left (R123): it delivers the first of them and keeps the rest. -/
theorem readBit_cons (p : BitReader × Source) (b : Bool) (bs : List Bool)
    (h : inBits p = b :: bs) :
    ∃ p', readBit p = (some b, p') ∧ inBits p' = bs ∧ p'.1.eof = p.1.eof ∧
      p'.2.bytes = p.2.bytes := by
  obtain ⟨⟨byte, cnt, eof⟩, ⟨bytes, pos⟩⟩ := p
  by_cases hc : cnt = 0#4
  · subst hc
    cases hs : bytes[pos]? with
    | none =>
      have : bytes.length ≤ pos := by simpa using hs
      simp [inBits, fieldBits, List.drop_eq_nil_of_le this] at h
    | some x =>
      have hd : bytes.drop pos = x :: bytes.drop (pos + 1) := by
        obtain ⟨hlt, hx⟩ := List.getElem?_eq_some_iff.mp hs
        rw [List.drop_eq_getElem_cons hlt, hx]
      simp [inBits, fieldBits, hd] at h
      refine ⟨({ byte := x, cnt := 7#4, eof := eof }, { bytes := bytes, pos := pos + 1 }), ?_, ?_, rfl, rfl⟩
      · simp [readBit, Source.next, hs, deliverBit, h.1]
      · simp [inBits, fieldBits, ← h.2]
  · have hn : cnt.toNat ≠ 0 := fun e => hc (BitVec.eq_of_toNat_eq (by simpa using e))
    obtain ⟨c, hcn⟩ := Nat.exists_eq_succ_of_ne_zero hn
    have hlt := cnt.isLt
    have h1 : (cnt - 1#4).toNat = c := by
      rw [BitVec.toNat_sub]; simp; omega
    simp only [inBits, hcn, fieldBits, List.cons_append, List.cons.injEq] at h
    refine ⟨({ byte := byte, cnt := cnt - 1#4, eof := eof }, { bytes := bytes, pos := pos }), ?_, ?_, rfl, rfl⟩
    · simp only [readBit, hc, if_false, deliverBit, hcn]
      simp [h.1]
    · simp only [inBits, h1, h.2]

/-! ### Fields read -/

@[simp] theorem natOf_nil : natOf [] = 0 := rfl

theorem natOf_append (as bs : List Bool) :
    natOf (as ++ bs) = bs.foldl (fun v b => 2 * v + b.toNat) (natOf as) := by
  simp [natOf]

theorem natOf_concat (as : List Bool) (b : Bool) : natOf (as ++ [b]) = 2 * natOf as + b.toNat := by
  simp [natOf_append]

theorem natOf_lt (bs : List Bool) : natOf bs < 2 ^ bs.length := by
  induction bs using List.reverseRecOn with
  | nil => simp
  | append_singleton bs b ih =>
    rw [natOf_concat]; simp only [List.length_append, List.length_singleton, Nat.pow_succ]
    cases b <;> simp <;> omega

/-- Sending a field and reading its bits back gives the value modulo `2^n` (R68, R130). -/
theorem natOf_fieldBits {m : Nat} (v : BitVec m) (n : Nat) :
    natOf (fieldBits v n) = v.toNat % 2 ^ n := by
  have key : ∀ n a, (fieldBits v n).foldl (fun v b => 2 * v + b.toNat) a
      = a * 2 ^ n + v.toNat % 2 ^ n := by
    intro n
    induction n with
    | zero => intro a; simp [fieldBits, Nat.mod_one]
    | succ n ih =>
      intro a
      simp only [fieldBits, List.foldl_cons, ih]
      have hb : (v.getLsbD n).toNat = v.toNat / 2 ^ n % 2 := by
        rw [BitVec.getLsbD, Nat.testBit_eq_decide_div_mod_eq]
        rcases Nat.mod_two_eq_zero_or_one (v.toNat / 2 ^ n) with h | h <;> simp [h]
      have := Nat.mod_pow_succ (b := 2) (k := n) (x := v.toNat)
      rw [hb, this, Nat.pow_succ]; ring
  simpa [natOf] using key n 0

theorem half_concat (x : Nat) (b : Bool) : (2 * x + b.toNat) / 2 = x := by
  cases b
  · simp
  · simp only [Bool.toNat_true]; omega

/-- One bit shifted into a value register (R124, 00_scope.md R11 (e)). -/
theorem shiftIn (m x : Nat) (b : Bool) :
    ((BitVec.ofNat m x <<< 1) ||| (BitVec.ofBool b).setWidth m) = BitVec.ofNat m (2 * x + b.toNat) := by
  apply BitVec.eq_of_getLsbD_eq
  intro i hi
  simp only [BitVec.getLsbD_or, BitVec.getLsbD_shiftLeft, BitVec.getLsbD_setWidth,
    BitVec.getLsbD_ofNat, hi, decide_true, Bool.true_and]
  cases i with
  | zero => cases b <;> simp [Nat.testBit_zero]
  | succ i =>
    have h1 : i < m := by omega
    simp [Nat.testBit_succ, h1, half_concat x b]

theorem shiftIn_eq (x : Nat) (b : Bool) :
    ((BitVec.ofNat 64 x <<< 1) ||| (BitVec.ofBool b).setWidth 64) = BitVec.ofNat 64 (2 * x + b.toNat) :=
  shiftIn 64 x b

/-- `br_read_bits` (R124) where the bits are there: they are read, first bit most significant. -/
theorem readBitsLoop_full (n k x : Nat) (p : BitReader × Source) (h : n ≤ (inBits p).length) :
    ∃ p', readBitsLoop n k (BitVec.ofNat 64 x) p
        = (k + n, BitVec.ofNat 64 (((inBits p).take n).foldl (fun v b => 2 * v + b.toNat) x), p') ∧
      inBits p' = (inBits p).drop n ∧ p'.1.eof = p.1.eof ∧ p'.2.bytes = p.2.bytes := by
  induction n generalizing k x p with
  | zero => exact ⟨p, by simp [readBitsLoop]⟩
  | succ n ih =>
    cases hb : inBits p with
    | nil => simp [hb] at h
    | cons b bs =>
      obtain ⟨q, hq, hin, he, hs⟩ := readBit_cons p b bs hb
      obtain ⟨p', h1, h2, h3, h4⟩ := ih (k + 1) (2 * x + b.toNat) q (by simp [hb] at h; simpa [hin] using h)
      refine ⟨p', ?_, by simp [h2, hin], h3.trans he, h4.trans hs⟩
      simp only [readBitsLoop, hq, shiftIn_eq, h1, hin, List.take_succ_cons, List.foldl_cons]
      congr 1; omega

/-- `br_read_bits` (R124) where the source ends mid-field: the bits there were, and the end mark. -/
theorem readBitsLoop_short (n k x : Nat) (p : BitReader × Source) (h : (inBits p).length < n) :
    ∃ p', readBitsLoop n k (BitVec.ofNat 64 x) p
        = (k + (inBits p).length,
            BitVec.ofNat 64 ((inBits p).foldl (fun v b => 2 * v + b.toNat) x), p') ∧
      inBits p' = [] ∧ p'.1.eof = true ∧ p'.2.bytes = p.2.bytes := by
  induction n generalizing k x p with
  | zero => omega
  | succ n ih =>
    cases hb : inBits p with
    | nil =>
      refine ⟨({ p.1 with eof := true }, p.2), ?_, ?_, rfl, rfl⟩
      · simp [readBitsLoop, readBit_nil p hb]
      · simpa [inBits] using hb
    | cons b bs =>
      obtain ⟨q, hq, hin, he, hs⟩ := readBit_cons p b bs hb
      obtain ⟨p', h1, h2, h3, h4⟩ := ih (k + 1) (2 * x + b.toNat) q (by simp [hb] at h; simpa [hin] using h)
      refine ⟨p', ?_, h2, h3, h4.trans hs⟩
      simp only [readBitsLoop, hq, shiftIn_eq, h1, hin, List.length_cons, List.foldl_cons]
      congr 1; omega

/-- `br_read_bits(n)` (R124) where the bits are there. -/
theorem readBits_full (n : Nat) (p : BitReader × Source) (h : n ≤ (inBits p).length) :
    ∃ p', readBits n p = (n, BitVec.ofNat 64 (natOf ((inBits p).take n)), p') ∧
      inBits p' = (inBits p).drop n ∧ p'.1.eof = p.1.eof ∧ p'.2.bytes = p.2.bytes := by
  obtain ⟨p', h1, h2⟩ := readBitsLoop_full n 0 0 p h
  exact ⟨p', by simpa [readBits, natOf] using h1, h2⟩

/-- `br_read_bits(n)` (R124) where the source ends mid-field. -/
theorem readBits_short (n : Nat) (p : BitReader × Source) (h : (inBits p).length < n) :
    ∃ p', readBits n p = ((inBits p).length, BitVec.ofNat 64 (natOf (inBits p)), p') ∧
      inBits p' = [] ∧ p'.1.eof = true ∧ p'.2.bytes = p.2.bytes := by
  obtain ⟨p', h1, h2⟩ := readBitsLoop_short n 0 0 p h
  exact ⟨p', by simpa [readBits, natOf] using h1, h2⟩

end Sys2Proof.Machine
end

