-- ==== Sys2Proof/Laws/Tables.lean ====
section
/-! SUPPORT. The symbol space, node space and frequency table (10_state.md R38, 41_freqtable.md): read
after write, and what one count and a whole scan do. -/

namespace Sys2Proof.Machine

/-! ### Symbol space -/

theorem symGet_symSet {α : Type} (t : SymTable α) (v x : Byte) (a : α) :
    symGet (symSet t v a) x = if v = x then a else symGet t x := by
  simp only [symGet, symSet, Vector.getElem_set]
  by_cases h : v = x
  · simp [h]
  · rw [if_neg h, if_neg fun e => h (BitVec.eq_of_toNat_eq e)]

@[simp] theorem symGet_symSet_self {α : Type} (t : SymTable α) (v : Byte) (a : α) :
    symGet (symSet t v a) v = a := by simp [symGet_symSet]

theorem symGet_symSet_other {α : Type} (t : SymTable α) (v x : Byte) (a : α) (h : v ≠ x) :
    symGet (symSet t v a) x = symGet t x := by simp [symGet_symSet, h]

@[simp] theorem symGet_replicate {α : Type} (a : α) (v : Byte) :
    symGet (Vector.replicate 256 a) v = a := by simp [symGet]

/-- Two symbol tables with the same entries are the same table. -/
theorem symTable_ext {α : Type} (t u : SymTable α) (h : ∀ v, symGet t v = symGet u v) : t = u := by
  apply Vector.ext
  intro i hi
  have := h (BitVec.ofNat 8 i)
  simpa [symGet, Nat.mod_eq_of_lt hi] using this

theorem mem_allSyms (v : Byte) : v ∈ allSyms :=
  List.mem_map.mpr ⟨v.toNat, List.mem_range.mpr v.isLt, by simp⟩

@[simp] theorem allSyms_length : allSyms.length = 256 := by simp [allSyms]

/-- `allSyms` is ascending (41_freqtable.md R140, 42_treebuilder.md R151). -/
theorem allSyms_sorted : allSyms.Pairwise fun a b => a.toNat < b.toNat := by
  rw [allSyms, List.pairwise_map]
  refine List.Pairwise.imp_of_mem ?_ List.pairwise_lt_range
  intro a b ha hb h
  simp only [List.mem_range] at ha hb
  simpa [Nat.mod_eq_of_lt ha, Nat.mod_eq_of_lt hb] using h

theorem allSyms_nodup : allSyms.Nodup :=
  allSyms_sorted.imp fun h e => by simp [e] at h

@[simp] theorem symGet_countsOf (bs : List Byte) (v : Byte) :
    symGet (countsOf bs) v = BitVec.ofNat 64 (bs.count v) := by
  simp [symGet, countsOf]

/-! ### Node space -/

theorem nodeAt_nodeSet (m : NodeMem) (i j : Nat) (n : Node) (h : i < 511) :
    nodeAt (nodeSet m i n) j = if i = j then n else nodeAt m j := by
  simp only [nodeAt, nodeSet, Vector.getElem?_setIfInBounds]
  by_cases e : i = j
  · simp [h, ← e]
  · simp [e]

@[simp] theorem nodeAt_nodeSet_self (m : NodeMem) (i : Nat) (n : Node) (h : i < 511) :
    nodeAt (nodeSet m i n) i = n := by simp [nodeAt_nodeSet, h]

theorem nodeAt_nodeSet_other (m : NodeMem) (i j : Nat) (n : Node) (h : i < 511) (e : i ≠ j) :
    nodeAt (nodeSet m i n) j = nodeAt m j := by simp [nodeAt_nodeSet, h, e]

/-! ### The source -/

theorem source_next_cons (p : Source) (b : Byte) (bs : List Byte) (h : p.rest = b :: bs) :
    p.next = (some b, { p with pos := p.pos + 1 }) ∧
      ({ p with pos := p.pos + 1 } : Source).rest = bs := by
  have hlt : p.pos < p.bytes.length := by
    by_contra hc
    simp [Source.rest, List.drop_eq_nil_of_le (by omega : p.bytes.length ≤ p.pos)] at h
  rw [Source.rest, List.drop_eq_getElem_cons hlt] at h
  simp only [List.cons.injEq] at h
  refine ⟨?_, h.2⟩
  simp [Source.next, List.getElem?_eq_getElem hlt, h.1]

theorem source_next_nil (p : Source) (h : p.rest = []) : p.next = (none, p) := by
  have : p.bytes.length ≤ p.pos := by simpa [Source.rest] using h
  simp [Source.next, List.getElem?_eq_none this]

theorem remaining_eq (p : Source) : p.remaining = p.rest.length := by
  simp [Source.remaining, Source.rest]

/-- `SrcNext` keeps the source's bytes, and its cursor within them (20_memory.md R60, R62). -/
theorem source_next_frame (p : Source) :
    p.next.2.bytes = p.bytes ∧ (p.Wf → p.next.2.Wf) := by
  simp only [Source.next]
  cases h : p.bytes[p.pos]? with
  | none => exact ⟨rfl, id⟩
  | some b =>
    obtain ⟨hlt, -⟩ := List.getElem?_eq_some_iff.mp h
    exact ⟨rfl, fun _ => hlt⟩

/-! ### Counting -/

theorem eq_allOnes_iff (x : Word) : x = BitVec.allOnes 64 ↔ x.toNat = 2 ^ 64 - 1 := by
  constructor
  · rintro rfl; simp
  · intro h; apply BitVec.eq_of_toNat_eq; simpa using h

/-- One count (R141) where neither counter is full. -/
theorem ftInc_ok (v : Byte) (s : State) (h1 : (symGet s.ft v).toNat < 2 ^ 64 - 1)
    (h2 : s.ntot.toNat < 2 ^ 64 - 1) :
    ftInc v s
      = .ok { s with ft := symSet s.ft v (symGet s.ft v + 1#64), ntot := s.ntot + 1#64 } := by
  have n1 : ¬ symGet s.ft v = BitVec.allOnes 64 := by rw [eq_allOnes_iff]; omega
  have n2 : ¬ s.ntot = BitVec.allOnes 64 := by rw [eq_allOnes_iff]; omega
  rw [ftInc, if_neg (not_or.mpr ⟨n1, n2⟩)]

/-- One count (R141) where a counter is full: nothing has been incremented. -/
theorem ftInc_full (v : Byte) (s : State)
    (h : (symGet s.ft v).toNat = 2 ^ 64 - 1 ∨ s.ntot.toNat = 2 ^ 64 - 1) :
    ftInc v s = .raised .countOverflow (zextByte v) s := by
  rw [← eq_allOnes_iff, ← eq_allOnes_iff] at h
  rw [ftInc, if_pos h]

theorem toNat_add_one (x : Word) (h : x.toNat < 2 ^ 64 - 1) : (x + 1#64).toNat = x.toNat + 1 := by
  rw [BitVec.toNat_add]; simp; omega

/-- The bytes `before` counted one after another, no counter full on the way (R144). -/
theorem scanLoop_counts (before after : List Byte) (n : Nat) (s : State)
    (hr : s.src.rest = before ++ after) (hn : before.length ≤ n)
    (hc : ∀ v, (symGet s.ft v).toNat + before.count v < 2 ^ 64)
    (ht : s.ntot.toNat + before.length < 2 ^ 64) :
    ∃ t : State, scanLoop n s = scanLoop (n - before.length) t ∧
      t = { s with ft := t.ft, ntot := s.ntot + BitVec.ofNat 64 before.length
                   src := { s.src with pos := s.src.pos + before.length } } ∧
      t.src.rest = after ∧
      ∀ v, (symGet t.ft v).toNat = (symGet s.ft v).toNat + before.count v := by
  induction before generalizing n s with
  | nil => exact ⟨s, by simp, by simp, by simpa using hr, by simp⟩
  | cons b bs ih =>
    cases n with
    | zero => simp at hn
    | succ n =>
      obtain ⟨h1, h2⟩ := source_next_cons s.src b (bs ++ after) hr
      have hb := hc b
      simp only [List.count_cons_self, List.length_cons] at hb ht hn
      have hft : (symGet s.ft b).toNat < 2 ^ 64 - 1 := by omega
      have hnt : s.ntot.toNat < 2 ^ 64 - 1 := by omega
      have key := ftInc_ok b { s with src := { s.src with pos := s.src.pos + 1 } } hft hnt
      obtain ⟨t, e1, e2, e3, e4⟩ := ih n
        { s with ft := symSet s.ft b (symGet s.ft b + 1#64), ntot := s.ntot + 1#64
                 src := { s.src with pos := s.src.pos + 1 } } h2 (by omega)
        (fun v => by
          have := hc v
          simp only [symGet_symSet]
          by_cases e : b = v
          · subst e; simp only [if_true, toNat_add_one _ hft]
            simp only [List.count_cons_self] at this; omega
          · simp only [if_neg e]
            rw [List.count_cons_of_ne e] at this; exact this)
        (by rw [toNat_add_one _ hnt]; omega)
      refine ⟨t, ?_, ?_, e3, ?_⟩
      · simp only [scanLoop, h1, key, Result.bind, e1, List.length_cons]
        congr 1; omega
      · rw [e2]
        have : s.ntot + 1#64 + BitVec.ofNat 64 bs.length
            = s.ntot + BitVec.ofNat 64 (bs.length + 1) := by
          rw [BitVec.add_assoc, BitVec.ofNat_add, BitVec.add_comm 1#64]
        simp [this, Nat.add_assoc, Nat.add_comm 1]
      · intro v
        rw [e4 v]; simp only [symGet_symSet]
        by_cases e : b = v
        · subst e; simp only [if_true, toNat_add_one _ hft, List.count_cons_self]; omega
        · simp only [if_neg e]
          rw [List.count_cons_of_ne e]

/-- A whole scan with no counter full on the way (R144). -/
theorem scanBody_counts (s : State)
    (hc : ∀ v, (symGet s.ft v).toNat + s.src.rest.count v < 2 ^ 64)
    (ht : s.ntot.toNat + s.src.rest.length < 2 ^ 64) :
    ∃ ft : SymTable Word,
      scanBody s = .ok { s with ft := ft, ntot := s.ntot + BitVec.ofNat 64 s.src.rest.length
                                src := { s.src with pos := s.src.pos + s.src.rest.length } } ∧
      ∀ v, (symGet ft v).toNat = (symGet s.ft v).toNat + s.src.rest.count v := by
  obtain ⟨t, e1, e2, -, e4⟩ := scanLoop_counts s.src.rest [] s.src.rest.length s (by simp)
    (le_refl _) hc ht
  refine ⟨t.ft, ?_, e4⟩
  rw [scanBody, remaining_eq, e1, Nat.sub_self, scanLoop, ← e2]

/-- A scan that meets a full counter (R144, R238). -/
theorem scanBody_overflows (s : State) (before after : List Byte) (v : Byte)
    (hr : s.src.rest = before ++ v :: after)
    (hc : ∀ x, (symGet s.ft x).toNat + before.count x < 2 ^ 64)
    (ht : s.ntot.toNat + before.length < 2 ^ 64)
    (hf : (symGet s.ft v).toNat + before.count v = 2 ^ 64 - 1 ∨
      s.ntot.toNat + before.length = 2 ^ 64 - 1) :
    ∃ ft : SymTable Word,
      scanBody s = .raised .countOverflow (zextByte v)
        { s with ft := ft, ntot := s.ntot + BitVec.ofNat 64 before.length
                 src := { s.src with pos := s.src.pos + before.length + 1 } } ∧
      ∀ x, (symGet ft x).toNat = (symGet s.ft x).toNat + before.count x := by
  obtain ⟨t, e1, e2, e3, e4⟩ := scanLoop_counts before (v :: after) s.src.rest.length s hr
    (by simp [hr]) hc ht
  refine ⟨t.ft, ?_, e4⟩
  obtain ⟨h1, -⟩ := source_next_cons t.src v after e3
  have hn : s.src.rest.length - before.length = after.length + 1 := by simp [hr]
  have hfull := ftInc_full v { t with src := { t.src with pos := t.src.pos + 1 } } (by
    simp only [e4 v]
    rcases hf with h | h
    · exact .inl h
    · right; rw [e2]; simp only
      rw [BitVec.toNat_add, BitVec.toNat_ofNat]; omega)
  rw [scanBody, remaining_eq, e1, hn, scanLoop]
  simp only [h1, hfull, Result.bind]
  congr 1
  rw [e2]

end Sys2Proof.Machine
end

