-- ==== Sys2Proof/Laws/CodeTable.lean ====
section
/-! SUPPORT. Paths of the tree (43_codetable.md R170), the walk of CTGEN (R172) and the descent of the
decoder (44_decode_fsm.md R185, R186), each in terms of the paths. -/

namespace Sys2Proof.Machine

/-! ### Bits of a field -/

theorem testBit_natOf (bs : List Bool) (k : Nat) (h : k < bs.length) :
    (natOf bs).testBit k = bs[bs.length - 1 - k] := by
  induction bs using List.reverseRecOn generalizing k with
  | nil => simp at h
  | append_singleton bs b ih =>
    rw [natOf_concat]
    cases k with
    | zero =>
      rw [Nat.testBit_zero]
      cases b <;> simp
    | succ k =>
      have h2 := half_concat (natOf bs) b
      simp only [List.length_append, List.length_singleton] at h
      rw [Nat.testBit_succ, h2, ih k (by omega), List.getElem_append_left (by simp; omega)]
      congr 1; simp; omega

/-- The field that holds these bits sends these bits (R171). -/
theorem fieldBits_natOf (m : Nat) (bs : List Bool) (h : bs.length ≤ m) :
    fieldBits (BitVec.ofNat m (natOf bs)) bs.length = bs := by
  apply List.ext_getElem?
  intro k
  by_cases hk : k < bs.length
  · rw [fieldBits_getElem? _ _ _ hk, List.getElem?_eq_getElem hk]
    congr 1
    rw [BitVec.getLsbD_ofNat, testBit_natOf bs _ (by omega)]
    have : decide (bs.length - 1 - k < m) = true := by simp; omega
    rw [this, Bool.true_and]
    congr 1; omega
  · rw [List.getElem?_eq_none (by simp; omega), List.getElem?_eq_none (by omega)]

/-! ### Paths -/

@[simp] theorem followPath_nil (m : NodeMem) (i : NodeIdx) : followPath m i [] = some i := rfl

theorem followPath_cons (m : NodeMem) (i : NodeIdx) (b : Bool) (bs : List Bool)
    (h : (nodeAt m i.toNat).leaf = false) :
    followPath m i (b :: bs)
      = followPath m (if b then (nodeAt m i.toNat).right else (nodeAt m i.toNat).left) bs := by
  simp [followPath, h]

theorem followPath_leaf (m : NodeMem) (i : NodeIdx) (bs : List Bool)
    (h : (nodeAt m i.toNat).leaf = true) (hb : bs ≠ []) : followPath m i bs = none := by
  cases bs with
  | nil => exact absurd rfl hb
  | cons b bs => simp [followPath, h]

theorem followPath_append (m : NodeMem) (i : NodeIdx) (as bs : List Bool) :
    followPath m i (as ++ bs) = (followPath m i as).bind fun j => followPath m j bs := by
  induction as generalizing i with
  | nil => rfl
  | cons a as ih =>
    simp only [List.cons_append, followPath]
    split
    · rfl
    · exact ih _

/-- A leaf has one path, the empty one. -/
theorem leafAt_leaf (m : NodeMem) (i : NodeIdx) (h : (nodeAt m i.toNat).leaf = true)
    (bits : List Bool) (v : Byte) :
    LeafAt m i bits v ↔ bits = [] ∧ (nodeAt m i.toNat).sym = v := by
  constructor
  · rintro ⟨j, h1, h2, h3⟩
    by_cases hb : bits = []
    · subst hb; simp at h1; subst h1; exact ⟨rfl, h3⟩
    · rw [followPath_leaf m i bits h hb] at h1; cases h1
  · rintro ⟨rfl, h2⟩; exact ⟨i, rfl, h, h2⟩

/-- An internal node's paths begin with 0 to the left or 1 to the right. -/
theorem leafAt_internal (m : NodeMem) (i : NodeIdx) (h : (nodeAt m i.toNat).leaf = false)
    (bits : List Bool) (v : Byte) :
    LeafAt m i bits v ↔
      (∃ bs, bits = false :: bs ∧ LeafAt m (nodeAt m i.toNat).left bs v) ∨
        ∃ bs, bits = true :: bs ∧ LeafAt m (nodeAt m i.toNat).right bs v := by
  cases bits with
  | nil => simp [LeafAt, h]
  | cons b bs => cases b <;> simp [LeafAt, followPath_cons, h]

/-! ### Paths in a tree -/

/-- Every step of a path goes to a smaller index, so the path is shorter than the tree is deep. -/
theorem path_descends {m : NodeMem} {n : BitVec 9} {L : Nat} (ht : TreeShape m n L)
    (i j : NodeIdx) (bits : List Bool) (hi : i.toNat < 2 * L - 1)
    (h : followPath m i bits = some j) :
    j.toNat + bits.length ≤ i.toNat ∧ (bits ≠ [] → L + bits.length ≤ i.toNat + 1) := by
  induction bits generalizing i with
  | nil => simp at h; simp [h]
  | cons b bs ih =>
    by_cases hl : (nodeAt m i.toNat).leaf = true
    · rw [followPath_leaf m i _ hl (by simp)] at h; cases h
    · have hl' : (nodeAt m i.toNat).leaf = false := by simpa using hl
      have hiL : L ≤ i.toNat := by
        by_contra hc; exact hl ((ht.leaves i.toNat hi).mpr (by omega))
      rw [followPath_cons m i b bs hl'] at h
      have hc : (if b then (nodeAt m i.toNat).right else (nodeAt m i.toNat).left).toNat
          < i.toNat := by
        cases b
        · exact ht.left_below i.toNat hiL hi
        · exact ht.right_below i.toNat hiL hi
      obtain ⟨h1, h2⟩ := ih _ (by omega) h
      simp only [List.length_cons]
      refine ⟨by omega, fun _ => ?_⟩
      by_cases hb : bs = []
      · subst hb; simp; omega
      · have := h2 hb; omega

theorem root_lt {m : NodeMem} {n : BitVec 9} {L : Nat} (ht : TreeShape m n L) :
    (n - 1#9).toNat = 2 * L - 2 := by
  have h1 := ht.size
  have h2 := ht.some_leaf
  have h3 := ht.symbols
  rw [BitVec.toNat_sub]; simp; omega

/-- There is one path to each node: R155 (c). -/
theorem path_unique {m : NodeMem} {n : BitVec 9} {L : Nat} (ht : TreeShape m n L)
    (i j : NodeIdx) (as bs : List Bool) (hi : i.toNat < 2 * L - 1)
    (ha : followPath m i as = some j) (hb : followPath m i bs = some j) : as = bs := by
  induction as using List.reverseRecOn generalizing j bs with
  | nil =>
    simp only [followPath_nil, Option.some.injEq] at ha
    subst ha
    have := (path_descends ht i i bs hi hb).1
    cases bs with
    | nil => rfl
    | cons b bs => simp at this
  | append_singleton as a ih =>
    rcases List.eq_nil_or_concat' bs with rfl | ⟨bs, b, rfl⟩
    · simp only [followPath_nil, Option.some.injEq] at hb
      subst hb
      have := (path_descends ht i i _ hi ha).1
      simp at this
    · have last : ∀ (cs : List Bool) (c : Bool), followPath m i (cs ++ [c]) = some j →
          ∃ p : NodeIdx, followPath m i cs = some p ∧ L ≤ p.toNat ∧ p.toNat < 2 * L - 1 ∧
            j = if c then (nodeAt m p.toNat).right else (nodeAt m p.toNat).left := by
        intro cs c h
        rw [followPath_append] at h
        cases hp : followPath m i cs with
        | none => rw [hp] at h; cases h
        | some p =>
          rw [hp] at h
          simp only [Option.bind_some] at h
          have hd := (path_descends ht i p cs hi hp).1
          by_cases hl : (nodeAt m p.toNat).leaf = true
          · rw [followPath_leaf m p _ hl (by simp)] at h; cases h
          · have hl' : (nodeAt m p.toNat).leaf = false := by simpa using hl
            rw [followPath_cons m p c [] hl', followPath_nil, Option.some.injEq] at h
            refine ⟨p, rfl, ?_, by omega, h.symm⟩
            by_contra hc
            exact hl ((ht.leaves p.toNat (by omega)).mpr (by omega))
      obtain ⟨p, p1, p2, p3, p4⟩ := last as a ha
      obtain ⟨q, q1, q2, q3, q4⟩ := last bs b hb
      have cp : ChildOf m p.toNat j.toNat := by
        cases a <;> simp only [ChildOf, p4] <;> simp
      have cq : ChildOf m q.toNat j.toNat := by
        cases b <;> simp only [ChildOf, q4] <;> simp
      have hj : j.toNat < 2 * L - 2 := by
        have := (path_descends ht i j _ hi ha).1
        simp at this; omega
      obtain ⟨r, -, hr⟩ := ht.one_parent j.toNat hj
      have epq : p = q := BitVec.eq_of_toNat_eq
        ((hr p.toNat ⟨⟨p2, p3⟩, cp⟩).trans (hr q.toNat ⟨⟨q2, q3⟩, cq⟩).symm)
      subst epq
      have hne := ht.two_children p.toNat p2 p3
      have eab : a = b := by
        rw [p4] at q4
        cases a <;> cases b <;> simp only [Bool.false_eq_true, if_true, if_false] at q4
        · rfl
        · exact absurd q4 hne
        · exact absurd q4.symm hne
        · rfl
      rw [ih p bs p1 q1, eab]

/-- A symbol stands in one leaf. -/
theorem leaf_unique {m : NodeMem} {n : BitVec 9} {L : Nat} (ht : TreeShape m n L) (i j : Nat)
    (hi : i < L) (hj : j < L) (h : (nodeAt m i).sym = (nodeAt m j).sym) : i = j := by
  by_contra hne
  rcases lt_or_gt_of_ne hne with hlt | hlt
  · have := ht.ascending i j hlt hj; rw [h] at this; omega
  · have := ht.ascending j i hlt hi; rw [h] at this; omega

/-- A symbol has one path (R170). -/
theorem leafAt_unique {m : NodeMem} {n : BitVec 9} {L : Nat} (ht : TreeShape m n L) (i : NodeIdx)
    (as bs : List Bool) (v : Byte) (hi : i.toNat < 2 * L - 1) (ha : LeafAt m i as v)
    (hb : LeafAt m i bs v) : as = bs := by
  obtain ⟨j, j1, j2, j3⟩ := ha
  obtain ⟨k, k1, k2, k3⟩ := hb
  have hj := (path_descends ht i j as hi j1).1
  have hk := (path_descends ht i k bs hi k1).1
  have : j = k := BitVec.eq_of_toNat_eq (leaf_unique ht j.toNat k.toNat
    ((ht.leaves _ (by omega)).mp j2) ((ht.leaves _ (by omega)).mp k2) (j3.trans k3.symm))
  exact path_unique ht i j as bs hi j1 (this ▸ k1)

/-- A path to a leaf is no beginning of another (R178). -/
theorem leafAt_prefix {m : NodeMem} {i : NodeIdx} {as bs : List Bool} {v w : Byte}
    (ha : LeafAt m i as v) (hb : LeafAt m i bs w) (h : as <+: bs) : as = bs ∧ v = w := by
  obtain ⟨cs, rfl⟩ := h
  obtain ⟨j, j1, j2, j3⟩ := ha
  obtain ⟨k, k1, k2, k3⟩ := hb
  rw [followPath_append, j1, Option.bind_some] at k1
  cases cs with
  | nil => simp at k1; subst k1; exact ⟨by simp, j3.symm.trans k3⟩
  | cons c cs => rw [followPath_leaf m j _ j2 (by simp)] at k1; cases k1

/-- Every leaf lies below the root. -/
theorem leaf_reached {m : NodeMem} {n : BitVec 9} {L : Nat} (ht : TreeShape m n L) (j : NodeIdx)
    (hj : j.toNat < 2 * L - 1) : ∃ bits, followPath m (n - 1#9) bits = some j := by
  have hroot := root_lt ht
  have key : ∀ d, ∀ j : NodeIdx, j.toNat < 2 * L - 1 → 2 * L - 2 - j.toNat ≤ d →
      ∃ bits, followPath m (n - 1#9) bits = some j := by
    intro d
    induction d with
    | zero =>
      intro j h1 h2
      exact ⟨[], by simp; exact BitVec.eq_of_toNat_eq (by omega)⟩
    | succ d ih =>
      intro j h1 h2
      by_cases hr : j.toNat = 2 * L - 2
      · exact ⟨[], by simp; exact BitVec.eq_of_toNat_eq (by omega)⟩
      · obtain ⟨i, ⟨⟨i1, i2⟩, hc⟩, -⟩ := ht.one_parent j.toNat (by omega)
        have h3 := ht.symbols
        have hi : (BitVec.ofNat 9 i).toNat = i := by simp; omega
        have hlt : j.toNat < i := by
          rcases hc with e | e
          · rw [← e]; exact ht.left_below i i1 i2
          · rw [← e]; exact ht.right_below i i1 i2
        obtain ⟨bits, hb⟩ := ih (BitVec.ofNat 9 i) (by omega) (by omega)
        have hl : (nodeAt m (BitVec.ofNat 9 i).toNat).leaf = false := by
          rw [hi]
          by_contra hcon
          have := (ht.leaves i i2).mp (by simpa using hcon)
          omega
        rcases hc with e | e
        · refine ⟨bits ++ [false], ?_⟩
          rw [followPath_append, hb, Option.bind_some, followPath_cons _ _ _ _ hl, hi]
          simp; exact BitVec.eq_of_toNat_eq e
        · refine ⟨bits ++ [true], ?_⟩
          rw [followPath_append, hb, Option.bind_some, followPath_cons _ _ _ _ hl, hi]
          simp; exact BitVec.eq_of_toNat_eq e
  exact key _ j hj (le_refl _)

/-! ### CTGEN's walk (R172) -/

/-- The entry that records a path (R171). -/
def entryOf (bits : List Bool) : CodeEntry :=
  { valid := true, len := BitVec.ofNat 8 bits.length, code := BitVec.ofNat 256 (natOf bits) }

theorem appendBit (pre : List Bool) (b : Bool) :
    (BitVec.ofNat 8 pre.length + 1#8 : BitVec 8) = BitVec.ofNat 8 (pre ++ [b]).length ∧
      (if b then (BitVec.ofNat 256 (natOf pre) <<< 1) ||| 1#256
        else BitVec.ofNat 256 (natOf pre) <<< 1) = BitVec.ofNat 256 (natOf (pre ++ [b])) := by
  refine ⟨by simp [BitVec.ofNat_add], ?_⟩
  rw [natOf_concat, ← shiftIn]
  cases b <;> simp

/-- The walk below node `i`, reached by `pre` (R172): it records the path of every symbol below, and
no other entry changes. -/
theorem visit_spec {m : NodeMem} {n : BitVec 9} {L : Nat} (ht : TreeShape m n L) (d : Nat)
    (i : NodeIdx) (pre : List Bool) (t : SymTable CodeEntry) (hi : i.toNat < 2 * L - 1)
    (hd : i.toNat < d) :
    ∃ t', visit m d i (BitVec.ofNat 8 pre.length) (BitVec.ofNat 256 (natOf pre)) t = some t' ∧
      (∀ bits v, LeafAt m i bits v → symGet t' v = entryOf (pre ++ bits)) ∧
      ∀ v, (∀ bits, ¬ LeafAt m i bits v) → symGet t' v = symGet t v := by
  induction d generalizing i pre t with
  | zero => omega
  | succ d ih =>
    by_cases hl : (nodeAt m i.toNat).leaf = true
    · refine ⟨symSet t (nodeAt m i.toNat).sym (entryOf pre), by simp [visit, hl, entryOf], ?_, ?_⟩
      · intro bits v h
        obtain ⟨rfl, rfl⟩ := (leafAt_leaf m i hl bits v).mp h
        simp
      · intro v h
        rw [symGet_symSet_other]
        intro e
        exact h [] ((leafAt_leaf m i hl [] v).mpr ⟨rfl, e⟩)
    · have hl' : (nodeAt m i.toNat).leaf = false := by simpa using hl
      have hiL : L ≤ i.toNat := by
        by_contra hc; exact hl ((ht.leaves i.toNat hi).mpr (by omega))
      have hlb := ht.left_below i.toNat hiL hi
      have hrb := ht.right_below i.toNat hiL hi
      obtain ⟨t1, a1, a2, a3⟩ := ih (nodeAt m i.toNat).left (pre ++ [false]) t (by omega) (by omega)
      obtain ⟨t2, b1, b2, b3⟩ := ih (nodeAt m i.toNat).right (pre ++ [true]) t1 (by omega) (by omega)
      obtain ⟨f1, f2⟩ := appendBit pre false
      obtain ⟨g1, g2⟩ := appendBit pre true
      simp only [if_true, Bool.false_eq_true, if_false] at f2 g2
      refine ⟨t2, ?_, ?_, ?_⟩
      · simp only [visit, hl', Bool.false_eq_true, if_false]
        rw [g2, f2, f1, a1, Option.bind_some, ← f1, g1]
        exact b1
      · intro bits v h
        have hu := h
        rcases (leafAt_internal m i hl' bits v).mp h with ⟨bs, rfl, hb⟩ | ⟨bs, rfl, hb⟩
        · rw [b3 v, a2 bs v hb]
          · simp
          · intro cs hc
            have := leafAt_unique ht i _ (true :: cs) v hi hu
              ((leafAt_internal m i hl' _ v).mpr (.inr ⟨cs, rfl, hc⟩))
            simp at this
        · rw [b2 bs v hb]; simp
      · intro v h
        rw [b3 v fun bs hb => h _ ((leafAt_internal m i hl' _ v).mpr (.inr ⟨bs, rfl, hb⟩)),
          a3 v fun bs hb => h _ ((leafAt_internal m i hl' _ v).mpr (.inl ⟨bs, rfl, hb⟩))]

/-- A path from the root is at most 255 bits long (00_scope.md R6: `MAXLEN`). -/
theorem isCode_length {s : State} {L : Nat} (ht : TreeShape s.node s.nnodes L) {bits : List Bool}
    {v : Byte} (h : IsCode s bits v) : bits.length ≤ 255 := by
  obtain ⟨j, j1, -, -⟩ := h
  have hr := root_lt ht
  have h1 := ht.some_leaf
  have h2 := ht.symbols
  by_cases hb : bits = []
  · simp [hb]
  · have := (path_descends ht _ j bits (by omega) j1).2 hb
    omega

theorem codeBits_entryOf (ct : SymTable CodeEntry) (v : Byte) (bits : List Bool)
    (h : symGet ct v = entryOf bits) (hl : bits.length ≤ 255) : codeBits ct v = bits := by
  have : (BitVec.ofNat 8 bits.length).toNat = bits.length := by simp; omega
  simp only [codeBits, h, entryOf, this]
  exact fieldBits_natOf 256 bits (by omega)

/-- CTGEN on a tree (R172) builds the tree's code table. -/
theorem ctgenBody_tree (s : State) (L : Nat) (ht : TreeShape s.node s.nnodes L) :
    ∃ ct : SymTable CodeEntry, ctgenBody s = .ok { s with ct := ct, ctOk := true } ∧
      TableOfTree { s with ct := ct } ∧
      (∀ bits v, IsCode s bits v → symGet ct v = entryOf bits) := by
  have hr := root_lt ht
  have h1 := ht.some_leaf
  have h2 := ht.symbols
  obtain ⟨ct, e1, e2, e3⟩ := visit_spec ht visitDepth (s.nnodes - 1#9) []
    (Vector.replicate 256 CodeEntry.none) (by omega) (by simp only [visitDepth]; omega)
  have e2' : ∀ bits v, IsCode s bits v → symGet ct v = entryOf bits := fun bits v h => by
    simpa using e2 bits v h
  refine ⟨ct, ?_, ?_, e2'⟩
  · simp only [List.length_nil, natOf_nil] at e1
    simp only [ctgenBody, e1]
  · intro v
    by_cases h : ∃ bits, IsCode s bits v
    · obtain ⟨bits, hb⟩ := h
      have he := e2' bits v hb
      have hlen := isCode_length ht hb
      refine ⟨fun _ => ?_, fun hv => ?_⟩
      · simp only [codeBits_entryOf ct v bits he hlen]
        refine ⟨hb, ?_⟩
        have hl := natOf_lt bits
        simp only [he, entryOf, BitVec.toNat_ofNat]
        rw [Nat.mod_eq_of_lt (a := bits.length) (by omega)]
        exact lt_of_le_of_lt (Nat.mod_le _ _) hl
      · simp [he, entryOf] at hv
    · have h' : ∀ bits, ¬ IsCode s bits v := fun b hb => h ⟨b, hb⟩
      have he : symGet ct v = CodeEntry.none := by simpa using e3 v h'
      refine ⟨fun hv => ?_, fun _ => ⟨he, h'⟩⟩
      simp [he, CodeEntry.none] at hv

/-! ### The descent (44_decode_fsm.md R185, R186) -/

/-- A stream that begins with a path leads to its leaf and loses exactly the path. -/
theorem descend_path (m : NodeMem) (n : Nat) (i : NodeIdx) (p : BitReader × Source)
    (bits more : List Bool) (v : Byte) (h : LeafAt m i bits v) (hp : inBits p = bits ++ more)
    (hn : bits.length ≤ n) :
    ∃ p', descend m n i p = (some v, p') ∧ inBits p' = more ∧ p'.1.eof = p.1.eof ∧
      p'.2.bytes = p.2.bytes := by
  induction bits generalizing n i p with
  | nil =>
    obtain ⟨j, j1, j2, j3⟩ := h
    simp only [followPath_nil, Option.some.injEq] at j1
    subst j1
    refine ⟨p, ?_, by simpa using hp, rfl, rfl⟩
    cases n <;> simp [descend, j2, j3]
  | cons b bs ih =>
    cases n with
    | zero => simp at hn
    | succ n =>
      by_cases hl : (nodeAt m i.toNat).leaf = true
      · have := ((leafAt_leaf m i hl _ v).mp h).1; cases this
      · have hl' : (nodeAt m i.toNat).leaf = false := by simpa using hl
        obtain ⟨q, q1, q2, q3, q4⟩ := readBit_cons p b (bs ++ more) hp
        obtain ⟨p', e1, e2, e3, e4⟩ := ih n
          (if b then (nodeAt m i.toNat).right else (nodeAt m i.toNat).left) q
          (by obtain ⟨j, j1, j2⟩ := h
              rw [followPath_cons m i b bs hl'] at j1
              exact ⟨j, j1, j2⟩)
          q2 (by simpa using hn)
        exact ⟨p', by simp only [descend, hl', Bool.false_eq_true, if_false, q1, e1], e2,
          e3.trans q3, e4.trans q4⟩

/-- A stream that ends before a leaf is read to its end. -/
theorem descend_short (m : NodeMem) (n : Nat) (i : NodeIdx) (p : BitReader × Source)
    (h : ∀ bits v, LeafAt m i bits v → ¬ bits <+: inBits p) (hn : (inBits p).length = n) :
    ∃ p', descend m n i p = (none, p') ∧ inBits p' = [] ∧ p'.1.eof = true ∧
      p'.2.bytes = p.2.bytes := by
  induction n generalizing i p with
  | zero =>
    have hnil : inBits p = [] := List.length_eq_zero_iff.mp hn
    have hl : (nodeAt m i.toNat).leaf = false := by
      by_contra hc
      exact h [] _ ⟨i, rfl, by simpa using hc, rfl⟩ (by simp)
    refine ⟨({ p.1 with eof := true }, p.2), ?_, by simpa [inBits] using hnil, rfl, rfl⟩
    simp only [descend, hl, Bool.false_eq_true, if_false, readBit_nil p hnil]
  | succ n ih =>
    have hl : (nodeAt m i.toNat).leaf = false := by
      by_contra hc
      exact h [] _ ⟨i, rfl, by simpa using hc, rfl⟩ (by simp)
    cases hb : inBits p with
    | nil => simp [hb] at hn
    | cons b bs =>
      obtain ⟨q, q1, q2, q3, q4⟩ := readBit_cons p b bs hb
      obtain ⟨p', e1, e2, e3, e4⟩ := ih
        (if b then (nodeAt m i.toNat).right else (nodeAt m i.toNat).left) q
        (by intro cs v hc hpre
            obtain ⟨j, j1, j2⟩ := hc
            refine h (b :: cs) v ⟨j, by rw [followPath_cons m i b cs hl]; exact j1, j2⟩ ?_
            rw [hb, ← q2]
            exact List.cons_prefix_cons.mpr ⟨rfl, hpre⟩)
        (by rw [q2]; simpa [hb] using hn)
      exact ⟨p', by simp only [descend, hl, Bool.false_eq_true, if_false, q1, e1], e2, e3,
        e4.trans q4⟩

/-- `dec_sym` (R186) on a stream that begins with a code of the tree. -/
theorem decSym_path (info : Word) (s : State) (bits more : List Bool) (v : Byte)
    (h : IsCode s bits v) (hp : inBits (s.br, s.src) = bits ++ more) :
    ∃ p, decSym info s = .ok (v, s.setIn p) ∧ inBits p = more ∧ p.1.eof = s.br.eof ∧
      p.2.bytes = s.src.bytes := by
  obtain ⟨p, e1, e2⟩ := descend_path s.node (bitsLeft (s.br, s.src)) _ _ bits more v h hp
    (by rw [← inBits_length, hp]; simp)
  exact ⟨p, by simp only [decSym, e1], e2⟩

/-- `dec_sym` (R186) on a stream that ends before a leaf. -/
theorem decSym_short (info : Word) (s : State)
    (h : ∀ bits v, IsCode s bits v → ¬ bits <+: inBits (s.br, s.src)) :
    ∃ p, decSym info s = .raised .truncatedStream info (s.setIn p) ∧ inBits p = [] ∧
      p.1.eof = true ∧ p.2.bytes = s.src.bytes := by
  obtain ⟨p, e1, e2⟩ := descend_short s.node (bitsLeft (s.br, s.src)) _ _ h (inBits_length _)
  exact ⟨p, by simp only [decSym, e1], e2⟩

end Sys2Proof.Machine
end

