-- ==== Sys2Proof/Laws/TreeBuilder.lean ====
section
/-! SUPPORT. What BUILD can do (42_treebuilder.md R150 to R157): the queue's extraction, the leaves,
the combining pass and the invariant it keeps. -/

namespace Sys2Proof.Machine

/-! ### The queue (R152) -/

theorem keyLess_iff (m : NodeMem) (i j : Nat) : keyLess m i j = true ↔ LighterThan m i j := by
  simp [keyLess, LighterThan, BitVec.lt_def, ← BitVec.toNat_inj]

theorem LighterThan.trans {m : NodeMem} {i j k : Nat} (h1 : LighterThan m i j)
    (h2 : LighterThan m j k) : LighterThan m i k := by
  simp only [LighterThan] at *; omega

theorem lighter_total (m : NodeMem) (i j : Nat) (h : i ≠ j) :
    LighterThan m i j ∨ LighterThan m j i := by
  simp only [LighterThan] at *; omega

theorem minKey_spec (m : NodeMem) (i : Nat) (js : List Nat) :
    minKey m i js ∈ i :: js ∧
      ∀ j ∈ i :: js, j ≠ minKey m i js → LighterThan m (minKey m i js) j := by
  induction js generalizing i with
  | nil => simp [minKey]
  | cons k ks ih =>
    by_cases hk : keyLess m k i = true
    · obtain ⟨h1, h2⟩ := ih k
      have e : minKey m i (k :: ks) = minKey m k ks := by simp [minKey, hk]
      rw [e]
      refine ⟨List.mem_cons_of_mem _ h1, fun j hj hne => ?_⟩
      rcases List.mem_cons.mp hj with rfl | hj
      · by_cases e2 : minKey m k ks = k
        · rw [e2]; exact (keyLess_iff m k j).mp hk
        · exact (h2 k (by simp) (Ne.symm e2)).trans ((keyLess_iff m k j).mp hk)
      · exact h2 j hj hne
    · obtain ⟨h1, h2⟩ := ih i
      have e : minKey m i (k :: ks) = minKey m i ks := by simp [minKey, hk]
      rw [e]
      refine ⟨?_, fun j hj hne => ?_⟩
      · rcases List.mem_cons.mp h1 with h | h
        · rw [h]; simp
        · simp [h]
      · rcases List.mem_cons.mp hj with rfl | hj
        · exact h2 j (by simp) hne
        · rcases List.mem_cons.mp hj with rfl | hj
          · have hij : LighterThan m i j ∨ i = j := by
              by_cases e2 : i = j
              · exact .inr e2
              · rcases lighter_total m i j e2 with h | h
                · exact .inl h
                · exact absurd ((keyLess_iff m j i).mpr h) hk
            rcases hij with h | rfl
            · by_cases e2 : minKey m i ks = i
              · rw [e2]; exact h
              · exact (h2 i (by simp) (Ne.symm e2)).trans h
            · exact h2 i (by simp) hne
          · exact h2 j (by simp [hj]) hne

/-- `extract_min` (R152) of a queue that is not empty: its lightest index, and the queue without. -/
theorem extractMin_spec (m : NodeMem) (pq : List Nat) (h : pq ≠ []) :
    ∃ i, extractMin m pq = some (i, pq.erase i) ∧ i ∈ pq ∧
      ∀ j ∈ pq, j ≠ i → LighterThan m i j := by
  cases pq with
  | nil => exact absurd rfl h
  | cons i is => exact ⟨_, rfl, minKey_spec m i is⟩

/-! ### The leaves (R151) -/

/-- The symbols with a count, in ascending byte-value order. -/
def presentSyms (ft : SymTable Word) : List Byte := allSyms.filter fun v => symGet ft v ≠ 0#64

theorem leafCount_eq (ft : SymTable Word) : leafCount ft = (presentSyms ft).length := rfl

theorem leafCount_le (ft : SymTable Word) : leafCount ft ≤ 256 := by
  rw [leafCount, ← allSyms_length]; exact List.length_filter_le _ _

theorem mem_presentSyms (ft : SymTable Word) (v : Byte) :
    v ∈ presentSyms ft ↔ symGet ft v ≠ 0#64 := by
  simp [presentSyms, mem_allSyms]

theorem leafCount_pos (ft : SymTable Word) : 0 < leafCount ft ↔ ∃ v, symGet ft v ≠ 0#64 := by
  rw [leafCount_eq, List.length_pos_iff_exists_mem]
  simp [mem_presentSyms]

theorem presentSyms_sorted (ft : SymTable Word) :
    (presentSyms ft).Pairwise fun a b => a.toNat < b.toNat :=
  allSyms_sorted.filter _

/-- The leaf of a symbol (R151). -/
def leafOf (ft : SymTable Word) (v : Byte) : Node :=
  { leaf := true, sym := v, weight := zextWeight (symGet ft v), left := 0#9, right := 0#9 }

theorem addLeaves_from (ft : SymTable Word) (vs : List Byte) (b : Builder)
    (hb : b.pq = List.range b.next)
    (hn : b.next + (vs.filter fun v => symGet ft v ≠ 0#64).length ≤ 511) :
    let ps := vs.filter fun v => symGet ft v ≠ 0#64
    let r := vs.foldl (addLeaf ft) b
    r.next = b.next + ps.length ∧ r.pq = List.range r.next ∧
      (∀ i, i < b.next → nodeAt r.node i = nodeAt b.node i) ∧
      ∀ i, ∀ h : i < ps.length, nodeAt r.node (b.next + i) = leafOf ft ps[i] := by
  induction vs generalizing b with
  | nil => simp [hb]
  | cons v vs ih =>
    by_cases hv : symGet ft v = 0#64
    · have := ih b hb (by simpa [hv] using hn)
      simpa [addLeaf, hv] using this
    · have hl : b.next < 511 := by simp [hv] at hn; omega
      obtain ⟨h1, h2, h3, h4⟩ := ih
        { node := nodeSet b.node b.next (leafOf ft v), pq := b.pq ++ [b.next], next := b.next + 1 }
        (by simp [hb, List.range_succ]) (by simp [hv] at hn ⊢; omega)
      have e : addLeaf ft b v
          = { node := nodeSet b.node b.next (leafOf ft v), pq := b.pq ++ [b.next]
              next := b.next + 1 } := by simp [addLeaf, hv, leafOf]
      have ef : (List.filter (fun v => decide (symGet ft v ≠ 0#64)) (v :: vs))
          = v :: List.filter (fun v => decide (symGet ft v ≠ 0#64)) vs := by simp [hv]
      simp only [List.foldl_cons, e, ef, List.length_cons]
      refine ⟨by simp only [h1]; omega, h2, fun i hi => ?_, fun i hi => ?_⟩
      · rw [h3 i (by simp only; omega), nodeAt_nodeSet_other _ _ _ _ hl (by omega)]
      · cases i with
        | zero =>
          refine (h3 b.next (Nat.lt_succ_self _)).trans ?_
          exact nodeAt_nodeSet_self _ _ _ hl
        | succ i =>
          have := h4 i (by omega)
          simp only [List.getElem_cons_succ]
          rw [← this]; congr 1; simp only; omega

/-- After the leaf loop of R154: the symbols present are the leaves, in order, and the queue holds
them all. -/
theorem addLeaves_spec (ft : SymTable Word) (m : NodeMem) :
    (addLeaves ft m).next = leafCount ft ∧
      (addLeaves ft m).pq = List.range (leafCount ft) ∧
      ∀ i, ∀ h : i < (presentSyms ft).length,
        nodeAt (addLeaves ft m).node i = leafOf ft (presentSyms ft)[i] := by
  have hle := leafCount_le ft
  rw [leafCount_eq] at *
  obtain ⟨h1, h2, -, h4⟩ := addLeaves_from ft allSyms { node := m, pq := [], next := 0 } rfl
    (by simp only [Nat.zero_add]; exact le_trans hle (by omega))
  simp only [Nat.zero_add] at h1 h2 h4
  exact ⟨h1, h2.trans (congrArg List.range h1), h4⟩

/-! ### Combining (R153) -/

/-- The weight of an entry as a number. -/
def weightAt (m : NodeMem) (i : Nat) : Nat := (nodeAt m i).weight.toNat

/-- Entry `i` is the internal node R153 builds there: its children are the two lightest of the
waiting entries, in order, and its weight is the sum of theirs. -/
structure JoinedAt (m : NodeMem) (L i : Nat) : Prop where
  internal : (nodeAt m i).leaf = false ∧ (nodeAt m i).sym = 0#8
  left_waits : Waiting m L i (nodeAt m i).left.toNat
  right_waits : Waiting m L i (nodeAt m i).right.toNat
  lighter : LighterThan m (nodeAt m i).left.toNat (nodeAt m i).right.toNat
  lightest : ∀ j, Waiting m L i j → j ≠ (nodeAt m i).left.toNat → j ≠ (nodeAt m i).right.toNat →
    LighterThan m (nodeAt m i).right.toNat j
  weight : weightAt m i = weightAt m (nodeAt m i).left.toNat + weightAt m (nodeAt m i).right.toNat

/-- What holds before and after every combining pass over a table `ft`. -/
structure Building (ft : SymTable Word) (b : Builder) : Prop where
  some_leaf : 1 ≤ b.pq.length
  count : b.next + b.pq.length = 2 * leafCount ft
  started : leafCount ft ≤ b.next
  leaves : ∀ i, ∀ h : i < (presentSyms ft).length, nodeAt b.node i = leafOf ft (presentSyms ft)[i]
  joined : ∀ i, leafCount ft ≤ i → i < b.next → JoinedAt b.node (leafCount ft) i
  nodup : b.pq.Nodup
  queue : ∀ j, j ∈ b.pq ↔ Waiting b.node (leafCount ft) b.next j
  last : b.next - 1 ∈ b.pq
  total : (b.pq.map (weightAt b.node)).sum = countSum ft

theorem nodeAt_below {m : NodeMem} {t : Nat} {n : Node} (ht : t < 511) {i : Nat} (h : i < t) :
    nodeAt (nodeSet m t n) i = nodeAt m i := nodeAt_nodeSet_other m t i n ht (by omega)

theorem waiting_below {m : NodeMem} {t : Nat} {n : Node} (ht : t < 511) {L i j : Nat} (h : i ≤ t) :
    Waiting (nodeSet m t n) L i j ↔ Waiting m L i j := by
  simp only [Waiting, ChildOf]
  refine and_congr_right fun _ => forall_congr' fun k => ?_
  constructor <;> intro g h1 h2 <;> have := g h1 h2 <;>
    rw [nodeAt_below ht (by omega : k < t)] at * <;> exact this

theorem lighter_below {m : NodeMem} {t : Nat} {n : Node} (ht : t < 511) {i j : Nat} (hi : i < t)
    (hj : j < t) : LighterThan (nodeSet m t n) i j ↔ LighterThan m i j := by
  simp only [LighterThan, nodeAt_below ht hi, nodeAt_below ht hj]

theorem joined_below {m : NodeMem} {t : Nat} {n : Node} (ht : t < 511) {L i : Nat} (hi : i < t)
    (h : JoinedAt m L i) : JoinedAt (nodeSet m t n) L i := by
  obtain ⟨h1, h2, h3, h4, h5, h6⟩ := h
  have hl := h2.1
  have hr := h3.1
  constructor
  · rwa [nodeAt_below ht hi]
  · rw [nodeAt_below ht hi, waiting_below ht (by omega)]; exact h2
  · rw [nodeAt_below ht hi, waiting_below ht (by omega)]; exact h3
  · rw [nodeAt_below ht hi, lighter_below ht (by omega) (by omega)]; exact h4
  · intro j hj
    rw [nodeAt_below ht hi]
    rw [waiting_below ht (by omega)] at hj
    rw [lighter_below ht (by omega) (by have := hj.1; omega)]
    exact h5 j hj
  · simp only [weightAt, nodeAt_below ht hi, nodeAt_below ht (by omega : (nodeAt m i).left.toNat < t),
      nodeAt_below ht (by omega : (nodeAt m i).right.toNat < t)]
    exact h6

theorem countSum_lt (ft : SymTable Word) : countSum ft < 2 ^ 72 := by
  have key : ∀ vs : List Byte, (vs.map fun v => (symGet ft v).toNat).sum ≤ vs.length * (2 ^ 64 - 1) := by
    intro vs
    induction vs with
    | nil => simp
    | cons v vs ih =>
      simp only [List.map_cons, List.sum_cons, List.length_cons]
      have := (symGet ft v).isLt
      have := Nat.succ_mul vs.length (2 ^ 64 - 1)
      omega
  have := key allSyms
  rw [allSyms_length] at this
  simp only [countSum]; omega

/-- The sum of all counts is the sum over the symbols present. -/
theorem countSum_present (ft : SymTable Word) :
    ((presentSyms ft).map fun v => (symGet ft v).toNat).sum = countSum ft := by
  have key : ∀ vs : List Byte, ((vs.filter fun v => symGet ft v ≠ 0#64).map
      fun v => (symGet ft v).toNat).sum = (vs.map fun v => (symGet ft v).toNat).sum := by
    intro vs
    induction vs with
    | nil => rfl
    | cons v vs ih =>
      by_cases hv : symGet ft v = 0#64
      · simp [hv] at ih ⊢; exact ih
      · simp [hv] at ih ⊢; exact ih
  exact key allSyms

/-- The builder after the leaf loop. -/
theorem building_start (ft : SymTable Word) (m : NodeMem) (h : 0 < leafCount ft) :
    Building ft (addLeaves ft m) := by
  obtain ⟨h1, h2, h3⟩ := addLeaves_spec ft m
  refine ⟨by simp [h2]; omega, by simp [h1, h2]; omega, by simp [h1], h3, ?_, ?_, ?_, ?_, ?_⟩
  · intro i hi hi'; omega
  · rw [h2]; exact List.nodup_range
  · intro j; rw [h1, h2]; simp only [List.mem_range, Waiting]
    exact ⟨fun hj => ⟨hj, fun i a b => by omega⟩, fun hj => hj.1⟩
  · rw [h1, h2, List.mem_range]; omega
  · rw [h2, ← countSum_present]
    congr 1
    apply List.ext_getElem
    · simp [leafCount_eq]
    · intro i hi hi'
      simp only [List.length_map, List.length_range, leafCount_eq] at hi
      simp only [List.getElem_map, List.getElem_range, weightAt, h3 i hi, leafOf, zextWeight]
      simp only [BitVec.toNat_setWidth]
      have := (symGet ft (presentSyms ft)[i]).isLt
      omega

theorem sum_erase (f : Nat → Nat) (l : List Nat) (i : Nat) (h : i ∈ l) :
    f i + ((l.erase i).map f).sum = (l.map f).sum := by
  induction l with
  | nil => simp at h
  | cons a l ih =>
    by_cases e : a = i
    · subst e; simp
    · have := ih (by simpa [Ne.symm e] using h)
      rw [List.erase_cons_tail (by simpa using e)]
      simp only [List.map_cons, List.sum_cons]; omega

/-- One combining pass of a queue of two or more (R153). -/
theorem building_combine (ft : SymTable Word) (b : Builder) (h : Building ft b)
    (h2 : 1 < b.pq.length) :
    Building ft (combine b) ∧ (combine b).pq.length + 1 = b.pq.length := by
  have hL := leafCount_le ft
  have ht : b.next < 511 := by have := h.count; have := h.some_leaf; omega
  obtain ⟨i, ei, hi, li⟩ := extractMin_spec b.node b.pq (by rintro e; simp [e] at h2)
  have hlen : (b.pq.erase i).length = b.pq.length - 1 := List.length_erase_of_mem hi
  obtain ⟨j, ej, hj, lj⟩ := extractMin_spec b.node (b.pq.erase i)
    (by rintro e; simp [e] at hlen; omega)
  have hj' : j ∈ b.pq := List.mem_of_mem_erase hj
  have hne : j ≠ i := by
    rintro rfl; exact (List.Nodup.not_mem_erase h.nodup) hj
  have wi := (h.queue i).mp hi
  have wj := (h.queue j).mp hj'
  have hin := wi.1
  have hjn := wj.1
  have sum1 := sum_erase (weightAt b.node) b.pq i hi
  have sum2 := sum_erase (weightAt b.node) (b.pq.erase i) j hj
  have hcs := countSum_lt ft
  rw [h.total] at sum1
  set n : Node := { leaf := false, sym := 0#8
                    weight := (nodeAt b.node i).weight + (nodeAt b.node j).weight
                    left := BitVec.ofNat 9 i, right := BitVec.ofNat 9 j } with hn
  have hnl : n.left.toNat = i := by simp [hn]; omega
  have hnr : n.right.toNat = j := by simp [hn]; omega
  have hnw : n.weight.toNat = weightAt b.node i + weightAt b.node j := by
    simp only [hn, BitVec.toNat_add, weightAt]
    apply Nat.mod_eq_of_lt
    simp only [weightAt] at sum1 sum2
    omega
  have hc : combine b = { node := nodeSet b.node b.next n, pq := (b.pq.erase i).erase j ++ [b.next]
                          next := b.next + 1 } := by
    simp only [combine, ei, ej]; rfl
  have hlen2 : ((b.pq.erase i).erase j).length = b.pq.length - 2 := by
    rw [List.length_erase_of_mem hj, hlen]; omega
  have hmem : ∀ k, k ∈ (b.pq.erase i).erase j ↔ k ∈ b.pq ∧ k ≠ i ∧ k ≠ j := by
    intro k
    rw [(h.nodup.erase i).mem_erase_iff, h.nodup.mem_erase_iff]
    exact ⟨fun q => ⟨q.2.2, q.2.1, q.1⟩, fun q => ⟨q.2.2, q.2.1, q.1⟩⟩
  have hat : nodeAt (nodeSet b.node b.next n) b.next = n := nodeAt_nodeSet_self _ _ _ ht
  rw [hc]
  refine ⟨⟨?_, ?_, ?_, ?_, ?_, ?_, ?_, ?_, ?_⟩, by simp [hlen2]; omega⟩
  · simp
  · have := h.count; simp [hlen2]; omega
  · have := h.started; simp only; omega
  · intro k hk
    simp only
    rw [nodeAt_below ht (by have := h.started; rw [leafCount_eq] at this; omega)]
    exact h.leaves k hk
  · intro k hk1 hk2
    simp only at hk2 ⊢
    by_cases hk : k < b.next
    · exact joined_below ht hk (h.joined k hk1 hk)
    · have : k = b.next := by omega
      subst this
      constructor
      · rw [hat]; exact ⟨rfl, rfl⟩
      · rw [hat, hnl, waiting_below ht (le_refl _)]; exact wi
      · rw [hat, hnr, waiting_below ht (le_refl _)]; exact wj
      · rw [hat, hnl, hnr, lighter_below ht hin hjn]; exact li j hj' hne
      · intro q hq
        rw [waiting_below ht (le_refl _)] at hq
        rw [hat, hnl, hnr, lighter_below ht hjn hq.1]
        intro q1 q2
        exact lj q (h.nodup.mem_erase_iff.mpr ⟨q1, (h.queue q).mpr hq⟩) q2
      · rw [weightAt, hat, hnl, hnr, hnw]
        simp only [weightAt, nodeAt_below ht hin, nodeAt_below ht hjn]
  · simp only
    rw [List.nodup_append]
    refine ⟨(h.nodup.erase i).erase j, by simp, ?_⟩
    intro a ha c hc' e
    simp only [List.mem_singleton] at hc'
    have := ((h.queue a).mp ((hmem a).mp ha).1).1
    omega
  · intro k
    simp only [List.mem_append, List.mem_singleton, hmem, h.queue]
    constructor
    · rintro (⟨hw, k1, k2⟩ | rfl)
      · refine ⟨by have := hw.1; omega, fun q q1 q2 => ?_⟩
        by_cases hq : q < b.next
        · rw [ChildOf, nodeAt_below ht hq]; exact hw.2 q q1 hq
        · have : q = b.next := by omega
          subst this
          rw [ChildOf, hat, hnl, hnr]; omega
      · refine ⟨by omega, fun q q1 q2 => ?_⟩
        by_cases hq : q < b.next
        · rw [ChildOf, nodeAt_below ht hq]
          have := (h.joined q q1 hq).left_waits.1
          have := (h.joined q q1 hq).right_waits.1
          omega
        · have : q = b.next := by omega
          subst this
          rw [ChildOf, hat, hnl, hnr]; omega
    · intro ⟨k1, k2⟩
      by_cases hk : k = b.next
      · exact .inr hk
      · left
        have hs := h.started
        have := k2 b.next hs (by omega)
        rw [ChildOf, hat, hnl, hnr] at this
        refine ⟨⟨by omega, fun q q1 q2 => ?_⟩, by omega, by omega⟩
        have := k2 q q1 (by omega)
        rwa [ChildOf, nodeAt_below ht q2] at this
  · simp
  · simp only [List.map_append, List.sum_append, List.map_cons, List.map_nil, List.sum_cons,
      List.sum_nil, Nat.add_zero]
    have e1 : ((b.pq.erase i).erase j).map (weightAt (nodeSet b.node b.next n))
        = ((b.pq.erase i).erase j).map (weightAt b.node) := by
      apply List.map_congr_left
      intro a ha
      have := ((h.queue a).mp ((hmem a).mp ha).1).1
      simp only [weightAt, nodeAt_below ht this]
    rw [e1, weightAt, hat, hnw]
    omega

/-- All combining passes (R154, R155 (b)): the queue comes down to one index. -/
theorem building_combineAll (ft : SymTable Word) (n : Nat) (b : Builder) (h : Building ft b)
    (hn : b.pq.length ≤ n + 1) :
    Building ft (combineAll n b) ∧ (combineAll n b).pq.length = 1 := by
  induction n generalizing b with
  | zero =>
    have := h.some_leaf
    exact ⟨h, by simp only [combineAll]; omega⟩
  | succ n ih =>
    by_cases h2 : 1 < b.pq.length
    · obtain ⟨c1, c2⟩ := building_combine ft b h h2
      simpa [combineAll, h2] using ih (combine b) c1 (by omega)
    · have := h.some_leaf
      refine ⟨by simpa [combineAll, h2] using h, by simp [combineAll, h2]; omega⟩

/-- The finished tree. -/
theorem built_shape (ft : SymTable Word) (b : Builder) (h : Building ft b) (h1 : b.pq.length = 1) :
    b.next = 2 * leafCount ft - 1 ∧ b.pq = [b.next - 1] := by
  have hc := h.count
  obtain ⟨x, hx⟩ := List.length_eq_one_iff.mp h1
  have := h.last
  rw [hx] at this ⊢
  simp only [List.mem_singleton] at this
  exact ⟨by omega, by rw [this]⟩

/-- The finished memory is a tree of `leafCount ft` leaves (R155). -/
theorem built_treeShape (ft : SymTable Word) (b : Builder) (h : Building ft b)
    (h1 : b.pq.length = 1) : TreeShape b.node (BitVec.ofNat 9 b.next) (leafCount ft) := by
  obtain ⟨e1, e2⟩ := built_shape ft b h h1
  have hs := h.started
  have hL := leafCount_le ft
  have hc := h.count
  have hlf : ∀ i, i < leafCount ft → ∃ hi : i < (presentSyms ft).length,
      nodeAt b.node i = leafOf ft (presentSyms ft)[i] := fun i hi =>
    ⟨by rwa [leafCount_eq] at hi, h.leaves i _⟩
  constructor
  · omega
  · exact hL
  · rw [e1]; simp; omega
  · intro i hi
    by_cases hi' : i < leafCount ft
    · obtain ⟨_, e⟩ := hlf i hi'
      simp [e, leafOf, hi']
    · have := (h.joined i (by omega) (by omega)).internal.1
      simp [this, hi']
  · intro i j hij hj
    obtain ⟨p1, q1⟩ := hlf i (by omega)
    obtain ⟨p2, q2⟩ := hlf j hj
    rw [q1, q2]
    exact List.pairwise_iff_getElem.mp (presentSyms_sorted ft) i j p1 p2 hij
  · intro i hi
    obtain ⟨_, e⟩ := hlf i hi
    simp [e, leafOf]
  · intro i h2 h3; exact (h.joined i h2 (by omega)).internal.2
  · intro i h2 h3; exact (h.joined i h2 (by omega)).left_waits.1
  · intro i h2 h3; exact (h.joined i h2 (by omega)).right_waits.1
  · intro i h2 h3 he
    have := (h.joined i h2 (by omega)).lighter
    rw [he, LighterThan] at this; omega
  · intro j hj
    have hnw : ¬ Waiting b.node (leafCount ft) b.next j := by
      rw [← h.queue, e2]; simp; omega
    have hex : ∃ i, leafCount ft ≤ i ∧ i < b.next ∧ ChildOf b.node i j := by
      by_contra hno
      push Not at hno
      exact hnw ⟨by omega, hno⟩
    obtain ⟨i, i1, i2, i3⟩ := hex
    refine ⟨i, ⟨⟨i1, by omega⟩, i3⟩, ?_⟩
    rintro k ⟨⟨k1, k2⟩, k3⟩
    by_contra hne
    have key : ∀ p q, leafCount ft ≤ p → p < q → q < b.next → ChildOf b.node p j →
        ¬ ChildOf b.node q j := by
      intro p q hp hpq hq hpj hqj
      have hj := h.joined q (by omega) hq
      rcases hqj with e | e
      · exact hj.left_waits.2 p hp hpq (e ▸ hpj)
      · exact hj.right_waits.2 p hp hpq (e ▸ hpj)
    rcases lt_or_gt_of_ne hne with hlt | hlt
    · exact key k i k1 hlt i2 k3 i3
    · exact key i k i1 hlt (by omega) i3 k3
  · intro i h2 h3; exact (h.joined i h2 (by omega)).weight

/-- Internal weights do not decrease in build order (R155 (d)). -/
theorem joined_monotone (m : NodeMem) (L i : Nat) (hi : L ≤ i) (h1 : JoinedAt m L i)
    (h2 : JoinedAt m L (i + 1)) : weightAt m i ≤ weightAt m (i + 1) := by
  have below : ∀ j, Waiting m L (i + 1) j → weightAt m (nodeAt m i).right.toNat ≤ weightAt m j := by
    intro j ⟨hj, hw⟩
    by_cases e : j = i
    · subst e; have := h1.weight; omega
    · have hnc := hw i hi (by omega)
      simp only [ChildOf, not_or] at hnc
      have := h1.lightest j ⟨by omega, fun k k1 k2 => hw k k1 (by omega)⟩ (Ne.symm hnc.1)
        (Ne.symm hnc.2)
      simp only [LighterThan] at this
      simp only [weightAt]; omega
  have a := below _ h2.left_waits
  have b := below _ h2.right_waits
  have c := h1.lighter
  have d := h1.weight
  have e := h2.weight
  simp only [LighterThan] at c
  simp only [weightAt] at *
  omega

/-! ### BUILD is a function of the counts (R155 (f)) -/

/-- Two builders that look the same below the next free entry. -/
structure SameBuild (b c : Builder) : Prop where
  queue : b.pq = c.pq
  next : b.next = c.next
  within : ∀ i ∈ b.pq, i < b.next
  room : b.next + b.pq.length ≤ 512
  same : ∀ i, i < b.next → nodeAt b.node i = nodeAt c.node i

theorem keyLess_congr {m k : NodeMem} {i j : Nat} (hi : nodeAt m i = nodeAt k i)
    (hj : nodeAt m j = nodeAt k j) : keyLess m i j = keyLess k i j := by
  simp [keyLess, hi, hj]

theorem minKey_congr {m k : NodeMem} (i : Nat) (js : List Nat)
    (h : ∀ j ∈ i :: js, nodeAt m j = nodeAt k j) : minKey m i js = minKey k i js := by
  induction js generalizing i with
  | nil => rfl
  | cons j js ih =>
    have hi := h i (by simp)
    have hj := h j (by simp)
    simp only [minKey, keyLess_congr hj hi]
    split
    · exact ih j fun x hx => h x (by simp at hx ⊢; tauto)
    · exact ih i fun x hx => h x (by simp at hx ⊢; tauto)

theorem extractMin_congr {m k : NodeMem} (pq : List Nat)
    (h : ∀ j ∈ pq, nodeAt m j = nodeAt k j) : extractMin m pq = extractMin k pq := by
  cases pq with
  | nil => rfl
  | cons i is => simp [extractMin, minKey_congr i is h]

theorem sameBuild_combine {b c : Builder} (h : SameBuild b c) (h2 : 1 < b.pq.length) :
    SameBuild (combine b) (combine c) := by
  have hn : b.next < 511 := by have := h.room; omega
  have hsame : ∀ j ∈ b.pq, nodeAt b.node j = nodeAt c.node j := fun j hj =>
    h.same j (h.within j hj)
  obtain ⟨i, ei, hi, -⟩ := extractMin_spec b.node b.pq (by rintro e; simp [e] at h2)
  have hlen : (b.pq.erase i).length = b.pq.length - 1 := List.length_erase_of_mem hi
  obtain ⟨j, ej, hj, -⟩ := extractMin_spec b.node (b.pq.erase i)
    (by rintro e; simp [e] at hlen; omega)
  have hj' : j ∈ b.pq := List.mem_of_mem_erase hj
  have fi : extractMin c.node c.pq = some (i, b.pq.erase i) := by
    rw [← h.queue, ← extractMin_congr _ hsame, ei]
  have fj : extractMin c.node (b.pq.erase i) = some (j, (b.pq.erase i).erase j) := by
    rw [← extractMin_congr _ fun x hx => hsame x (List.mem_of_mem_erase hx), ej]
  have hlen2 : ((b.pq.erase i).erase j).length = b.pq.length - 2 := by
    rw [List.length_erase_of_mem hj, hlen]; omega
  simp only [combine, ei, ej, fi, fj]
  refine ⟨by simp [h.next], by simp [h.next], ?_, ?_, ?_⟩
  · intro x hx
    simp only [List.mem_append, List.mem_singleton] at hx ⊢
    rcases hx with hx | rfl
    · have := h.within x (List.mem_of_mem_erase (List.mem_of_mem_erase hx)); omega
    · omega
  · have := h.room; simp [hlen2]; omega
  · intro x hx
    simp only at hx ⊢
    rw [← h.next, nodeAt_nodeSet _ _ _ _ hn, nodeAt_nodeSet _ _ _ _ hn,
      hsame i hi, hsame j hj']
    split
    · rfl
    · exact h.same x (by omega)

theorem sameBuild_combineAll (n : Nat) {b c : Builder} (h : SameBuild b c) :
    SameBuild (combineAll n b) (combineAll n c) := by
  induction n generalizing b c with
  | zero => exact h
  | succ n ih =>
    simp only [combineAll, ← h.queue]
    split
    next h2 => exact ih (sameBuild_combine h h2)
    next => exact h

theorem sameBuild_leaves (ft : SymTable Word) (m k : NodeMem) :
    SameBuild (addLeaves ft m) (addLeaves ft k) := by
  obtain ⟨a1, a2, a3⟩ := addLeaves_spec ft m
  obtain ⟨b1, b2, b3⟩ := addLeaves_spec ft k
  refine ⟨a2.trans b2.symm, a1.trans b1.symm, ?_, ?_, ?_⟩
  · intro i hi; rw [a2] at hi; rw [a1]; exact List.mem_range.mp hi
  · have := leafCount_le ft; rw [a1, a2]; simp; omega
  · intro i hi
    rw [a1, leafCount_eq] at hi
    rw [a3 i hi, b3 i hi]

/-! ### The whole of BUILD -/

/-- The builder BUILD ends with (R154), over any node memory, where the table has a symbol. -/
theorem treeOf_built (ft : SymTable Word) (m : NodeMem) (h : ∃ v, symGet ft v ≠ 0#64) :
    Building ft (treeOf ft m) ∧ (treeOf ft m).pq.length = 1 := by
  have hp := (leafCount_pos ft).mpr h
  exact building_combineAll ft (addLeaves ft m).pq.length _ (building_start ft m hp) (by omega)

/-- BUILD of a table with a symbol (R154): its tree, over free values, and what else the state
keeps. -/
theorem buildBody_ok (s : State) (h : ∃ v, symGet s.ft v ≠ 0#64) :
    buildBody s = .ok { invalidate s with
      node := (treeOf s.ft (unspecifiedNodes s.draws)).node
      nnodes := BitVec.ofNat 9 (treeOf s.ft (unspecifiedNodes s.draws)).next
      treeOk := true } := by
  have hp := (leafCount_pos s.ft).mpr h
  have : (addLeaves s.ft (unspecifiedNodes s.draws)).next ≠ 0 := by
    rw [(addLeaves_spec s.ft (unspecifiedNodes s.draws)).1]; omega
  simp [buildBody, invalidate, drawNodes, this, treeOf]

theorem addLeaves_none (ft : SymTable Word) (m : NodeMem) (h : ∀ v, symGet ft v = 0#64) :
    addLeaves ft m = { node := m, pq := [], next := 0 } := by
  have key : ∀ vs : List Byte, ∀ b, vs.foldl (addLeaf ft) b = b := by
    intro vs
    induction vs with
    | nil => intro b; rfl
    | cons v vs ih => intro b; simp [addLeaf, h, ih]
  exact key allSyms _

/-- BUILD of a table of zeros (R157). -/
theorem buildBody_empty (s : State) (h : ∀ v, symGet s.ft v = 0#64) :
    buildBody s = .raised .emptyAlphabet 0#64 (invalidate s) := by
  simp [buildBody, invalidate, drawNodes, addLeaves_none s.ft _ h]

/-- BUILD as a command, where the table has a symbol. -/
theorem execBuild_ok (s : State) (h : ∃ v, symGet s.ft v ≠ 0#64) :
    execBuild s = .next { s with
      node := (treeOf s.ft (unspecifiedNodes s.draws)).node
      nnodes := BitVec.ofNat 9 (treeOf s.ft (unspecifiedNodes s.draws)).next
      treeOk := true, ctOk := false, draws := s.draws + 1, cseq := s.cseq + 1#32 } := by
  rw [execBuild, buildBody_ok s h, finish_ok]
  rfl

/-- BUILD as a command, on a table of zeros. -/
theorem execBuild_empty (s : State) (h : ∀ v, symGet s.ft v = 0#64) :
    execBuild s = .next { s with
      node := unspecifiedNodes s.draws, draws := s.draws + 1
      treeOk := false, nnodes := 0#9, ctOk := false
      fault := true, err := 2#8, errinfo := 0#64, cseq := s.cseq + 1#32 } := by
  rw [execBuild, buildBody_empty s h, finish_raised]
  rfl

end Sys2Proof.Machine
end

