-- ==== Sys2Proof/Laws/Codec.lean ====
section
/-! SUPPORT. What the header, the payload loops and the whole procedures can do (45_codec.md R195 to
R217). -/

namespace Sys2Proof.Machine

/-! ### The header out (R198) -/

@[simp] theorem bwWriteBits_eq {m : Nat} (v : BitVec m) (n : Nat) (s : State) :
    bwWriteBits v n s = s.setOut (writeAll (fieldBits v n) (s.bw, s.snk)) := by
  simp [bwWriteBits, writeBits_eq_writeAll]

theorem writeCounts_eq (vs : List Byte) (s : State) :
    vs.foldl (fun s' v => bwWriteBits (symGet s'.ft v) 64 s') s
      = s.setOut (writeAll (vs.flatMap fun v => fieldBits (symGet s.ft v) 64) (s.bw, s.snk)) := by
  induction vs generalizing s with
  | nil => rfl
  | cons v vs ih =>
    rw [List.foldl_cons, ih, bwWriteBits_eq, List.flatMap_cons, writeAll_append, setOut_setOut]
    simp only [setOut_ft, setOut_bw, setOut_snk]

/-- `wr_hdr()` (R198) sends the header's bits. -/
theorem wrHdr_eq (s : State) :
    wrHdr s = s.setOut (writeAll (headerBits s.ft s.ntot) (s.bw, s.snk)) := by
  have key : ∀ (n : Nat) (t u : State) (p : BitWriter × Sink), t = u.setOut p →
      bwWriteBits s.ntot n t = u.setOut (writeAll (fieldBits s.ntot n) p) := by
    rintro n _ u p rfl
    rw [bwWriteBits_eq, setOut_setOut, setOut_bw, setOut_snk]
  rw [headerBits, writeAll_append]
  exact key 64 _ _ _ (writeCounts_eq allSyms s)

/-! ### The header in (R200) -/

/-- WRHDR (R199), to be rewritten with: no later proof compares two headers. -/
theorem execWrhdr_eq (s : State) :
    execWrhdr s
      = .next (retire (s.setOut (writeAll (headerBits s.ft s.ntot) (s.bw, s.snk)))) := by
  have h : execWrhdr s = .next (retire (wrHdr s)) := finish_ok (wrHdr s)
  rw [h, wrHdr_eq]

theorem rdField_full (index : Nat) (s : State) (h : 64 ≤ (inBits (s.br, s.src)).length) :
    ∃ p, rdField index s
        = .ok (BitVec.ofNat 64 (natOf ((inBits (s.br, s.src)).take 64)), s.setIn p) ∧
      inBits p = (inBits (s.br, s.src)).drop 64 ∧ p.1.eof = s.br.eof ∧ p.2.bytes = s.src.bytes := by
  obtain ⟨p, e1, e2⟩ := readBits_full 64 (s.br, s.src) h
  exact ⟨p, by simp [rdField, e1], e2⟩

theorem rdField_short (index : Nat) (s : State) (h : (inBits (s.br, s.src)).length < 64) :
    ∃ p, rdField index s = .raised .truncatedStream (BitVec.ofNat 64 index) (s.setIn p) ∧
      inBits p = [] ∧ p.1.eof = true ∧ p.2.bytes = s.src.bytes := by
  obtain ⟨p, e1, e2⟩ := readBits_short 64 (s.br, s.src) h
  exact ⟨p, by simp [rdField, e1, h], e2⟩

/-- The field that starts at bit `64 * i` of a stream. -/
def fieldAt (bits : List Bool) (i : Nat) : Word := BitVec.ofNat 64 (natOf ((bits.drop (64 * i)).take 64))

theorem fieldAt_drop (bits : List Bool) (i : Nat) :
    fieldAt (bits.drop 64) i = fieldAt bits (i + 1) := by
  simp only [fieldAt, List.drop_drop]
  congr 4; omega

/-- The counts' loop (R200) where all of them are there. -/
theorem rdCounts_full (vs : List Byte) (s : State) (hv : vs.Nodup)
    (h : 64 * vs.length ≤ (inBits (s.br, s.src)).length) :
    ∃ (ft : SymTable Word) (p : BitReader × Source),
      rdCounts vs s = .ok { s with ft := ft, br := p.1, src := p.2 } ∧
      inBits p = (inBits (s.br, s.src)).drop (64 * vs.length) ∧ p.1.eof = s.br.eof ∧
      p.2.bytes = s.src.bytes ∧
      (∀ i, ∀ hi : i < vs.length, symGet ft vs[i] = fieldAt (inBits (s.br, s.src)) i) ∧
      ∀ x, x ∉ vs → symGet ft x = symGet s.ft x := by
  induction vs generalizing s with
  | nil => exact ⟨s.ft, (s.br, s.src), by simp [rdCounts]⟩
  | cons v vs ih =>
    simp only [List.length_cons] at h
    obtain ⟨q, q1, q2, q3, q4⟩ := rdField_full v.toNat s (by omega)
    obtain ⟨hvn, hvs⟩ := List.nodup_cons.mp hv
    obtain ⟨ft, p, e1, e2, e3, e4, e5, e6⟩ := ih
      { s.setIn q with ft := symSet s.ft v (fieldAt (inBits (s.br, s.src)) 0) } hvs
      (by simp only [State.setIn]; rw [q2]; simp; omega)
    simp only [State.setIn] at e1 e2 e3 e4 e5 e6
    rw [q2] at e2 e5
    refine ⟨ft, p, ?_, ?_, e3.trans q3, e4.trans q4, ?_, ?_⟩
    · simp only [rdCounts, q1, bind_ok, State.setIn]
      exact e1
    · rw [e2, List.drop_drop, List.length_cons]; congr 1; omega
    · intro i hi
      cases i with
      | zero => simp only [List.getElem_cons_zero]; rw [e6 v hvn, symGet_symSet_self]
      | succ i =>
        simp only [List.getElem_cons_succ]
        rw [e5 i (by simpa using hi), fieldAt_drop]
    · intro x hx
      simp only [List.mem_cons, not_or] at hx
      rw [e6 x hx.2, symGet_symSet_other _ _ _ _ (Ne.symm hx.1)]

/-- The counts' loop (R200) on a stream that ends within it. -/
theorem rdCounts_short (vs : List Byte) (s : State) (hv : vs.Nodup)
    (h : (inBits (s.br, s.src)).length < 64 * vs.length) :
    ∃ (ft : SymTable Word) (p : BitReader × Source)
      (hk : (inBits (s.br, s.src)).length / 64 < vs.length),
      rdCounts vs s
        = .raised .truncatedStream
            (BitVec.ofNat 64 (vs[(inBits (s.br, s.src)).length / 64]).toNat)
            { s with ft := ft, br := p.1, src := p.2 } ∧
      inBits p = [] ∧ p.1.eof = true ∧ p.2.bytes = s.src.bytes ∧
      (∀ i, ∀ hi : i < vs.length, symGet ft vs[i]
        = if i < (inBits (s.br, s.src)).length / 64 then fieldAt (inBits (s.br, s.src)) i
          else symGet s.ft vs[i]) ∧
      ∀ x, x ∉ vs → symGet ft x = symGet s.ft x := by
  induction vs generalizing s with
  | nil => simp at h
  | cons v vs ih =>
    simp only [List.length_cons] at h
    obtain ⟨hvn, hvs⟩ := List.nodup_cons.mp hv
    by_cases h64 : 64 ≤ (inBits (s.br, s.src)).length
    · obtain ⟨q, q1, q2, q3, q4⟩ := rdField_full v.toNat s h64
      have hlen : (inBits (s.br, s.src)).length / 64 = ((inBits q).length) / 64 + 1 := by
        rw [q2, List.length_drop]; omega
      obtain ⟨ft, p, hk, e1, e2, e3, e4, e5, e6⟩ := ih
        { s.setIn q with ft := symSet s.ft v (fieldAt (inBits (s.br, s.src)) 0) } hvs
        (by simp only [State.setIn]; rw [q2]; simp; omega)
      simp only [State.setIn] at hk e1 e2 e3 e4 e5 e6
      refine ⟨ft, p, by simp only [List.length_cons]; omega, ?_, e2, e3, e4.trans q4, ?_, ?_⟩
      · simp only [rdCounts, q1, bind_ok, State.setIn, hlen, List.getElem_cons_succ]
        exact e1
      · intro i hi
        cases i with
        | zero =>
          simp only [List.getElem_cons_zero, hlen, Nat.zero_lt_succ, if_true]
          rw [e6 v hvn, symGet_symSet_self]
        | succ i =>
          simp only [List.getElem_cons_succ, hlen, Nat.add_lt_add_iff_right]
          rw [e5 i (by simpa using hi)]
          have hne : v ≠ vs[i]'(by simpa using hi) := by
            intro e; exact hvn (e ▸ List.getElem_mem _)
          have hq : fieldAt (inBits (q.1, q.2)) i = fieldAt (inBits (s.br, s.src)) (i + 1) := by
            rw [← fieldAt_drop, ← q2]
          simp only [hq, symGet_symSet_other _ _ _ _ hne]
      · intro x hx
        simp only [List.mem_cons, not_or] at hx
        rw [e6 x hx.2, symGet_symSet_other _ _ _ _ (Ne.symm hx.1)]
    · obtain ⟨q, q1, q2, q3, q4⟩ := rdField_short v.toNat s (by omega)
      have hz : (inBits (s.br, s.src)).length / 64 = 0 := by omega
      refine ⟨s.ft, q, by rw [hz]; simp, ?_, q2, q3, q4, ?_, fun _ _ => rfl⟩
      · simp only [rdCounts, q1, bind_raised, hz, List.getElem_cons_zero, State.setIn]
      · intro i hi; simp [hz]

/-- The bits of a field taken from the front. -/
theorem fieldAt_fields (f : Byte → Word) (vs : List Byte) (more : List Bool) (i : Nat)
    (hi : i < vs.length) :
    fieldAt ((vs.flatMap fun v => fieldBits (f v) 64) ++ more) i = f vs[i] := by
  induction vs generalizing i with
  | nil => simp at hi
  | cons v vs ih =>
    cases i with
    | zero =>
      simp only [fieldAt, List.flatMap_cons, List.append_assoc, Nat.mul_zero, List.drop_zero,
        List.getElem_cons_zero]
      rw [List.take_append_of_le_length (by simp), List.take_of_length_le (by simp),
        natOf_fieldBits]
      apply BitVec.eq_of_toNat_eq
      rw [BitVec.toNat_ofNat]; have := (f v).isLt; omega
    | succ i =>
      rw [← fieldAt_drop]
      simp only [List.flatMap_cons, List.append_assoc, List.getElem_cons_succ]
      rw [List.drop_append_of_le_length (by simp), List.drop_of_length_le (by simp)]
      simpa using ih i (by simpa using hi)

theorem fields_length (f : Byte → Word) (vs : List Byte) :
    (vs.flatMap fun v => fieldBits (f v) 64).length = 64 * vs.length := by
  induction vs with
  | nil => rfl
  | cons v vs ih => simp only [List.flatMap_cons, List.length_append, fieldBits_length, ih,
      List.length_cons]; omega

theorem headerBits_length (ft : SymTable Word) (n : Word) :
    (headerBits ft n).length = 8 * Config.headerBytes := by
  rw [headerBits, List.length_append, fields_length, allSyms_length, fieldBits_length]; rfl

theorem allSyms_getElem (i : Nat) (h : i < allSyms.length) : (allSyms[i]).toNat = i := by
  have : i < 256 := by simpa using h
  simp [allSyms]; omega

theorem allSyms_at (v : Byte) : ∃ h : v.toNat < allSyms.length, allSyms[v.toNat] = v := by
  have h : v.toNat < allSyms.length := by simpa using v.isLt
  exact ⟨h, BitVec.eq_of_toNat_eq (allSyms_getElem _ h)⟩

/-- `rd_hdr()` (R200) on a stream that begins with a header. -/
theorem rdHdr_header (s : State) (ft : SymTable Word) (n : Word) (more : List Bool)
    (h : inBits (s.br, s.src) = headerBits ft n ++ more) :
    ∃ p : BitReader × Source,
      rdHdr s = .ok { invalidate s with ft := ft, ntot := n, br := p.1, src := p.2 } ∧
      inBits p = more ∧ p.1.eof = s.br.eof ∧ p.2.bytes = s.src.bytes := by
  have h' : inBits ((invalidate s).br, (invalidate s).src)
      = (allSyms.flatMap fun v => fieldBits (symGet ft v) 64) ++ (fieldBits n 64 ++ more) := by
    rw [← List.append_assoc]; exact h
  obtain ⟨ft', p, e1, e2, e3, e4, e5, -⟩ := rdCounts_full allSyms (invalidate s) allSyms_nodup
    (by rw [h', List.length_append, fields_length]; omega)
  rw [h'] at e2 e5
  rw [List.drop_append_of_le_length (by rw [fields_length]),
    List.drop_of_length_le (by rw [fields_length]), List.nil_append] at e2
  have hft : ft' = ft := by
    apply symTable_ext
    intro v
    obtain ⟨hv, ev⟩ := allSyms_at v
    have := e5 v.toNat hv
    rwa [fieldAt_fields _ _ _ _ hv, ev] at this
  obtain ⟨q, q1, q2, q3, q4⟩ := rdField_full 256
    { invalidate s with ft := ft', br := p.1, src := p.2 }
    (by simp only; rw [e2]; simp)
  simp only at q1 q2 q3 q4
  rw [e2] at q1 q2
  rw [List.take_append_of_le_length (by simp), List.take_of_length_le (by simp), natOf_fieldBits]
    at q1
  rw [List.drop_append_of_le_length (by simp), List.drop_of_length_le (by simp)] at q2
  refine ⟨q, ?_, by simpa using q2, q3.trans e3, q4.trans e4⟩
  have hn : BitVec.ofNat 64 (n.toNat % 2 ^ 64) = n := by
    apply BitVec.eq_of_toNat_eq; rw [BitVec.toNat_ofNat]; have := n.isLt; omega
  rw [rdHdr, e1, bind_ok, q1, bind_ok, hn, hft]
  rfl

/-- `rd_hdr()` (R200) on a stream shorter than a header. -/
theorem rdHdr_short (s : State) (h : (inBits (s.br, s.src)).length < 257 * 64) :
    ∃ (ft : SymTable Word) (p : BitReader × Source),
      rdHdr s = .raised .truncatedStream
        (BitVec.ofNat 64 ((inBits (s.br, s.src)).length / 64))
        { invalidate s with ft := ft, br := p.1, src := p.2 } ∧
      inBits p = [] ∧ p.1.eof = true ∧ p.2.bytes = s.src.bytes ∧
      ∀ v : Byte, symGet ft v
        = if v.toNat < (inBits (s.br, s.src)).length / 64 then
            fieldAt (inBits (s.br, s.src)) v.toNat
          else symGet s.ft v := by
  by_cases hc : (inBits (s.br, s.src)).length < 64 * allSyms.length
  · obtain ⟨ft, p, hk, e1, e2, e3, e4, e5, -⟩ := rdCounts_short allSyms (invalidate s)
      allSyms_nodup hc
    refine ⟨ft, p, ?_, e2, e3, e4, ?_⟩
    · simp only [rdHdr, e1, bind_raised]
      rw [allSyms_getElem]; rfl
    · intro v
      obtain ⟨hv, ev⟩ := allSyms_at v
      have := e5 v.toNat hv
      rwa [ev] at this
  · obtain ⟨ft, p, e1, e2, e3, e4, e5, -⟩ := rdCounts_full allSyms (invalidate s) allSyms_nodup
      (by simpa using hc)
    have hlen : (inBits (s.br, s.src)).length / 64 = 256 := by
      rw [allSyms_length] at hc; omega
    have e2' : inBits p = (inBits (s.br, s.src)).drop (64 * allSyms.length) := e2
    obtain ⟨q, q1, q2, q3, q4⟩ := rdField_short 256
      { invalidate s with ft := ft, br := p.1, src := p.2 }
      (by simp only; rw [e2', List.length_drop, allSyms_length]; omega)
    refine ⟨ft, q, ?_, q2, q3, q4.trans e4, ?_⟩
    · rw [rdHdr, e1, bind_ok, q1, bind_raised, hlen]
      rfl
    · intro v
      obtain ⟨hv, ev⟩ := allSyms_at v
      have := e5 v.toNat hv
      rw [ev] at this
      rw [this, hlen, if_pos (by simpa using v.isLt)]
      rfl

/-! ### The payload out (R203) -/

/-- The codes of `before`, all of them present, one after another. -/
theorem encPayLoop_sends (before after : List Byte) (n : Nat) (s : State)
    (hr : s.src.rest = before ++ after) (hn : before.length ≤ n)
    (hv : ∀ b ∈ before, (symGet s.ct b).valid = true) :
    ∃ t : State, encPayLoop n s = encPayLoop (n - before.length) t ∧
      t = { s.setOut (writeAll (before.flatMap (codeBits s.ct)) (s.bw, s.snk)) with
              src := { s.src with pos := s.src.pos + before.length } } ∧
      t.src.rest = after := by
  induction before generalizing n s with
  | nil => exact ⟨s, by simp, by simp [State.setOut], by simpa using hr⟩
  | cons b bs ih =>
    cases n with
    | zero => simp at hn
    | succ n =>
      obtain ⟨h1, h2⟩ := source_next_cons s.src b (bs ++ after) hr
      have hb := hv b (by simp)
      have key : encSym b { s with src := { s.src with pos := s.src.pos + 1 } }
          = .ok ({ s with src := { s.src with pos := s.src.pos + 1 } }.setOut
              (writeAll (codeBits s.ct b) (s.bw, s.snk))) := by
        simp [encSym, hb, codeBits]
      obtain ⟨t, e1, e2, e3⟩ := ih n
        ({ s with src := { s.src with pos := s.src.pos + 1 } }.setOut
          (writeAll (codeBits s.ct b) (s.bw, s.snk))) h2 (by simpa using hn)
        (fun x hx => hv x (by simp [hx]))
      refine ⟨t, ?_, ?_, e3⟩
      · simp only [encPayLoop, h1, key, bind_ok, e1, List.length_cons]
        congr 1; omega
      · rw [e2]
        simp only [State.setOut, List.flatMap_cons, writeAll_append, List.length_cons]
        congr 2; omega

/-- `enc_pay()` (R203) where every byte of the source has a code. -/
theorem encPay_sends (s : State) (hv : ∀ b ∈ s.src.rest, (symGet s.ct b).valid = true) :
    encPay s = .ok { s.setOut (writeAll (s.src.rest.flatMap (codeBits s.ct)) (s.bw, s.snk)) with
      src := { s.src with pos := s.src.pos + s.src.rest.length } } := by
  obtain ⟨t, e1, e2, -⟩ := encPayLoop_sends s.src.rest [] s.src.rest.length s (by simp) (le_refl _) hv
  rw [encPay, remaining_eq, e1, Nat.sub_self, encPayLoop, e2]

/-- `enc_pay()` (R203) that meets a byte without a code. -/
theorem encPay_noCode (s : State) (before after : List Byte) (v : Byte)
    (hr : s.src.rest = before ++ v :: after) (hv : ∀ b ∈ before, (symGet s.ct b).valid = true)
    (hn : (symGet s.ct v).valid = false) :
    encPay s = .raised .noCode (zextByte v)
      { s.setOut (writeAll (before.flatMap (codeBits s.ct)) (s.bw, s.snk)) with
        src := { s.src with pos := s.src.pos + before.length + 1 } } := by
  obtain ⟨t, e1, e2, e3⟩ := encPayLoop_sends before (v :: after) s.src.rest.length s hr
    (by simp [hr]) hv
  have hlen : s.src.rest.length - before.length = after.length + 1 := by simp [hr]
  obtain ⟨h1, -⟩ := source_next_cons t.src v after e3
  rw [encPay, remaining_eq, e1, hlen, encPayLoop]
  have hct : t.ct = s.ct := by rw [e2]; rfl
  simp only [h1, encSym, hct, hn, Bool.false_eq_true, if_false, bind_raised]
  rw [e2]
  rfl

/-! ### The payload in (R205) -/

/-- The answer of the environment to put number `k` from now on (20_memory.md R66). -/
def Sink.answer (k : Sink) (i : Nat) : Bool := k.answers.getD i k.later

theorem put_answer (k : Sink) (b : Byte) :
    (k.put b).1 = k.answer 0 ∧ ∀ i, (k.put b).2.answer i = k.answer (i + 1) := by
  cases h : k.answers <;> simp [Sink.put, Sink.answer, h]

theorem good_answer (k : Sink) (h : k.Good) (i : Nat) : k.answer i = true := by
  obtain ⟨h1, h2⟩ := h
  simp only [Sink.answer, List.getD_eq_getElem?_getD]
  cases h3 : k.answers[i]? with
  | none => simpa using h1
  | some a => simpa using h2 a (List.mem_of_getElem? h3)

theorem good_iff (k : Sink) : k.Good ↔ ∀ i, k.answer i = true := by
  refine ⟨fun h i => good_answer k h i, fun h => ⟨?_, fun a ha => ?_⟩⟩
  · simpa [Sink.answer] using h k.answers.length
  · obtain ⟨i, hi, rfl⟩ := List.getElem_of_mem ha
    simpa [Sink.answer, hi] using h i

/-- The symbols `out`, their paths in front of the stream and their puts answered ok. -/
theorem decPayLoop_puts (out : List Byte) (paths : List (List Bool)) (more : List Bool) (n : Nat)
    (i : Word) (s : State) (hp : List.Forall₂ (fun bits v => IsCode s bits v) paths out)
    (hin : inBits (s.br, s.src) = paths.flatten ++ more)
    (hk : ∀ k, k < out.length → s.snk.answer k = true) :
    ∃ (r : BitReader) (p : Source) (k : Sink),
      decPayLoop (out.length + n) i s
        = decPayLoop n (i + BitVec.ofNat 64 out.length) { s with br := r, src := p, snk := k } ∧
      inBits (r, p) = more ∧ r.eof = s.br.eof ∧ p.bytes = s.src.bytes ∧
      k.bytes = s.snk.bytes ++ out ∧ ∀ j, k.answer j = s.snk.answer (out.length + j) := by
  induction out generalizing paths i s with
  | nil =>
    cases hp
    exact ⟨s.br, s.src, s.snk, by simp, by simpa using hin, rfl, rfl, by simp, by simp⟩
  | cons v out ih =>
    cases hp with
    | @cons bits _ paths _ hb hp =>
    obtain ⟨p, d1, d2, d3, d4⟩ := decSym_path i s bits (paths.flatten ++ more) v hb
      (by rw [hin]; simp)
    obtain ⟨a1, a2⟩ := put_answer s.snk v
    have ok : (s.snk.put v).1 = true := by rw [a1]; exact hk 0 (by simp)
    have hbytes : (s.snk.put v).2.bytes = s.snk.bytes ++ [v] := by
      rcases put_cases s.snk v with h | h
      · exact h.2
      · rw [ok] at h; cases h.1
    obtain ⟨r, q, k, e1, e2, e3, e4, e5, e6⟩ := ih paths (i + 1#64)
      { s.setIn p with snk := (s.snk.put v).2 } hp d2
      (fun k hk' => by rw [a2]; exact hk (k + 1) (by simpa using hk'))
    refine ⟨r, q, k, ?_, e2, e3.trans d3, e4.trans d4, ?_, ?_⟩
    · have hl : (v :: out).length + n = (out.length + n) + 1 := by simp; omega
      rw [hl, decPayLoop, decPayOne, d1]
      simp only [bind_ok, State.setIn, ok, if_true] at e1 ⊢
      rw [e1]
      have : i + 1#64 + BitVec.ofNat 64 out.length = i + BitVec.ofNat 64 (v :: out).length := by
        rw [BitVec.add_assoc, List.length_cons, BitVec.ofNat_add, BitVec.add_comm 1#64]
      rw [this]
    · rw [e5]; simp [hbytes]
    · intro j; rw [e6 j]
      show (s.snk.put v).2.answer _ = _
      rw [a2]; congr 1; simp; omega

end Sys2Proof.Machine
end

