-- ==== Sys2Proof/Laws/Frames.lean ====
section
/-! SUPPORT. What every body of a command leaves alone, however it ends, and what it keeps: one lemma
per body, for the frames and the invariants of 10_state.md R41. -/

namespace Sys2Proof.Machine

/-! ### How a body ends -/

/-- A property of the state a body leaves, whether it runs on or has raised. -/
def Result.Leaves (P : State → Prop) : Result State → Prop
  | .ok s => P s
  | .raised _ _ s => P s
  | .endless => True

theorem Result.Leaves.bind {P Q : State → Prop} {r : Result State} {k : State → Result State}
    (h : r.Leaves P) (hq : ∀ s, P s → Q s) (hk : ∀ s, r = .ok s → P s → (k s).Leaves Q) :
    (r.bind k).Leaves Q := by
  cases r with
  | ok s => exact hk s rfl h
  | raised c info s => exact hq s h
  | endless => trivial

theorem Result.Leaves.imp {P Q : State → Prop} {r : Result State} (h : r.Leaves P)
    (hq : ∀ s, P s → Q s) : r.Leaves Q := by
  cases r with
  | ok s => exact hq s h
  | raised c info s => exact hq s h
  | endless => trivial

/-- A command that answers a next state has retired or raised there. -/
theorem finish_leaves {P : State → Prop} {r : Result State} {t : State} (h : r.Leaves P)
    (e : finish r = .next t) :
    ∃ u, P u ∧ (r = .ok u ∧ t = retire u ∨
      ∃ c info, r = .raised c info u ∧ t = raiseFault c info u) := by
  cases r with
  | ok s => exact ⟨s, h, .inl ⟨rfl, by simpa using e.symm⟩⟩
  | raised c info s => exact ⟨s, h, .inr ⟨c, info, rfl, by simpa using e.symm⟩⟩
  | endless => simp [finish] at e

theorem finish_next (r : Result State) (h : r ≠ .endless) : ∃ t, finish r = .next t := by
  cases r with
  | ok s => exact ⟨_, rfl⟩
  | raised c info s => exact ⟨_, rfl⟩
  | endless => exact absurd rfl h

/-! ### The frames -/

/-- What no body but INIT's writes, and how the streams may move (R60, R64, R41 (a), (b)). -/
structure Frame (s t : State) : Prop where
  opr : t.opr = s.opr
  cseq : t.cseq = s.cseq
  fault : t.fault = s.fault
  err : t.err = s.err
  errinfo : t.errinfo = s.errinfo
  inputs : t.inputs = s.inputs
  replies : t.replies = s.replies
  srcBytes : t.src.bytes = s.src.bytes
  srcWf : s.src.Wf → t.src.Wf
  snkGrows : s.snk.bytes <+: t.snk.bytes
  writer : s.bw.Wf → t.bw.Wf
  reader : s.br.Wf → t.br.Wf

/-- RES is as before. -/
structure SameRes (s t : State) : Prop where
  res : t.res = s.res

/-- The counters are as before. -/
structure SameCounts (s t : State) : Prop where
  ft : t.ft = s.ft
  ntot : t.ntot = s.ntot

/-- The tree and the code table are as before. -/
structure SameTree (s t : State) : Prop where
  node : t.node = s.node
  nnodes : t.nnodes = s.nnodes
  treeOk : t.treeOk = s.treeOk
  ct : t.ct = s.ct
  ctOk : t.ctOk = s.ctOk

theorem Frame.refl (s : State) : Frame s s :=
  ⟨rfl, rfl, rfl, rfl, rfl, rfl, rfl, rfl, id, List.prefix_refl _, id, id⟩

theorem Frame.trans {s t u : State} (h : Frame s t) (g : Frame t u) : Frame s u :=
  ⟨g.1.trans h.1, g.2.trans h.2, g.3.trans h.3, g.4.trans h.4, g.5.trans h.5, g.6.trans h.6,
    g.7.trans h.7, g.8.trans h.8, g.9 ∘ h.9, h.10.trans g.10, g.11 ∘ h.11, g.12 ∘ h.12⟩

theorem SameRes.refl (s : State) : SameRes s s := ⟨rfl⟩
theorem SameRes.trans {s t u : State} (h : SameRes s t) (g : SameRes t u) : SameRes s u :=
  ⟨g.1.trans h.1⟩
theorem SameCounts.refl (s : State) : SameCounts s s := ⟨rfl, rfl⟩
theorem SameCounts.trans {s t u : State} (h : SameCounts s t) (g : SameCounts t u) :
    SameCounts s u := ⟨g.1.trans h.1, g.2.trans h.2⟩
theorem SameTree.refl (s : State) : SameTree s s := ⟨rfl, rfl, rfl, rfl, rfl⟩
theorem SameTree.trans {s t u : State} (h : SameTree s t) (g : SameTree t u) : SameTree s u :=
  ⟨g.1.trans h.1, g.2.trans h.2, g.3.trans h.3, g.4.trans h.4, g.5.trans h.5⟩

/-! ### The streams -/

theorem emptyWriter_wf : BitWriter.empty.Wf := by simp [BitWriter.Wf, BitWriter.empty]

theorem emptyReader_wf : BitReader.empty.Wf := by simp [BitReader.Wf, BitReader.empty]

theorem putAcc_wf (p : BitWriter × Sink) : (putAcc p).1.Wf := by simp [putAcc, BitWriter.Wf]

theorem putAcc_grows (p : BitWriter × Sink) : p.2.bytes <+: (putAcc p).2.bytes := by
  rcases put_cases p.2 p.1.acc with ⟨_, h⟩ | ⟨_, h⟩ <;> simp [putAcc, h]

/-- The zeros under the next bit stay zeros (R35). -/
theorem writeBit_wf (b : Bool) (p : BitWriter × Sink) (h : p.1.Wf) : (writeBit b p).1.Wf := by
  simp only [writeBit]
  split
  · exact h
  next hf =>
    split
    · exact putAcc_wf _
    next h7 =>
      have hc : p.1.cnt.toNat < 7 := by
        have := p.1.cnt.isLt
        have : p.1.cnt.toNat ≠ 7 := fun e => h7 (BitVec.eq_of_toNat_eq (by simpa using e))
        omega
      have hc1 : (p.1.cnt + 1#3).toNat = p.1.cnt.toNat + 1 := by
        rw [BitVec.toNat_add]; simp; omega
      refine ⟨fun i hi => ?_, fun hfail => absurd hfail (by simpa using hf)⟩
      simp only [hc1] at hi
      have h1 : p.1.acc.getLsbD i = false := h.1 i (by omega)
      simp only [BitVec.getLsbD_or, h1, Bool.false_or, BitVec.getLsbD_shiftLeft]
      simp only [Bool.and_eq_false_iff]
      left; right; simp; omega

theorem writeBit_grows (b : Bool) (p : BitWriter × Sink) : p.2.bytes <+: (writeBit b p).2.bytes := by
  simp only [writeBit]
  split
  · exact List.prefix_refl _
  · split
    · exact putAcc_grows (⟨p.1.acc ||| _, p.1.cnt, p.1.fail⟩, p.2)
    · exact List.prefix_refl _

theorem writeAll_frame (bs : List Bool) (p : BitWriter × Sink) :
    (p.1.Wf → (writeAll bs p).1.Wf) ∧ p.2.bytes <+: (writeAll bs p).2.bytes := by
  induction bs generalizing p with
  | nil => exact ⟨id, List.prefix_refl _⟩
  | cons b bs ih =>
    obtain ⟨h1, h2⟩ := ih (writeBit b p)
    exact ⟨fun h => h1 (writeBit_wf b p h), (writeBit_grows b p).trans h2⟩

theorem flushBits_frame (p : BitWriter × Sink) :
    (p.1.Wf → (flushBits p).1.Wf) ∧ p.2.bytes <+: (flushBits p).2.bytes := by
  simp only [flushBits]
  split
  · exact ⟨id, List.prefix_refl _⟩
  · split
    · exact ⟨id, List.prefix_refl _⟩
    · exact ⟨fun _ => putAcc_wf p, putAcc_grows p⟩

/-- What moves when bits go out. -/
theorem frame_setOut (s : State) (p : BitWriter × Sink) (h1 : s.bw.Wf → p.1.Wf)
    (h2 : s.snk.bytes <+: p.2.bytes) :
    Frame s (s.setOut p) ∧ SameRes s (s.setOut p) ∧ SameCounts s (s.setOut p) ∧
      SameTree s (s.setOut p) :=
  ⟨⟨rfl, rfl, rfl, rfl, rfl, rfl, rfl, rfl, id, h2, h1, id⟩, ⟨rfl⟩, ⟨rfl, rfl⟩,
    ⟨rfl, rfl, rfl, rfl, rfl⟩⟩

/-- How the reader and the source may move (20_memory.md R60, R41 (b)). -/
structure InFrame (p q : BitReader × Source) : Prop where
  bytes : q.2.bytes = p.2.bytes
  source : p.2.Wf → q.2.Wf
  reader : p.1.Wf → q.1.Wf

theorem InFrame.trans {p q r : BitReader × Source} (h : InFrame p q) (g : InFrame q r) :
    InFrame p r := ⟨g.1.trans h.1, g.2 ∘ h.2, g.3 ∘ h.3⟩

theorem readBit_frame (p : BitReader × Source) : InFrame p (readBit p).2 := by
  obtain ⟨⟨byte, cnt, eof⟩, src⟩ := p
  have hn := source_next_frame src
  simp only [readBit]
  split
  next h0 =>
    split
    next s' e =>
      rw [e] at hn
      exact ⟨hn.1, hn.2, id⟩
    next b s' e =>
      rw [e] at hn
      exact ⟨hn.1, hn.2, fun _ => by simp [deliverBit, BitReader.Wf]⟩
  next h0 =>
    refine ⟨rfl, id, fun h => ?_⟩
    simp only [deliverBit, BitReader.Wf] at h ⊢
    have hne : cnt.toNat ≠ 0 := fun e => h0 (BitVec.eq_of_toNat_eq (by simpa using e))
    rw [BitVec.toNat_sub]; simp; omega

theorem readBitsLoop_frame (n k : Nat) (x : Word) (p : BitReader × Source) :
    InFrame p (readBitsLoop n k x p).2.2 := by
  induction n generalizing k x p with
  | zero => exact ⟨rfl, id, id⟩
  | succ n ih =>
    have h := readBit_frame p
    simp only [readBitsLoop]
    split
    next q e => rw [e] at h; exact h
    next b q e => rw [e] at h; exact h.trans (ih _ _ _)

theorem descend_frame (m : NodeMem) (n : Nat) (i : NodeIdx) (p : BitReader × Source) :
    InFrame p (descend m n i p).2 := by
  induction n generalizing i p with
  | zero =>
    simp only [descend]
    split
    · exact ⟨rfl, id, id⟩
    · exact readBit_frame p
  | succ n ih =>
    have h := readBit_frame p
    simp only [descend]
    split
    · exact ⟨rfl, id, id⟩
    · split
      next q e => rw [e] at h; exact h
      next b q e => rw [e] at h; exact h.trans (ih _ _)

/-- What moves when bits come in. -/
theorem frame_setIn (s : State) (p : BitReader × Source) (h : InFrame (s.br, s.src) p) :
    Frame s (s.setIn p) ∧ SameRes s (s.setIn p) ∧ SameCounts s (s.setIn p) ∧
      SameTree s (s.setIn p) :=
  ⟨⟨rfl, rfl, rfl, rfl, rfl, rfl, rfl, h.1, h.2, List.prefix_refl _, id, h.3⟩, ⟨rfl⟩,
    ⟨rfl, rfl⟩, ⟨rfl, rfl, rfl, rfl, rfl⟩⟩

theorem frame_src (s : State) (p : Source) (hb : p.bytes = s.src.bytes)
    (hw : s.src.Wf → p.Wf) :
    Frame s { s with src := p } ∧ SameRes s { s with src := p } ∧
      SameCounts s { s with src := p } ∧ SameTree s { s with src := p } :=
  ⟨⟨rfl, rfl, rfl, rfl, rfl, rfl, rfl, hb, hw, List.prefix_refl _, id, id⟩, ⟨rfl⟩,
    ⟨rfl, rfl⟩, ⟨rfl, rfl, rfl, rfl, rfl⟩⟩

theorem frame_invalidate (s : State) :
    Frame s (invalidate s) ∧ SameRes s (invalidate s) ∧ SameCounts s (invalidate s) :=
  ⟨⟨rfl, rfl, rfl, rfl, rfl, rfl, rfl, rfl, id, List.prefix_refl _, id, id⟩, ⟨rfl⟩, ⟨rfl, rfl⟩⟩

/-- `clear_units()` and the rewind, the start of ENCODE and DECODE (45_codec.md R210). -/
theorem frame_start (s : State) :
    Frame s (srcRewind (clearUnits s)) ∧ SameRes s (srcRewind (clearUnits s)) :=
  ⟨⟨rfl, rfl, rfl, rfl, rfl, rfl, rfl, rfl, fun _ => Nat.zero_le _, List.prefix_refl _,
    fun _ => emptyWriter_wf, fun _ => emptyReader_wf⟩, ⟨rfl⟩⟩

/-! ### The bodies -/

theorem ftInc_frame (v : Byte) (s : State) :
    (ftInc v s).Leaves fun t => Frame s t ∧ SameRes s t ∧ SameTree s t := by
  simp only [ftInc]
  split
  · exact ⟨Frame.refl s, SameRes.refl s, SameTree.refl s⟩
  · exact ⟨⟨rfl, rfl, rfl, rfl, rfl, rfl, rfl, rfl, id, List.prefix_refl _, id, id⟩, ⟨rfl⟩,
      ⟨rfl, rfl, rfl, rfl, rfl⟩⟩

theorem scanLoop_frame (n : Nat) (s : State) :
    (scanLoop n s).Leaves fun t => Frame s t ∧ SameRes s t ∧ SameTree s t := by
  induction n generalizing s with
  | zero => exact ⟨Frame.refl s, SameRes.refl s, SameTree.refl s⟩
  | succ n ih =>
    have hn := source_next_frame s.src
    simp only [scanLoop]
    split
    · exact ⟨Frame.refl s, SameRes.refl s, SameTree.refl s⟩
    next b src e =>
      rw [e] at hn
      obtain ⟨f1, f2, -, f4⟩ := frame_src s src hn.1 hn.2
      refine Result.Leaves.bind (ftInc_frame b _)
        (fun t h => ⟨f1.trans h.1, f2.trans h.2.1, f4.trans h.2.2⟩) (fun t _ h => ?_)
      exact (ih t).imp fun u g =>
        ⟨(f1.trans h.1).trans g.1, (f2.trans h.2.1).trans g.2.1, (f4.trans h.2.2).trans g.2.2⟩

theorem encSym_frame (v : Byte) (s : State) :
    (encSym v s).Leaves fun t =>
      Frame s t ∧ SameRes s t ∧ SameCounts s t ∧ SameTree s t := by
  simp only [encSym]
  split
  · rw [bwWriteBits_eq]
    obtain ⟨h1, h2⟩ := writeAll_frame
      (fieldBits (symGet s.ct v).code (symGet s.ct v).len.toNat) (s.bw, s.snk)
    exact frame_setOut s _ h1 h2
  · exact ⟨Frame.refl s, SameRes.refl s, SameCounts.refl s, SameTree.refl s⟩

theorem encPayLoop_frame (n : Nat) (s : State) :
    (encPayLoop n s).Leaves fun t =>
      Frame s t ∧ SameRes s t ∧ SameCounts s t ∧ SameTree s t := by
  induction n generalizing s with
  | zero => exact ⟨Frame.refl s, SameRes.refl s, SameCounts.refl s, SameTree.refl s⟩
  | succ n ih =>
    have hn := source_next_frame s.src
    simp only [encPayLoop]
    split
    · exact ⟨Frame.refl s, SameRes.refl s, SameCounts.refl s, SameTree.refl s⟩
    next b src e =>
      rw [e] at hn
      obtain ⟨f1, f2, f3, f4⟩ := frame_src s src hn.1 hn.2
      refine Result.Leaves.bind (encSym_frame b _)
        (fun t h => ⟨f1.trans h.1, f2.trans h.2.1, f3.trans h.2.2.1, f4.trans h.2.2.2⟩)
        (fun t _ h => ?_)
      exact (ih t).imp fun u g =>
        ⟨(f1.trans h.1).trans g.1, (f2.trans h.2.1).trans g.2.1,
          (f3.trans h.2.2.1).trans g.2.2.1, (f4.trans h.2.2.2).trans g.2.2.2⟩

/-- `dec_sym` (R186) gives a symbol or raises; either way only the reader and the source move. -/
theorem decSym_cases (info : Word) (s : State) :
    ∃ p, InFrame (s.br, s.src) p ∧
      ((∃ v, decSym info s = .ok (v, s.setIn p)) ∨
        decSym info s = .raised .truncatedStream info (s.setIn p)) := by
  have h := descend_frame s.node (bitsLeft (s.br, s.src)) (s.nnodes - 1#9) (s.br, s.src)
  simp only [decSym]
  split
  next sym p e => rw [e] at h; exact ⟨p, h, .inl ⟨sym, rfl⟩⟩
  next p e => rw [e] at h; exact ⟨p, h, .inr rfl⟩

theorem decPayOne_of_ok (i : Word) (s u : State) (v : Byte) (h : decSym i s = .ok (v, u)) :
    decPayOne i s = if (u.snk.put v).1 then .ok { u with snk := (u.snk.put v).2 }
      else .raised .sinkFailure i { u with snk := (u.snk.put v).2 } := by
  rw [decPayOne, h]; rfl

theorem frame_put (s : State) (v : Byte) :
    Frame s { s with snk := (s.snk.put v).2 } ∧ SameRes s { s with snk := (s.snk.put v).2 } ∧
      SameCounts s { s with snk := (s.snk.put v).2 } ∧
      SameTree s { s with snk := (s.snk.put v).2 } :=
  ⟨⟨rfl, rfl, rfl, rfl, rfl, rfl, rfl, rfl, id,
    by rcases put_cases s.snk v with ⟨_, e⟩ | ⟨_, e⟩ <;> simp [e], id, id⟩, ⟨rfl⟩, ⟨rfl, rfl⟩,
    ⟨rfl, rfl, rfl, rfl, rfl⟩⟩

theorem decPayOne_frame (i : Word) (s : State) :
    (decPayOne i s).Leaves fun t =>
      Frame s t ∧ SameRes s t ∧ SameCounts s t ∧ SameTree s t := by
  obtain ⟨p, hp, ⟨v, e⟩ | e⟩ := decSym_cases i s
  · rw [decPayOne_of_ok i s _ v e]
    obtain ⟨f1, f2, f3, f4⟩ := frame_setIn s p hp
    obtain ⟨g1, g2, g3, g4⟩ := frame_put (s.setIn p) v
    split <;> exact ⟨f1.trans g1, f2.trans g2, f3.trans g3, f4.trans g4⟩
  · rw [decPayOne, e, bind_raised]
    exact frame_setIn s p hp

theorem decPayLoop_frame (n : Nat) (i : Word) (s : State) :
    (decPayLoop n i s).Leaves fun t =>
      Frame s t ∧ SameRes s t ∧ SameCounts s t ∧ SameTree s t := by
  induction n generalizing i s with
  | zero => exact ⟨Frame.refl s, SameRes.refl s, SameCounts.refl s, SameTree.refl s⟩
  | succ n ih =>
    refine Result.Leaves.bind (decPayOne_frame i s) (fun t h => h) (fun t _ h => ?_)
    exact (ih (i + 1#64) t).imp fun u g =>
      ⟨h.1.trans g.1, h.2.1.trans g.2.1, h.2.2.1.trans g.2.2.1, h.2.2.2.trans g.2.2.2⟩

/-- A header field (R200) is read or raises; either way only the reader and the source move. -/
theorem rdField_cases (index : Nat) (s : State) :
    ∃ p, InFrame (s.br, s.src) p ∧
      ((∃ x, rdField index s = .ok (x, s.setIn p)) ∨
        rdField index s = .raised .truncatedStream (BitVec.ofNat 64 index) (s.setIn p)) := by
  have h := readBitsLoop_frame 64 0 0#64 (s.br, s.src)
  by_cases hk : (readBitsLoop 64 0 0#64 (s.br, s.src)).1 < 64
  · exact ⟨_, h, .inr (by rw [rdField, readBits]; exact if_pos hk)⟩
  · exact ⟨_, h, .inl ⟨_, by rw [rdField, readBits]; exact if_neg hk⟩⟩

theorem frame_counts (s : State) (ft : SymTable Word) (n : Word) :
    Frame s { s with ft := ft, ntot := n } ∧ SameRes s { s with ft := ft, ntot := n } ∧
      SameTree s { s with ft := ft, ntot := n } :=
  ⟨⟨rfl, rfl, rfl, rfl, rfl, rfl, rfl, rfl, id, List.prefix_refl _, id, id⟩, ⟨rfl⟩,
    ⟨rfl, rfl, rfl, rfl, rfl⟩⟩

theorem rdCounts_frame (vs : List Byte) (s : State) :
    (rdCounts vs s).Leaves fun t => Frame s t ∧ SameRes s t ∧ SameTree s t := by
  induction vs generalizing s with
  | nil => exact ⟨Frame.refl s, SameRes.refl s, SameTree.refl s⟩
  | cons v vs ih =>
    obtain ⟨p, hp, ⟨x, e⟩ | e⟩ := rdField_cases v.toNat s <;>
      obtain ⟨f1, f2, f3, f4⟩ := frame_setIn s p hp
    · rw [rdCounts, e, bind_ok]
      obtain ⟨g1, g2, g3⟩ := frame_counts (s.setIn p) (symSet s.ft v x) s.ntot
      exact (ih _).imp fun u g =>
        ⟨(f1.trans g1).trans g.1, (f2.trans g2).trans g.2.1, (f4.trans g3).trans g.2.2⟩
    · rw [rdCounts, e, bind_raised]; exact ⟨f1, f2, f4⟩

/-- RDHDR withdraws the tree and the code table, however it ends (R200). -/
theorem rdHdr_frame (s : State) :
    (rdHdr s).Leaves fun t => Frame s t ∧ SameRes s t ∧ SameTree (invalidate s) t := by
  obtain ⟨i1, i2, -⟩ := frame_invalidate s
  refine Result.Leaves.bind (rdCounts_frame allSyms (invalidate s))
    (fun t h => ⟨i1.trans h.1, i2.trans h.2.1, h.2.2⟩) (fun t _ h => ?_)
  obtain ⟨p, hp, ⟨x, e⟩ | e⟩ := rdField_cases 256 t <;>
    obtain ⟨f1, f2, f3, f4⟩ := frame_setIn t p hp
  · rw [e, bind_ok]
    obtain ⟨g1, g2, g3⟩ := frame_counts (t.setIn p) t.ft x
    exact ⟨((i1.trans h.1).trans f1).trans g1, ((i2.trans h.2.1).trans f2).trans g2,
      (h.2.2.trans f4).trans g3⟩
  · rw [e, bind_raised]
    exact ⟨(i1.trans h.1).trans f1, (i2.trans h.2.1).trans f2, h.2.2.trans f4⟩

/-- The bits WRHDR sends (R198) move only the writer and the sink. -/
theorem wrHdr_frame (s : State) :
    Frame s (wrHdr s) ∧ SameRes s (wrHdr s) ∧ SameCounts s (wrHdr s) ∧ SameTree s (wrHdr s) := by
  rw [wrHdr_eq]
  obtain ⟨h1, h2⟩ := writeAll_frame (headerBits s.ft s.ntot) (s.bw, s.snk)
  exact frame_setOut s _ h1 h2

theorem bwFlush_frame (s : State) :
    Frame s (bwFlush s) ∧ SameRes s (bwFlush s) ∧ SameCounts s (bwFlush s) ∧
      SameTree s (bwFlush s) := by
  obtain ⟨h1, h2⟩ := flushBits_frame (s.bw, s.snk)
  exact frame_setOut s _ h1 h2

/-! ### The tree -/

/-- R41 (c): without a tree there are no nodes and no code table. -/
def MarksFit (s : State) : Prop := s.treeOk = false → s.nnodes = 0#9 ∧ s.ctOk = false

theorem MarksFit.same {s t : State} (h : MarksFit s) (g : SameTree s t) : MarksFit t := by
  intro e; rw [g.nnodes, g.ctOk]; exact h (g.treeOk ▸ e)

/-- R41 (c), (d), (e): the marks, the tree and the code table of a state fit together. -/
structure TreesFit (s : State) : Prop where
  no_tree : MarksFit s
  trees : TreeInv s

theorem TreesFit.same {s t : State} (h : TreesFit s) (g : SameTree s t) : TreesFit t := by
  refine ⟨fun e => ?_, fun e => ?_, fun e => ?_⟩
  · rw [g.nnodes, g.ctOk]; exact h.no_tree (g.treeOk ▸ e)
  · rw [g.node, g.nnodes]; exact h.trees.tree (g.treeOk ▸ e)
  · rw [g.treeOk]
    obtain ⟨h1, h2⟩ := h.trees.table (g.ctOk ▸ e)
    refine ⟨h1, ?_⟩
    simpa only [TableOfTree, IsCode, g.ct, g.node, g.nnodes] using h2

theorem treesFit_none {s : State} (h1 : s.treeOk = false) (h2 : s.nnodes = 0#9)
    (h3 : s.ctOk = false) : TreesFit s :=
  ⟨fun _ => ⟨h2, h3⟩, fun h => by simp [h1] at h, fun h => by simp [h3] at h⟩

/-- BUILD in every state (R154, R157). -/
theorem buildBody_frame (s : State) :
    buildBody s ≠ .endless ∧
      (buildBody s).Leaves fun t =>
        Frame s t ∧ SameRes s t ∧ SameCounts s t ∧ t.ct = s.ct ∧ TreesFit t ∧ t.ctOk = false := by
  by_cases h : ∃ v, symGet s.ft v ≠ 0#64
  · obtain ⟨hb, h1⟩ := treeOf_built s.ft (unspecifiedNodes s.draws) h
    rw [buildBody_ok s h]
    refine ⟨by simp, ⟨rfl, rfl, rfl, rfl, rfl, rfl, rfl, rfl, id, List.prefix_refl _, id, id⟩,
      ⟨rfl⟩, ⟨rfl, rfl⟩, rfl, ⟨fun h => by simp at h, fun _ => ⟨_, built_treeShape _ _ hb h1⟩,
        fun h => by simp [invalidate] at h⟩, rfl⟩
  · push Not at h
    rw [buildBody_empty s h]
    exact ⟨by simp, ⟨rfl, rfl, rfl, rfl, rfl, rfl, rfl, rfl, id, List.prefix_refl _, id, id⟩, ⟨rfl⟩,
      ⟨rfl, rfl⟩, rfl,
      treesFit_none rfl rfl rfl, rfl⟩

/-- CTGEN in a state with a tree (R172). -/
theorem ctgenBody_frame (s : State) (h : s.treeOk = true) (hf : TreesFit s) :
    ctgenBody s ≠ .endless ∧
      (ctgenBody s).Leaves fun t =>
        Frame s t ∧ SameRes s t ∧ SameCounts s t ∧ TreesFit t ∧ t.node = s.node := by
  obtain ⟨L, hL⟩ := hf.trees.tree h
  obtain ⟨ct, e1, e2, -⟩ := ctgenBody_tree s L hL
  rw [e1]
  refine ⟨by simp, ⟨rfl, rfl, rfl, rfl, rfl, rfl, rfl, rfl, id, List.prefix_refl _, id, id⟩,
    ⟨rfl⟩, ⟨rfl, rfl⟩, ⟨fun g => by simp [h] at g, fun g => hf.trees.tree g, fun _ => ⟨h, e2⟩⟩,
    rfl⟩

end Sys2Proof.Machine
end

