-- ==== Sys2Proof/Laws/Commands.lean ====
section
/-! SUPPORT. Once for all commands: what a command but INIT leaves alone and what it keeps, however it
ends. The invariants and the whole-machine rules are read off here. -/

namespace Sys2Proof.Machine

/-- The commands that may write RES (10_state.md R23). -/
def writesRes : Instr → Bool
  | .rbit | .rbits _ | .ftrd _ | .ndrd _ | .ctlen _ | .ctrd _ _ | .decsym => true
  | _ => false

/-- The commands that may write the counters (10_state.md R31). -/
def writesCounts : Instr → Bool
  | .ftclr | .ftinc _ | .scan | .rdhdr | .encode | .decode => true
  | _ => false

/-- The commands after which node memory may hold other content: those that build a tree (R32) and
those that write the table (93_implementation_defined.md U7). -/
def writesNodes : Instr → Bool
  | .build | .encode | .decode | .ftclr | .ftinc _ | .scan | .rdhdr => true
  | _ => false

/-- The commands that write the table and so withdraw the tree and the code table (41_freqtable.md
R145). -/
def withdraws : Instr → Bool
  | .ftclr | .ftinc _ | .scan | .rdhdr => true
  | _ => false

/-- The commands that may write the code table's entries (R34). -/
def writesCodes : Instr → Bool
  | .ctgen | .encode => true
  | _ => false

/-- A command has run its body into `u` and then retired or raised. -/
def Ended (u t : State) : Prop := t = retire u ∨ ∃ c info, t = raiseFault c info u

/-- What a command but INIT may do to the state before it ends. -/
structure Does (i : Instr) (s u : State) : Prop where
  frame : Frame s u
  res : writesRes i = false → SameRes s u
  counts : writesCounts i = false → SameCounts s u
  node : writesNodes i = false → u.node = s.node
  ct : writesCodes i = false → u.ct = s.ct
  marks : MarksFit s → MarksFit u
  trees : TreesFit s → TreesFit u

theorem Does.all {i : Instr} {s u : State}
    (h : Frame s u ∧ SameRes s u ∧ SameCounts s u ∧ SameTree s u) : Does i s u :=
  ⟨h.1, fun _ => h.2.1, fun _ => h.2.2.1, fun _ => h.2.2.2.node, fun _ => h.2.2.2.ct,
    fun g => g.same h.2.2.2, fun g => g.same h.2.2.2⟩

theorem Does.setRes {i : Instr} {s u : State} {v : Word} (hi : writesRes i = true)
    (h : Does i s u) : Does i s (setRes v u) :=
  ⟨⟨h.frame.1, h.frame.2, h.frame.3, h.frame.4, h.frame.5, h.frame.6, h.frame.7, h.frame.8,
      h.frame.9, h.frame.10, h.frame.11, h.frame.12⟩,
    fun e => by simp [hi] at e, fun e => ⟨(h.counts e).1, (h.counts e).2⟩, h.node, h.ct,
    fun g => (h.marks g).same ⟨rfl, rfl, rfl, rfl, rfl⟩, fun g => (h.trees g).same ⟨rfl, rfl, rfl, rfl, rfl⟩⟩

theorem ended_of_leaves {i : Instr} {s t : State} {r : Result State} (h : r.Leaves (Does i s))
    (e : finish r = .next t) : ∃ u, Does i s u ∧ Ended u t := by
  obtain ⟨u, hu, ⟨-, e⟩ | ⟨c, info, -, e⟩⟩ := finish_leaves h e
  · exact ⟨u, hu, .inl e⟩
  · exact ⟨u, hu, .inr ⟨c, info, e⟩⟩

theorem ended_ok {i : Instr} {s t u : State} (h : Does i s u) (e : finish (.ok u) = .next t) :
    ∃ u, Does i s u ∧ Ended u t := ended_of_leaves (r := .ok u) h e

theorem Does.refl (i : Instr) (s : State) : Does i s s :=
  Does.all ⟨Frame.refl s, SameRes.refl s, SameCounts.refl s, SameTree.refl s⟩

theorem ended_needTree {i : Instr} {s t : State} {w : Word} {o : Host.Outcome State Fault Refusal}
    (e : needTree w s o = .next t)
    (h : s.treeOk = true → o = .next t → ∃ u, Does i s u ∧ Ended u t) :
    ∃ u, Does i s u ∧ Ended u t := by
  cases hb : s.treeOk with
  | true => rw [needTree_ok w s o hb] at e; exact h hb e
  | false =>
    rw [needTree_missing w s o hb] at e
    exact ⟨s, Does.refl i s, .inr ⟨.stateInvalid, w, by simpa using e.symm⟩⟩

theorem ended_needTable {i : Instr} {s t : State} {w : Word}
    {o : Host.Outcome State Fault Refusal} (e : needTable w s o = .next t)
    (h : s.ctOk = true → o = .next t → ∃ u, Does i s u ∧ Ended u t) :
    ∃ u, Does i s u ∧ Ended u t := by
  cases hb : s.ctOk with
  | true => rw [needTable_ok w s o hb] at e; exact h hb e
  | false =>
    rw [needTable_missing w s o hb] at e
    exact ⟨s, Does.refl i s, .inr ⟨.stateInvalid, w, by simpa using e.symm⟩⟩

/-- A body behind `invalidate()` that keeps the tree withdrawn. -/
theorem Does.invalidated {i : Instr} {s u : State} (hi : writesCounts i = true)
    (hn : writesNodes i = true)
    (h : Frame (invalidate s) u ∧ SameRes (invalidate s) u ∧ SameTree (invalidate s) u) :
    Does i s u := by
  obtain ⟨i1, i2, -⟩ := frame_invalidate s
  exact ⟨i1.trans h.1, fun _ => i2.trans h.2.1, fun e => by simp [hi] at e,
    fun e => by simp [hn] at e, fun _ => h.2.2.ct,
    fun _ => ((treesFit_none rfl rfl rfl).same h.2.2).no_tree,
    fun _ => (treesFit_none rfl rfl rfl).same h.2.2⟩

/-! ### The bodies of the whole procedures -/

theorem encodeBody_frame (s : State) :
    encodeBody s ≠ .endless ∧
      (encodeBody s).Leaves fun t => Frame s t ∧ SameRes s t ∧ TreesFit t := by
  obtain ⟨a1, a2⟩ := frame_start s
  have a3 : TreesFit (srcRewind (clearUnits s)) := treesFit_none rfl rfl rfl
  have hscan := scanLoop_frame (srcRewind (clearUnits s)).src.remaining (srcRewind (clearUnits s))
  simp only [encodeBody, scanBody]
  cases e1 : scanLoop (srcRewind (clearUnits s)).src.remaining (srcRewind (clearUnits s)) with
  | endless =>
    exfalso
    have key : ∀ n u, scanLoop n u ≠ .endless := by
      intro n
      induction n with
      | zero => intro u; simp [scanLoop]
      | succ n ih =>
        intro u
        simp only [scanLoop]
        split
        · simp
        · simp only [ftInc]
          split
          · simp
          · exact ih _
    exact key _ _ e1
  | raised c info u =>
    rw [e1] at hscan
    exact ⟨by simp, a1.trans hscan.1, a2.trans hscan.2.1, a3.same hscan.2.2⟩
  | ok u =>
    rw [e1] at hscan
    have b1 := a1.trans hscan.1
    have b2 := a2.trans hscan.2.1
    have b3 := a3.same hscan.2.2
    simp only [bind_ok]
    split
    · exact ⟨by simp, b1, b2, b3⟩
    · obtain ⟨hne, hb⟩ := buildBody_frame u
      cases e2 : buildBody u with
      | endless => exact absurd e2 hne
      | raised c info v =>
        rw [e2] at hb
        exact ⟨by simp, b1.trans hb.1, b2.trans hb.2.1, hb.2.2.2.2.1⟩
      | ok v =>
        rw [e2] at hb
        have c1 := b1.trans hb.1
        have c2 := b2.trans hb.2.1
        have c3 := hb.2.2.2.2.1
        have ht : v.treeOk = true := by
          by_cases h : ∃ x, symGet u.ft x ≠ 0#64
          · rw [buildBody_ok u h] at e2; cases e2; rfl
          · push Not at h
            rw [buildBody_empty u h] at e2; cases e2
        obtain ⟨gne, hg⟩ := ctgenBody_frame v ht c3
        simp only [bind_ok]
        cases e3 : ctgenBody v with
        | endless => exact absurd e3 gne
        | raised c info w =>
          rw [e3] at hg
          exact ⟨by simp, c1.trans hg.1, c2.trans hg.2.1, hg.2.2.2.1⟩
        | ok w =>
          rw [e3] at hg
          simp only [bind_ok]
          obtain ⟨h1, h2, h3, h4⟩ := wrHdr_frame w
          obtain ⟨r1, r2, r3, r4⟩ := frame_src (wrHdr w) (wrHdr w).src.rewind rfl
            (fun _ => Nat.zero_le _)
          have d1 := ((c1.trans hg.1).trans h1).trans r1
          have d2 := ((c2.trans hg.2.1).trans h2).trans r2
          have d3 := (hg.2.2.2.1.same h4).same r4
          have hp := encPayLoop_frame (srcRewind (wrHdr w)).src.remaining (srcRewind (wrHdr w))
          have pne : encPay (srcRewind (wrHdr w)) ≠ .endless := by
            have key : ∀ n u, encPayLoop n u ≠ .endless := by
              intro n
              induction n with
              | zero => intro u; simp [encPayLoop]
              | succ n ih =>
                intro u
                simp only [encPayLoop]
                split
                · simp
                · simp only [encSym]
                  split
                  · exact ih _
                  · simp
            exact key _ _
          cases e4 : encPay (srcRewind (wrHdr w)) with
          | endless => exact absurd e4 pne
          | raised c info x =>
            rw [show encPayLoop _ _ = _ from e4] at hp
            exact ⟨by simp, d1.trans hp.1, d2.trans hp.2.1, d3.same hp.2.2.2⟩
          | ok x =>
            rw [show encPayLoop _ _ = _ from e4] at hp
            obtain ⟨f1, f2, f3, f4⟩ := bwFlush_frame x
            have g1 := (d1.trans hp.1).trans f1
            have g2 := (d2.trans hp.2.1).trans f2
            have g3 := (d3.same hp.2.2.2).same f4
            simp only [bind_ok, closeEncode]
            split
            · exact ⟨by simp, g1, g2, g3⟩
            · exact ⟨by simp, g1, g2, g3⟩

theorem rdHdr_ends (s : State) : rdHdr s ≠ .endless := by
  have key : ∀ vs u, rdCounts vs u ≠ .endless := by
    intro vs
    induction vs with
    | nil => intro u; simp [rdCounts]
    | cons v vs ih =>
      intro u
      obtain ⟨p, -, ⟨x, e⟩ | e⟩ := rdField_cases v.toNat u
      · rw [rdCounts, e, bind_ok]; exact ih _
      · rw [rdCounts, e, bind_raised]; simp
  cases e : rdCounts allSyms (invalidate s) with
  | endless => exact absurd e (key _ _)
  | raised c info u => rw [rdHdr, e]; simp
  | ok u =>
    rw [rdHdr, e, bind_ok]
    obtain ⟨p, -, ⟨x, e⟩ | e⟩ := rdField_cases 256 u <;> rw [e] <;> simp

theorem decPay_ends (s : State) : decPay s ≠ .endless := by
  have key : ∀ n i u, decPayLoop n i u ≠ .endless := by
    intro n
    induction n with
    | zero => intro i u; simp [decPayLoop]
    | succ n ih =>
      intro i u
      obtain ⟨p, -, ⟨v, e⟩ | e⟩ := decSym_cases i u
      · rw [decPayLoop, decPayOne_of_ok i u _ v e]
        split
        · exact ih _ _
        · simp
      · rw [decPayLoop, decPayOne, e]; simp
  exact key _ _ _

theorem decodeBody_frame (s : State) :
    decodeBody s ≠ .endless ∧
      (decodeBody s).Leaves fun t => Frame s t ∧ SameRes s t ∧ TreesFit t ∧ t.ct = s.ct := by
  obtain ⟨a1, a2⟩ := frame_start s
  have hr := rdHdr_frame (srcRewind (clearUnits s))
  have hct : (invalidate (srcRewind (clearUnits s))).ct = s.ct := by simp
  rw [decodeBody]
  cases e1 : rdHdr (srcRewind (clearUnits s)) with
  | endless => exact absurd e1 (rdHdr_ends _)
  | raised c info u =>
    rw [e1] at hr
    exact ⟨by simp, a1.trans hr.1, a2.trans hr.2.1, (treesFit_none rfl rfl rfl).same hr.2.2,
      hr.2.2.ct.trans hct⟩
  | ok u =>
    rw [e1] at hr
    rw [bind_ok]
    obtain ⟨hne, hb⟩ := buildBody_frame u
    cases e2 : buildBody u with
    | endless => exact absurd e2 hne
    | raised c info v =>
      rw [e2] at hb
      exact ⟨by simp, (a1.trans hr.1).trans hb.1, (a2.trans hr.2.1).trans hb.2.1, hb.2.2.2.2.1,
        hb.2.2.2.1.trans (hr.2.2.ct.trans hct)⟩
    | ok v =>
      rw [e2] at hb
      rw [bind_ok]
      refine ⟨decPay_ends v, (decPayLoop_frame v.ntot.toNat 0#64 v).imp fun w g => ?_⟩
      exact ⟨((a1.trans hr.1).trans hb.1).trans g.1, ((a2.trans hr.2.1).trans hb.2.1).trans g.2.1,
        hb.2.2.2.2.1.same g.2.2.2,
        g.2.2.2.ct.trans (hb.2.2.2.1.trans (hr.2.2.ct.trans hct))⟩

/-! ### Every command -/

/-- Whatever a command but INIT comes to, this is what it has done. -/
theorem exec_does (i : Instr) (s t : State) (hi : i ≠ .init) (e : exec i s = .next t) :
    ∃ u, Does i s u ∧ Ended u t := by
  cases i with
  | init => exact absurd rfl hi
  | nop => exact ended_ok (Does.refl _ s) e
  | wbit b =>
    exact ended_ok (Does.all (frame_setOut s _ (writeBit_wf b (s.bw, s.snk)) (writeBit_grows b (s.bw, s.snk)))) e
  | wbits n =>
    rw [exec, execWbits, bwWriteBits_eq] at e
    obtain ⟨h1, h2⟩ := writeAll_frame (fieldBits s.opr n.toNat) (s.bw, s.snk)
    exact ended_ok (Does.all (frame_setOut s _ h1 h2)) e
  | wflush => exact ended_ok (Does.all (bwFlush_frame s)) e
  | rbit =>
    have h := frame_setIn s _ (readBit_frame (s.br, s.src))
    refine ended_ok (u := rbitBody s) ?_ e
    rw [rbitBody]
    split
    next b p e => rw [e] at h; exact (Does.all h).setRes rfl
    next p e => rw [e] at h; exact Does.all h
  | rbits n =>
    have h := frame_setIn s _ (readBitsLoop_frame n.toNat 0 0#64 (s.br, s.src))
    refine ended_ok (u := rbitsBody n.toNat s) ?_ e
    rw [rbitsBody, readBits]
    revert h
    obtain ⟨k, x, p⟩ := readBitsLoop n.toNat 0 0#64 (s.br, s.src)
    intro h
    show Does _ s (if k = n.toNat then _ else _)
    split
    · exact (Does.all h).setRes rfl
    · have g : Does (.rbits n) s (setRes (shortResult k x (Config.freeRes s.draws)) (s.setIn p)) :=
        (Does.all h).setRes rfl
      exact ⟨⟨g.frame.1, g.frame.2, g.frame.3, g.frame.4, g.frame.5, g.frame.6, g.frame.7,
          g.frame.8, g.frame.9, g.frame.10, g.frame.11, g.frame.12⟩,
        fun e => by simp [writesRes] at e, fun _ => ⟨rfl, rfl⟩, fun _ => rfl, fun _ => rfl,
        fun f => f.same ⟨rfl, rfl, rfl, rfl, rfl⟩, fun f => f.same ⟨rfl, rfl, rfl, rfl, rfl⟩⟩
  | ftclr =>
    obtain ⟨f1, f2, -⟩ := frame_invalidate s
    obtain ⟨g1, g2, g3⟩ := frame_counts (invalidate s) (Vector.replicate 256 0#64) 0#64
    exact ended_ok (Does.invalidated rfl rfl ⟨g1, g2, g3⟩) e
  | ftinc v =>
    exact ended_of_leaves ((ftInc_frame v (invalidate s)).imp fun u h => Does.invalidated rfl rfl h) e
  | ftrd v => exact ended_ok ((Does.refl _ s).setRes rfl) e
  | scan =>
    exact ended_of_leaves ((scanLoop_frame _ (invalidate s)).imp fun u h => Does.invalidated rfl rfl h) e
  | build =>
    refine ended_of_leaves ((buildBody_frame s).2.imp fun u h => ?_) e
    exact ⟨h.1, fun _ => h.2.1, fun _ => h.2.2.1, fun e => by simp [writesNodes] at e,
      fun _ => h.2.2.2.1, fun _ => h.2.2.2.2.1.no_tree, fun _ => h.2.2.2.2.1⟩
  | ndrd idx => exact ended_needTree e fun _ e => ended_ok ((Does.refl _ s).setRes rfl) e
  | ctgen =>
    refine ended_needTree e fun ht e => ended_of_leaves (r := ctgenBody s) ?_ e
    have trees : TreesFit s → (ctgenBody s).Leaves TreesFit := fun hf =>
      (ctgenBody_frame s ht hf).2.imp fun u h => h.2.2.2.1
    revert trees
    rw [ctgenBody]
    split
    next ct _ =>
      intro trees
      exact ⟨⟨rfl, rfl, rfl, rfl, rfl, rfl, rfl, rfl, id, List.prefix_refl _, id, id⟩,
        fun _ => ⟨rfl⟩, fun _ => ⟨rfl, rfl⟩, fun _ => rfl, fun e => by simp [writesCodes] at e,
        fun _ e => absurd e (by simp [ht]), trees⟩
    next => intro _; trivial
  | ctlen v => exact ended_needTable e fun _ e => ended_ok ((Does.refl _ s).setRes rfl) e
  | ctrd v w => exact ended_needTable e fun _ e => ended_ok ((Does.refl _ s).setRes rfl) e
  | encsym v =>
    exact ended_needTable e fun _ e =>
      ended_of_leaves ((encSym_frame v s).imp fun u h => Does.all h) e
  | decsym =>
    refine ended_needTree e fun _ e => ?_
    obtain ⟨p, hp, ⟨v, d⟩ | d⟩ := decSym_cases 0#64 s
    · rw [d, bind_ok] at e
      exact ended_ok ((Does.all (frame_setIn s p hp)).setRes rfl) e
    · rw [d, bind_raised] at e
      exact ended_of_leaves (r := .raised .truncatedStream 0#64 (s.setIn p))
        (Does.all (frame_setIn s p hp)) e
  | wrhdr => exact ended_ok (Does.all (wrHdr_frame s)) e
  | rdhdr =>
    refine ended_of_leaves ((rdHdr_frame s).imp fun u h => ?_) e
    exact ⟨h.1, fun _ => h.2.1, fun e => by simp [writesCounts] at e, fun e => by simp [writesNodes] at e,
      fun _ => h.2.2.ct, fun _ => ((treesFit_none rfl rfl rfl).same h.2.2).no_tree,
      fun _ => (treesFit_none rfl rfl rfl).same h.2.2⟩
  | srcrw =>
    obtain ⟨f1, f2, f3, f4⟩ := frame_setIn s (BitReader.empty, s.src.rewind)
      ⟨rfl, fun _ => Nat.zero_le _, fun _ => emptyReader_wf⟩
    exact ended_ok (Does.all ⟨f1, f2, f3, f4⟩) e
  | encpay =>
    exact ended_needTable e fun _ e =>
      ended_of_leaves ((encPayLoop_frame _ s).imp fun u h => Does.all h) e
  | decpay =>
    exact ended_needTree e fun _ e =>
      ended_of_leaves ((decPayLoop_frame _ _ s).imp fun u h => Does.all h) e
  | encode =>
    refine ended_of_leaves ((encodeBody_frame s).2.imp fun u h => ?_) e
    exact ⟨h.1, fun _ => h.2.1, fun e => by simp [writesCounts] at e,
      fun e => by simp [writesNodes] at e, fun e => by simp [writesCodes] at e,
      fun _ => h.2.2.no_tree, fun _ => h.2.2⟩
  | decode =>
    refine ended_of_leaves ((decodeBody_frame s).2.imp fun u h => ?_) e
    exact ⟨h.1, fun _ => h.2.1, fun e => by simp [writesCounts] at e,
      fun e => by simp [writesNodes] at e, fun _ => h.2.2.2, fun _ => h.2.2.1.no_tree,
      fun _ => h.2.2.1⟩

/-- A command that writes the table leaves no tree and no code table, however it ends (R145). -/
theorem exec_withdraws (i : Instr) (s t : State) (hi : withdraws i = true) (e : exec i s = .next t) :
    t.treeOk = false ∧ t.nnodes = 0#9 ∧ t.ctOk = false := by
  have key : ∀ r : Result State, r.Leaves (fun u => SameTree (invalidate s) u) →
      finish r = .next t → t.treeOk = false ∧ t.nnodes = 0#9 ∧ t.ctOk = false := by
    intro r h e
    obtain ⟨u, hu, ⟨-, rfl⟩ | ⟨c, info, -, rfl⟩⟩ := finish_leaves h e
    · exact ⟨hu.treeOk, hu.nnodes, hu.ctOk⟩
    · exact ⟨hu.treeOk, hu.nnodes, hu.ctOk⟩
  cases i with
  | ftclr =>
    exact key (.ok (clearTable (invalidate s)))
      (frame_counts (invalidate s) (Vector.replicate 256 0#64) 0#64).2.2 e
  | ftinc v => exact key _ ((ftInc_frame v (invalidate s)).imp fun u h => h.2.2) e
  | scan => exact key _ ((scanLoop_frame _ (invalidate s)).imp fun u h => h.2.2) e
  | rdhdr => exact key _ ((rdHdr_frame s).imp fun u h => h.2.2) e
  | _ => cases hi

end Sys2Proof.Machine
end

