-- ==== Sys2Proof/Laws/PerInstr.lean ====
section
/-! SUPPORT. Per-instruction family: where a command's opcode stands in the value written to CMD
(30_encoding.md R90, R91). -/

namespace Sys2Proof.Laws.OpcodeField

open Sys2Proof

/-- Bits [31:24] of a command's value are its opcode, bits [63:32] are zero (R90). -/
def Statement (i : Instr) : Prop :=
  (encodeCmd i).extractLsb' 24 8 = opcode i ∧ (encodeCmd i).extractLsb' 32 32 = 0#32

/-- The opcode stands above the operand bits, whatever those are. -/
theorem of_encode (i : Instr) : Statement i := by
  refine ⟨?_, ?_⟩ <;> apply BitVec.eq_of_getLsbD_eq <;> intro k hk
  · have h1 : ¬ 24 + k < 24 := by omega
    have h2 : 24 + k < 64 := by omega
    have h3 : 24 + k - 24 = k := by omega
    simp only [encodeCmd, encode, BitVec.getLsbD_extractLsb', BitVec.getLsbD_setWidth,
      BitVec.getLsbD_append, hk, h1, h2, h3, decide_true, Bool.true_and, if_false]
  · simp [encodeCmd]

theorem nop : Statement .nop := of_encode _
theorem init : Statement .init := of_encode _
theorem wbit (b : Bool) : Statement (.wbit b) := of_encode _
theorem wbits (n : BitVec 8) : Statement (.wbits n) := of_encode _
theorem wflush : Statement .wflush := of_encode _
theorem rbit : Statement .rbit := of_encode _
theorem rbits (n : BitVec 8) : Statement (.rbits n) := of_encode _
theorem ftclr : Statement .ftclr := of_encode _
theorem ftinc (sym : Byte) : Statement (.ftinc sym) := of_encode _
theorem ftrd (sym : Byte) : Statement (.ftrd sym) := of_encode _
theorem scan : Statement .scan := of_encode _
theorem build : Statement .build := of_encode _
theorem ndrd (idx : NodeIdx) : Statement (.ndrd idx) := of_encode _
theorem ctgen : Statement .ctgen := of_encode _
theorem ctlen (sym : Byte) : Statement (.ctlen sym) := of_encode _
theorem ctrd (sym : Byte) (w : BitVec 2) : Statement (.ctrd sym w) := of_encode _
theorem encsym (sym : Byte) : Statement (.encsym sym) := of_encode _
theorem decsym : Statement .decsym := of_encode _
theorem wrhdr : Statement .wrhdr := of_encode _
theorem rdhdr : Statement .rdhdr := of_encode _
theorem srcrw : Statement .srcrw := of_encode _
theorem encpay : Statement .encpay := of_encode _
theorem decpay : Statement .decpay := of_encode _
theorem encode : Statement .encode := of_encode _
theorem decode : Statement .decode := of_encode _

end Sys2Proof.Laws.OpcodeField
end

