-- ==== Sys2Proof/Laws/Sinks.lean ====
section
/-! SUPPORT. What a sink that fails a put makes of the bytes a good sink would get (20_memory.md R66,
40_bitchannel.md R120, R122). -/

namespace Sys2Proof.Machine

/-- A run of the writer over sink `k`, seen beside the same run over a good sink that gets the bytes
`st`: as long as no put fails the two are alike, and the first failing put is the end. -/
structure Beside (k : Sink) (st : List Byte) (good bad : BitWriter × Sink) : Prop where
  good_on : good.1.fail = false
  sink_good : good.2.Good
  alike : (∀ i, i < st.length → k.answer i = true) →
    bad.1 = good.1 ∧ bad.2.bytes = k.bytes ++ st ∧ ∀ i, bad.2.answer i = k.answer (st.length + i)
  stops : ∀ j, j < st.length → (∀ i, i < j → k.answer i = true) → k.answer j = false →
    bad.1.fail = true ∧ bad.2.bytes = k.bytes ++ st.take j

/-- One put at the end of such a run. -/
theorem beside_put (k : Sink) (st : List Byte) (good bad : BitWriter × Sink) (b : Byte)
    (h : Beside k st good bad) :
    Beside k (st ++ [b]) (putAcc ({ good.1 with acc := b }, good.2))
      (if bad.1.fail then bad else putAcc ({ bad.1 with acc := b }, bad.2)) := by
  obtain ⟨g1, g2, g3⟩ := put_good good.2 b h.sink_good
  refine ⟨by simp [putAcc, g1, h.good_on], by simpa [putAcc] using g3, fun hk => ?_,
    fun j hj hk hf => ?_⟩
  · obtain ⟨a1, a2, a3⟩ := h.alike fun i hi => hk i (by simp; omega)
    have hfail : bad.1.fail = false := by rw [a1]; exact h.good_on
    obtain ⟨p1, p2⟩ := put_answer bad.2 b
    have ok : (bad.2.put b).1 = true := by
      rw [p1, a3]; exact hk _ (by simp)
    rcases put_cases bad.2 b with ⟨_, e⟩ | ⟨e, _⟩
    · rw [if_neg (by simp [hfail])]
      refine ⟨by simp [putAcc, ok, g1, hfail, h.good_on], by simp [putAcc, e, a2], fun i => ?_⟩
      simp only [putAcc, p2, a3, List.length_append, List.length_singleton]
      congr 1; omega
    · rw [ok] at e; cases e
  · simp only [List.length_append, List.length_singleton] at hj
    by_cases hjl : j < st.length
    · obtain ⟨s1, s2⟩ := h.stops j hjl hk hf
      rw [if_pos s1]
      exact ⟨s1, by rw [s2, List.take_append_of_le_length (by omega)]⟩
    · have hje : j = st.length := by omega
      subst hje
      obtain ⟨a1, a2, a3⟩ := h.alike hk
      have hfail : bad.1.fail = false := by rw [a1]; exact h.good_on
      obtain ⟨p1, p2⟩ := put_answer bad.2 b
      have no : (bad.2.put b).1 = false := by rw [p1, a3]; exact hf
      rcases put_cases bad.2 b with ⟨e, _⟩ | ⟨_, e⟩
      · rw [no] at e; cases e
      · rw [if_neg (by simp [hfail])]
        exact ⟨by simp [putAcc, no], by simp [putAcc, e, a2]⟩

/-- Bits through the writer over any sink, beside the same bits over a good sink. -/
theorem beside_writeAll (bits : List Bool) (w : BitWriter) (k : Sink) (hw : w.fail = false) :
    ∃ st, (writeAll bits (w, k.madeGood)).2.bytes = k.bytes ++ st ∧
      Beside k st (writeAll bits (w, k.madeGood)) (writeAll bits (w, k)) ∧
      ((writeAll bits (w, k)).1.fail = false →
        (writeAll bits (w, k)).1 = (writeAll bits (w, k.madeGood)).1) := by
  induction bits using List.reverseRecOn with
  | nil =>
    refine ⟨[], by simp [Sink.madeGood], ⟨hw, ⟨rfl, by simp [Sink.madeGood]⟩, ?_, ?_⟩, fun _ => rfl⟩
    · intro _; simp
    · intro j hj; simp at hj
  | append_singleton bs b ih =>
    obtain ⟨st, e, h, hb⟩ := ih
    simp only [writeAll_append, writeAll_cons, writeAll_nil]
    generalize writeAll bs (w, k.madeGood) = good at *
    generalize writeAll bs (w, k) = bad at *
    by_cases h7 : good.1.cnt = 7#3
    · have hp := beside_put k st good bad
        (good.1.acc ||| ((BitVec.ofBool b).setWidth 8 <<< (7 - good.1.cnt.toNat))) h
      have eg : writeBit b good = putAcc ({ good.1 with
          acc := good.1.acc ||| ((BitVec.ofBool b).setWidth 8 <<< (7 - good.1.cnt.toNat)) },
          good.2) := by
        simp only [writeBit, h.good_on, h7, Bool.false_eq_true, if_false, if_true]
      have eb : writeBit b bad = if bad.1.fail then bad else putAcc ({ bad.1 with
          acc := good.1.acc ||| ((BitVec.ofBool b).setWidth 8 <<< (7 - good.1.cnt.toNat)) },
          bad.2) := by
        by_cases hf : bad.1.fail = true
        · rw [if_pos hf, writeBit_failed b bad hf]
        · have hbe := hb (by simpa using hf)
          rw [if_neg hf, writeBit, if_neg hf, hbe, if_pos h7]
      rw [eg, eb]
      obtain ⟨g1, g2, -⟩ := put_good good.2
        (good.1.acc ||| ((BitVec.ofBool b).setWidth 8 <<< (7 - good.1.cnt.toNat))) h.sink_good
      refine ⟨_, by simp only [putAcc, g2, e, List.append_assoc], hp, fun hn => ?_⟩
      by_cases hf : bad.1.fail = true
      · rw [if_pos hf] at hn; rw [hf] at hn; cases hn
      · rw [if_neg hf] at hn ⊢
        simp only [putAcc] at hn ⊢
        rw [hn]; simp [g1, h.good_on]
    · have eg : writeBit b good = ({ good.1 with
          acc := good.1.acc ||| ((BitVec.ofBool b).setWidth 8 <<< (7 - good.1.cnt.toNat))
          cnt := good.1.cnt + 1#3 }, good.2) := by
        simp only [writeBit, h.good_on, h7, Bool.false_eq_true, if_false]
      have eb : bad.1.fail = false → writeBit b bad = ((writeBit b good).1, bad.2) := by
        intro hf
        have hbe := hb hf
        rw [eg, writeBit, if_neg (by simp [hf]), hbe, if_neg h7]
      refine ⟨st, by rw [eg]; exact e, ⟨by rw [eg]; exact h.good_on, by rw [eg]; exact h.sink_good,
        fun hk => ?_, fun j hj hk hf => ?_⟩, fun hn => ?_⟩
      · obtain ⟨a1, a2, a3⟩ := h.alike hk
        rw [eb (by rw [a1]; exact h.good_on)]
        exact ⟨rfl, a2, a3⟩
      · obtain ⟨s1, s2⟩ := h.stops j hj hk hf
        rw [writeBit_failed b bad s1]; exact ⟨s1, s2⟩
      · by_cases hf : bad.1.fail = true
        · rw [writeBit_failed b bad hf, hf] at hn; cases hn
        · rw [eb (by simpa using hf)]

/-- Bits through the writer and the closing flush, over any sink, beside the same over a good sink. -/
theorem beside_flush (bits : List Bool) (w : BitWriter) (k : Sink) (hw : w.fail = false) :
    ∃ st, (flushBits (writeAll bits (w, k.madeGood))).2.bytes = k.bytes ++ st ∧
      Beside k st (flushBits (writeAll bits (w, k.madeGood))) (flushBits (writeAll bits (w, k))) := by
  obtain ⟨st, e, h, hb⟩ := beside_writeAll bits w k hw
  generalize writeAll bits (w, k.madeGood) = good at *
  generalize writeAll bits (w, k) = bad at *
  by_cases h0 : good.1.cnt = 0#3
  · have eg : flushBits good = good := by simp [flushBits, h0]
    have eb : flushBits bad = bad := by
      by_cases hf : bad.1.fail = true
      · simp [flushBits, hf]
      · have hbe := hb (by simpa using hf)
        simp [flushBits, hbe, h0]
    rw [eg, eb]; exact ⟨st, e, h⟩
  · have hp := beside_put k st good bad good.1.acc h
    have eg : flushBits good = putAcc ({ good.1 with acc := good.1.acc }, good.2) := by
      rw [flushBits, if_neg (by simp [h.good_on]), if_neg h0]
    have eb : flushBits bad
        = if bad.1.fail then bad else putAcc ({ bad.1 with acc := good.1.acc }, bad.2) := by
      by_cases hf : bad.1.fail = true
      · simp [flushBits, hf]
      · have hbe := hb (by simpa using hf)
        rw [if_neg hf, flushBits, if_neg hf, hbe, if_neg h0]
        obtain ⟨bw, bs⟩ := bad
        simp only at hbe
        rw [hbe]
    rw [eg, eb]
    obtain ⟨-, g2, -⟩ := put_good good.2 good.1.acc h.sink_good
    exact ⟨_, by simp only [putAcc, g2, e, List.append_assoc], hp⟩

end Sys2Proof.Machine
end

