-- ==== Sys2Proof/Laws/Step.lean ====
section
/-! SUPPORT. Once for all steps: what a host access can come to (10_state.md R21, 30_encoding.md R99),
and that every command but a walk in a broken tree ends (60_exceptions.md R254). -/

namespace Sys2Proof.Machine

/-- A step waits or takes the next input. -/
theorem step_cases (s t : State) (h : step s = .next t) :
    (s.inputs = [] ∧ t = s) ∨
      ∃ a rest, s.inputs = a :: rest ∧ accept a { s with inputs := rest } = .next t := by
  rw [step, stepBody] at h
  split at h
  next e => simp at h; exact .inl ⟨e, h.symm⟩
  next a rest e => exact .inr ⟨a, rest, e, h⟩

/-- What a write to CMD can come to (R99). -/
theorem writeCmd_cases (v : Word) (s t : State) (h : writeCmd v s = .next t) :
    (s.fault = true ∧ v ≠ Config.initValue ∧ t = s) ∨
      ((s.fault = true → v = Config.initValue) ∧ t = resetCore s) ∨
      (s.fault = false ∧ t = raiseFault .illegalCommand v s) ∨
      ∃ i, i ≠ .init ∧ s.fault = false ∧ decode v = .ok i ∧ exec i s = .next t := by
  rw [writeCmd] at h
  split at h
  next hf =>
    split at h
    next hv => simp [exec, execInit] at h; exact .inr (.inl ⟨fun _ => hv, h.symm⟩)
    next hv => simp at h; exact .inl ⟨hf, hv, h.symm⟩
  next hf =>
    have hf' : s.fault = false := by simpa using hf
    split at h
    next => simp at h; exact .inr (.inr (.inl ⟨hf', h.symm⟩))
    next i hi =>
      by_cases e : i = .init
      · subst e; simp [exec, execInit] at h
        exact .inr (.inl ⟨fun g => absurd g hf, h.symm⟩)
      · exact .inr (.inr (.inr ⟨i, e, hf', hi, h⟩))

/-- What `RegWrite(i, v)` can come to (R21). -/
theorem hostWrite_cases (i : Nat) (v : Word) (s t : State) (h : hostWrite i v s = .next t) :
    (i = 0 ∧ ∃ u, writeCmd v s = .next u ∧ t = reply .done u) ∨
      (∃ r, t = reply r s) ∨ ∃ r, t = reply r { s with opr := v } := by
  match i with
  | 0 =>
    rw [hostWrite] at h
    cases e : writeCmd v s with
    | next u => rw [e] at h; simp [onNext] at h; exact .inl ⟨rfl, u, rfl, h.symm⟩
    | fault r => rw [e] at h; simp [onNext] at h
    | refused r => rw [e] at h; simp [onNext] at h
  | 1 => rw [hostWrite] at h; simp at h; exact .inr (.inr ⟨_, h.symm⟩)
  | n + 2 =>
    rw [hostWrite] at h
    · split at h <;> simp at h <;> exact .inr (.inl ⟨_, h.symm⟩)
    · simp
    · simp

theorem hostRead_eq (i : Nat) (s : State) : ∃ r, hostRead i s = reply r s := by
  rw [hostRead]; split <;> exact ⟨_, rfl⟩

/-- What one input can come to. -/
theorem accept_cases (a : Input) (s t : State) (h : accept a s = .next t) :
    (a = .hwReset ∧ t = resetCore s) ∨
      (∃ r, t = reply r s) ∨ (∃ r v, t = reply r { s with opr := v }) ∨
      ∃ v u, (a = .regWrite 0 v ∨ a = .busWrite 0 8 v) ∧ writeCmd v s = .next u ∧
        t = reply .done u := by
  cases a with
  | regRead i =>
    simp only [accept, Host.Outcome.next.injEq] at h
    obtain ⟨r, e⟩ := hostRead_eq i s
    exact .inr (.inl ⟨r, h.symm.trans e⟩)
  | regWrite i v =>
    rcases hostWrite_cases i v s t h with ⟨rfl, u, e, e'⟩ | ⟨r, e⟩ | ⟨r, e⟩
    · exact .inr (.inr (.inr ⟨v, u, .inl rfl, e, e'⟩))
    · exact .inr (.inl ⟨r, e⟩)
    · exact .inr (.inr (.inl ⟨r, v, e⟩))
  | busRead o w =>
    simp only [accept] at h
    split at h
    next i _ =>
      simp only [Host.Outcome.next.injEq] at h
      obtain ⟨r, e⟩ := hostRead_eq i s
      exact .inr (.inl ⟨r, h.symm.trans e⟩)
    next => simp only [Host.Outcome.next.injEq] at h; exact .inr (.inl ⟨_, h.symm⟩)
  | busWrite o w v =>
    simp only [accept] at h
    split at h
    next i hi =>
      rcases hostWrite_cases i v s t h with ⟨rfl, u, e, e'⟩ | ⟨r, e⟩ | ⟨r, e⟩
      · have ho : o = 0 ∧ w = 8 := by
          simp only [busRegister] at hi
          split at hi
          next g => simp only [Option.some.injEq] at hi; exact ⟨by omega, g.1⟩
          next => cases hi
        obtain ⟨rfl, rfl⟩ := ho
        exact .inr (.inr (.inr ⟨v, u, .inr rfl, e, e'⟩))
      · exact .inr (.inl ⟨r, e⟩)
      · exact .inr (.inr (.inl ⟨r, v, e⟩))
    next => simp only [Host.Outcome.next.injEq] at h; exact .inr (.inl ⟨_, h.symm⟩)
  | hwReset => simp only [accept, Host.Outcome.next.injEq] at h; exact .inl ⟨rfl, h.symm⟩

/-- Every command ends in a state whose tree fits (R254, R272). -/
theorem exec_ends (i : Instr) (s : State) (h : TreesFit s) : ∃ t, exec i s = .next t := by
  have need : ∀ (w : Word) (r : Result State), (s.treeOk = true → r ≠ .endless) →
      ∃ t, needTree w s (finish r) = .next t := by
    intro w r hr
    cases hb : s.treeOk with
    | true => rw [needTree_ok w s _ hb]; exact finish_next r (hr hb)
    | false => exact ⟨_, needTree_missing w s _ hb⟩
  have needT : ∀ (w : Word) (r : Result State), r ≠ .endless →
      ∃ t, needTable w s (finish r) = .next t := by
    intro w r hr
    cases hb : s.ctOk with
    | true => rw [needTable_ok w s _ hb]; exact finish_next r hr
    | false => exact ⟨_, needTable_missing w s _ hb⟩
  have scan : ∀ n u, scanLoop n u ≠ .endless := by
    intro n
    induction n with
    | zero => intro u; simp [scanLoop]
    | succ n ih =>
      intro u
      simp only [scanLoop]
      split
      · simp
      · simp only [ftInc]
        split
        · simp
        · exact ih _
  have pay : ∀ n u, encPayLoop n u ≠ .endless := by
    intro n
    induction n with
    | zero => intro u; simp [encPayLoop]
    | succ n ih =>
      intro u
      simp only [encPayLoop]
      split
      · simp
      · simp only [encSym]
        split
        · exact ih _
        · simp
  cases i with
  | nop => exact ⟨_, rfl⟩
  | init => exact ⟨_, rfl⟩
  | wbit b => exact ⟨_, rfl⟩
  | wbits n => exact ⟨_, rfl⟩
  | wflush => exact ⟨_, rfl⟩
  | rbit => exact ⟨_, rfl⟩
  | rbits n => exact ⟨_, rfl⟩
  | ftclr => exact ⟨_, rfl⟩
  | ftinc v =>
    refine finish_next _ ?_
    simp only [ftInc]; split <;> simp
  | ftrd v => exact ⟨_, rfl⟩
  | scan => exact finish_next _ (scan _ _)
  | build => exact finish_next _ (buildBody_frame s).1
  | ndrd idx => exact need _ (.ok _) fun _ => by simp
  | ctgen => exact need _ _ fun ht => (ctgenBody_frame s ht h).1
  | ctlen v => exact needT _ (.ok _) (by simp)
  | ctrd v w => exact needT _ (.ok _) (by simp)
  | encsym v =>
    refine needT _ _ ?_
    simp only [encSym]; split <;> simp
  | decsym =>
    refine need _ _ fun _ => ?_
    obtain ⟨p, -, ⟨v, e⟩ | e⟩ := decSym_cases 0#64 s <;> rw [e] <;> simp
  | wrhdr => exact ⟨_, rfl⟩
  | rdhdr => exact finish_next _ (rdHdr_ends s)
  | srcrw => exact ⟨_, rfl⟩
  | encpay => exact needT _ _ (pay _ _)
  | decpay => exact need _ _ fun _ => decPay_ends s
  | encode => exact finish_next _ (encodeBody_frame s).1
  | decode => exact finish_next _ (decodeBody_frame s).1

end Sys2Proof.Machine
end

