-- ==== Sys2Proof/Laws/Procedures.lean ====
section
/-! SUPPORT. ENCODE and DECODE as wholes (45_codec.md R212 to R217): what they compute where nothing
raises on the way. -/

namespace Sys2Proof.Machine

/-! ### The tree of a source -/

/-- CTGEN (R172) depends on node memory and `nnodes` alone (R179). -/
theorem ctgenBody_of_nodes (m : NodeMem) (n : BitVec 9) (L : Nat) (ht : TreeShape m n L) :
    ∃ ct : SymTable CodeEntry,
      (∀ s : State, s.node = m → s.nnodes = n →
        ctgenBody s = .ok { s with ct := ct, ctOk := true } ∧ TableOfTree { s with ct := ct }) ∧
      ∀ bits v, LeafAt m (n - 1#9) bits v → symGet ct v = entryOf bits ∧ codeBits ct v = bits := by
  obtain ⟨ct, e1, -, -⟩ := ctgenBody_tree { State.reset with node := m, nnodes := n } L ht
  have hv : visit m visitDepth (n - 1#9) 0#8 0#256 (Vector.replicate 256 CodeEntry.none)
      = some ct := by
    rw [ctgenBody] at e1
    cases hv : visit m visitDepth (n - 1#9) 0#8 0#256 (Vector.replicate 256 CodeEntry.none) with
    | none => simp [hv] at e1
    | some t => simp [hv] at e1; rw [e1]
  have key : ∀ s : State, s.node = m → s.nnodes = n →
      ctgenBody s = .ok { s with ct := ct, ctOk := true } := by
    rintro s rfl rfl
    simp only [ctgenBody, hv]
  refine ⟨ct, fun s h1 h2 => ⟨key s h1 h2, ?_⟩, fun bits v hl => ?_⟩
  · obtain ⟨ct', e1', e2', -⟩ := ctgenBody_tree s L (by rw [h1, h2]; exact ht)
    rw [key s h1 h2] at e1'
    have : ct = ct' := congrArg State.ct (Result.ok.inj e1')
    rw [this]; exact e2'
  · obtain ⟨ct', e1', -, e3'⟩ := ctgenBody_tree { State.reset with node := m, nnodes := n } L ht
    rw [key _ rfl rfl] at e1'
    have : ct = ct' := congrArg State.ct (Result.ok.inj e1')
    have he := e3' bits v hl
    rw [← this] at he
    exact ⟨he, codeBits_entryOf ct v bits he
      (isCode_length (s := { State.reset with node := m, nnodes := n }) ht hl)⟩

/-- A symbol with a count has a path in the tree built from the counts. -/
theorem present_path (ft : SymTable Word) (b : Builder) (hb : Building ft b)
    (h1 : b.pq.length = 1) (v : Byte) (hv : symGet ft v ≠ 0#64) :
    ∃ bits, LeafAt b.node (BitVec.ofNat 9 b.next - 1#9) bits v := by
  have ht := built_treeShape ft b hb h1
  have hL := leafCount_le ft
  obtain ⟨i, hi, e⟩ := List.getElem_of_mem ((mem_presentSyms ft v).mpr hv)
  have hi' : i < leafCount ft := hi
  have hn : (BitVec.ofNat 9 i).toNat = i := by simp; omega
  obtain ⟨bits, hp⟩ := leaf_reached ht (BitVec.ofNat 9 i) (by omega)
  have hl := hb.leaves i hi
  refine ⟨bits, _, hp, ?_, ?_⟩
  · rw [hn, hl]; rfl
  · rw [hn, hl]; exact e

/-- A leaf of the tree built from the counts holds a symbol with a count. -/
theorem leafAt_present (ft : SymTable Word) (b : Builder) (hb : Building ft b)
    (h1 : b.pq.length = 1) (bits : List Bool) (v : Byte)
    (h : LeafAt b.node (BitVec.ofNat 9 b.next - 1#9) bits v) : symGet ft v ≠ 0#64 := by
  obtain ⟨j, j1, j2, rfl⟩ := h
  have ht := built_treeShape ft b hb h1
  have hs := ht.some_leaf
  have hr := root_lt ht
  have hd := (path_descends ht _ j bits (by omega) j1).1
  have hj : j.toNat < (presentSyms ft).length := (ht.leaves j.toNat (by omega)).mp j2
  rw [hb.leaves j.toNat hj]
  exact (mem_presentSyms ft _).mp (List.getElem_mem hj)

theorem countsOf_present (bytes : List Byte) (h : bytes.length < 2 ^ 64) (v : Byte) :
    symGet (countsOf bytes) v ≠ 0#64 ↔ v ∈ bytes := by
  rw [symGet_countsOf, ← List.count_pos_iff]
  have hle := List.count_le_length (a := v) (l := bytes)
  rw [ne_eq, ← BitVec.toNat_inj, BitVec.toNat_ofNat, Nat.mod_eq_of_lt (by omega)]
  simp only [BitVec.toNat_ofNat, Nat.zero_mod]; omega

/-! ### ENCODE (R212) -/

/-- The first pass (R212 step 1) over a source of less than `2^64` bytes. -/
theorem scan_start (s u : State) (hu : u.src = { s.src with pos := 0 })
    (hft : u.ft = Vector.replicate 256 0#64) (hn : u.ntot = 0#64)
    (hl : s.src.bytes.length < 2 ^ 64) :
    scanBody u = .ok { u with
      ft := countsOf s.src.bytes, ntot := BitVec.ofNat 64 s.src.bytes.length
      src := { s.src with pos := s.src.bytes.length } } := by
  have hr : u.src.rest = s.src.bytes := by simp [hu, Source.rest]
  have hc : ∀ v, (symGet u.ft v).toNat = 0 := by simp [hft]
  obtain ⟨ft, e1, e2⟩ := scanBody_counts u
    (fun v => by rw [hc, hr]; have := List.count_le_length (a := v) (l := s.src.bytes); omega)
    (by rw [hn, hr]; simpa using hl)
  have hfe : ft = countsOf s.src.bytes := by
    apply symTable_ext
    intro v
    apply BitVec.eq_of_toNat_eq
    rw [e2, hc, hr, symGet_countsOf, BitVec.toNat_ofNat]
    have := List.count_le_length (a := v) (l := s.src.bytes)
    omega
  rw [e1, hr, hfe, hn, hu]
  simp

/-- The second pass (R212 steps 4 and 5) behind whatever the writer was given before. -/
theorem encPay_start (u : State) (p : BitWriter × Sink)
    (hv : ∀ b ∈ u.src.bytes, (symGet u.ct b).valid = true) :
    encPay (srcRewind (u.setOut p)) = .ok { u with
      bw := (writeAll (u.src.bytes.flatMap (codeBits u.ct)) p).1
      snk := (writeAll (u.src.bytes.flatMap (codeBits u.ct)) p).2
      src := { u.src with pos := u.src.bytes.length } } := by
  obtain ⟨w, k⟩ := p
  have hr : (srcRewind (u.setOut (w, k))).src.rest = u.src.bytes := by
    simp [srcRewind, Source.rewind, Source.rest, State.setOut]
  rw [encPay_sends _ (by rw [hr]; exact hv), hr]
  simp only [srcRewind, Source.rewind, State.setOut, Nat.zero_add]

/-- The close of ENCODE (R212) behind any bits given to an empty writer over a good sink: the bits,
then zeros up to the byte boundary. -/
theorem closeEncode_good (bits : List Bool) (k : Sink) (hk : k.Good) :
    let q := (flushBits (writeAll bits (BitWriter.empty, k))).2
    (∀ u : State, (u.bw, u.snk) = writeAll bits (BitWriter.empty, k) →
      closeEncode u = .ok { u with bw := BitWriter.empty, snk := q }) ∧
    q.Good ∧
    bitsOf q.bytes
      = bitsOf k.bytes ++ bits ++ List.replicate ((8 - bits.length % 8) % 8) false := by
  obtain ⟨g1, g2, g3, g4, g5⟩ := writeAll_good bits (BitWriter.empty, k) emptyWriter_wf rfl hk
  obtain ⟨f1, f2, f3⟩ := flushBits_good _ g2 g3 g4
  refine ⟨fun u hu => ?_, f3, ?_⟩
  · have e : bwFlush u = { u with
        bw := BitWriter.empty, snk := (flushBits (writeAll bits (BitWriter.empty, k))).2 } := by
      rw [bwFlush, hu, State.setOut, f2]
    rw [closeEncode, e]
    rfl
  · have hc : (writeAll bits (BitWriter.empty, k)).1.cnt.toNat = bits.length % 8 := by
      rw [g5]; simp [BitWriter.empty]
    rw [f1, g1, hc]
    simp [outBits, pendingBits, BitWriter.empty]

/-- The close of ENCODE (R212) over a sink that takes the puts the bits need: the same bits, and the
sink's later answers are the ones behind those puts. -/
theorem closeEncode_room (bits : List Bool) (k : Sink)
    (hk : ∀ i, i < (bits.length + 7) / 8 → k.answer i = true) :
    let q := (flushBits (writeAll bits (BitWriter.empty, k))).2
    (∀ u : State, (u.bw, u.snk) = writeAll bits (BitWriter.empty, k) →
      closeEncode u = .ok { u with bw := BitWriter.empty, snk := q }) ∧
    bitsOf q.bytes
      = bitsOf k.bytes ++ bits ++ List.replicate ((8 - bits.length % 8) % 8) false ∧
    ∀ i, q.answer i = k.answer ((bits.length + 7) / 8 + i) := by
  obtain ⟨st, e, h⟩ := beside_flush bits BitWriter.empty k rfl
  have hg : k.madeGood.Good := ⟨rfl, by simp [Sink.madeGood]⟩
  obtain ⟨g1, g2, g3, g4, g5⟩ := writeAll_good bits (BitWriter.empty, k.madeGood) emptyWriter_wf rfl hg
  obtain ⟨-, f2, -⟩ := flushBits_good _ g2 g3 g4
  obtain ⟨-, -, hbits⟩ := closeEncode_good bits k.madeGood hg
  have hmade : bitsOf k.madeGood.bytes = bitsOf k.bytes := rfl
  rw [hmade, e, bitsOf_append, List.append_assoc] at hbits
  have hst := List.append_cancel_left hbits
  have hlen : st.length = (bits.length + 7) / 8 := by
    have := congrArg List.length hst
    rw [bitsOf_length, List.length_append, List.length_replicate] at this
    omega
  obtain ⟨a1, a2, a3⟩ := h.alike (by rw [hlen]; exact hk)
  refine ⟨fun u hu => ?_, ?_, fun i => by rw [a3, hlen]⟩
  · have hw : (flushBits (writeAll bits (BitWriter.empty, k))).1 = BitWriter.empty := a1.trans f2
    have e : bwFlush u = { u with
        bw := BitWriter.empty, snk := (flushBits (writeAll bits (BitWriter.empty, k))).2 } := by
      rw [bwFlush, hu, State.setOut, hw]
    rw [closeEncode, e]
    rfl
  · rw [a2, bitsOf_append, hst, List.append_assoc]

/-- ENCODE up to its closing flush (R212), over any sink. -/
theorem encodeBody_run (s : State) (hb : s.src.bytes ≠ []) (hl : s.src.bytes.length < 2 ^ 64) :
    ∃ ct : SymTable CodeEntry,
      let ft := countsOf s.src.bytes
      let n := BitVec.ofNat 64 s.src.bytes.length
      let b := treeOf ft (unspecifiedNodes (s.draws + 1))
      let p := writeAll (headerBits ft n ++ s.src.bytes.flatMap (codeBits ct))
        (BitWriter.empty, s.snk)
      Building ft b ∧ b.pq.length = 1 ∧
      (∀ u : State, u.node = b.node → u.nnodes = BitVec.ofNat 9 b.next →
        ctgenBody u = .ok { u with ct := ct, ctOk := true } ∧ TableOfTree { u with ct := ct }) ∧
      (∀ bits v, LeafAt b.node (BitVec.ofNat 9 b.next - 1#9) bits v →
        symGet ct v = entryOf bits ∧ codeBits ct v = bits) ∧
      (∀ v ∈ s.src.bytes, (symGet ct v).valid = true ∧
        LeafAt b.node (BitVec.ofNat 9 b.next - 1#9) (codeBits ct v) v) ∧
      encodeBody s = closeEncode { s with
        ft := ft, ntot := n, node := b.node, nnodes := BitVec.ofNat 9 b.next, treeOk := true
        ct := ct, ctOk := true, bw := p.1, br := BitReader.empty
        src := { s.src with pos := s.src.bytes.length }, snk := p.2, draws := s.draws + 2 } := by
  have hscan := scan_start s (srcRewind (clearUnits s)) rfl rfl rfl hl
  have hex : ∃ v, symGet (countsOf s.src.bytes) v ≠ 0#64 := by
    obtain ⟨x, xs, hx⟩ := List.exists_cons_of_ne_nil hb
    exact ⟨x, (countsOf_present _ hl x).mpr (by simp [hx])⟩
  obtain ⟨b1, b2⟩ := treeOf_built (countsOf s.src.bytes) (unspecifiedNodes (s.draws + 1)) hex
  have b3 : ∀ u : State, u.ft = countsOf s.src.bytes → u.draws = s.draws + 1 → buildBody u
      = .ok { invalidate u with
          node := (treeOf (countsOf s.src.bytes) (unspecifiedNodes (s.draws + 1))).node
          nnodes := BitVec.ofNat 9 (treeOf (countsOf s.src.bytes) (unspecifiedNodes (s.draws + 1))).next
          treeOk := true } := by
    intro u h1 h2
    rw [buildBody_ok u (h1 ▸ hex), h1, h2]
  simp only
  generalize treeOf (countsOf s.src.bytes) (unspecifiedNodes (s.draws + 1)) = b at *
  obtain ⟨ct, c1, c2⟩ := ctgenBody_of_nodes _ _ _ (built_treeShape _ _ b1 b2)
  have hvalid : ∀ v ∈ s.src.bytes, (symGet ct v).valid = true ∧
      LeafAt b.node (BitVec.ofNat 9 b.next - 1#9) (codeBits ct v) v := by
    intro v hv
    obtain ⟨bits, hp⟩ := present_path _ _ b1 b2 v ((countsOf_present _ hl v).mpr hv)
    obtain ⟨d1, d2⟩ := c2 bits v hp
    exact ⟨by rw [d1]; rfl, by rw [d2]; exact hp⟩
  have hn0 : BitVec.ofNat 64 s.src.bytes.length ≠ 0#64 := by
    intro e
    have := congrArg BitVec.toNat e
    rw [BitVec.toNat_ofNat, Nat.mod_eq_of_lt hl] at this
    exact hb (List.length_eq_zero_iff.mp (by simpa using this))
  refine ⟨ct, b1, b2, c1, c2, hvalid, ?_⟩
  have hct := fun (u : State) h1 h2 => (c1 u h1 h2).1
  rewrite [encodeBody, hscan, bind_ok, if_neg hn0, b3, bind_ok, hct, bind_ok, wrHdr_eq,
    encPay_start, bind_ok]
  · rewrite [writeAll_append]
    simp only [srcRewind, Source.rewind, invalidate, drawNodes, clearUnits, clearTable]
  · intro v hv
    exact (hvalid v hv).1
  all_goals rfl

/-- The same with every long term named by a variable, so that a proof can take it apart without
Lean ever comparing two headers bit by bit. -/
theorem encodeBody_parts (s : State) (hb : s.src.bytes ≠ []) (hl : s.src.bytes.length < 2 ^ 64) :
    ∃ (ct : SymTable CodeEntry) (b : Builder) (bits : List Bool) (p : BitWriter × Sink),
      b = treeOf (countsOf s.src.bytes) (unspecifiedNodes (s.draws + 1)) ∧
      bits = headerBits (countsOf s.src.bytes) (BitVec.ofNat 64 s.src.bytes.length)
        ++ s.src.bytes.flatMap (codeBits ct) ∧
      p = writeAll bits (BitWriter.empty, s.snk) ∧
      Building (countsOf s.src.bytes) b ∧ b.pq.length = 1 ∧
      (∀ u : State, u.node = b.node → u.nnodes = BitVec.ofNat 9 b.next →
        ctgenBody u = .ok { u with ct := ct, ctOk := true } ∧ TableOfTree { u with ct := ct }) ∧
      (∀ bits v, LeafAt b.node (BitVec.ofNat 9 b.next - 1#9) bits v →
        symGet ct v = entryOf bits ∧ codeBits ct v = bits) ∧
      (∀ v ∈ s.src.bytes, (symGet ct v).valid = true ∧
        LeafAt b.node (BitVec.ofNat 9 b.next - 1#9) (codeBits ct v) v) ∧
      encodeBody s = closeEncode { s with
        ft := countsOf s.src.bytes, ntot := BitVec.ofNat 64 s.src.bytes.length
        node := b.node, nnodes := BitVec.ofNat 9 b.next, treeOk := true
        ct := ct, ctOk := true, bw := p.1, br := BitReader.empty
        src := { s.src with pos := s.src.bytes.length }, snk := p.2, draws := s.draws + 2 } := by
  obtain ⟨ct, h1, h2, h3, h4, h5, h6⟩ := encodeBody_run s hb hl
  exact ⟨ct, treeOf (countsOf s.src.bytes) (unspecifiedNodes (s.draws + 1)),
    headerBits (countsOf s.src.bytes) (BitVec.ofNat 64 s.src.bytes.length)
      ++ s.src.bytes.flatMap (codeBits ct),
    writeAll (headerBits (countsOf s.src.bytes) (BitVec.ofNat 64 s.src.bytes.length)
      ++ s.src.bytes.flatMap (codeBits ct)) (BitWriter.empty, s.snk),
    rfl, rfl, rfl, h1, h2, h3, h4, h5, h6⟩

/-! ### One tree for both sides (R215) -/

/-- Paths look only at the entries of the tree. -/
theorem followPath_same {m k : NodeMem} {n : BitVec 9} {L : Nat} (ht : TreeShape m n L)
    (hs : ∀ i, i < 2 * L - 1 → nodeAt m i = nodeAt k i) (i : NodeIdx) (bits : List Bool)
    (hi : i.toNat < 2 * L - 1) : followPath k i bits = followPath m i bits := by
  induction bits generalizing i with
  | nil => rfl
  | cons b bs ih =>
    simp only [followPath, ← hs i.toNat hi]
    split
    · rfl
    next hl =>
      have hiL : L ≤ i.toNat := by
        by_contra hc; exact hl ((ht.leaves i.toNat hi).mpr (by omega))
      have hlb := ht.left_below i.toNat hiL hi
      have hrb := ht.right_below i.toNat hiL hi
      apply ih
      cases b
      · simp only [Bool.false_eq_true, if_false]; omega
      · simp only [if_true]; omega

/-- Two cores with the same counts build the same entries, whatever their node memories held. -/
theorem treeOf_same (ft : SymTable Word) (m k : NodeMem) : SameBuild (treeOf ft m) (treeOf ft k) := by
  have hlen : (addLeaves ft k).pq.length = (addLeaves ft m).pq.length := by
    rw [(addLeaves_spec ft k).2.1, (addLeaves_spec ft m).2.1]
  rw [treeOf, treeOf, hlen]
  exact sameBuild_combineAll _ (sameBuild_leaves ft m k)

/-- The same, read through `nnodes`. -/
theorem treeOf_entries (ft : SymTable Word) (m k : NodeMem) (i : Nat)
    (hi : i < (BitVec.ofNat 9 (treeOf ft m).next).toNat) :
    nodeAt (treeOf ft k).node i = nodeAt (treeOf ft m).node i :=
  ((treeOf_same ft m k).same i (Nat.lt_of_lt_of_le hi (Nat.mod_le _ _))).symm

/-- Two cores with the same counts have the same paths, whatever their node memories held. -/
theorem treeOf_paths (ft : SymTable Word) (m k : NodeMem) (h : ∃ v, symGet ft v ≠ 0#64)
    (bits : List Bool) (v : Byte) :
    (treeOf ft k).next = (treeOf ft m).next ∧
      (LeafAt (treeOf ft m).node (BitVec.ofNat 9 (treeOf ft m).next - 1#9) bits v →
        LeafAt (treeOf ft k).node (BitVec.ofNat 9 (treeOf ft k).next - 1#9) bits v) := by
  obtain ⟨m1, m2⟩ := treeOf_built ft m h
  have hs := treeOf_same ft m k
  have ht := built_treeShape ft _ m1 m2
  have hb := (built_shape ft _ m1 m2).1
  have hL := leafCount_le ft
  have h1 := ht.some_leaf
  refine ⟨hs.next.symm, ?_⟩
  rintro ⟨j, j1, j2, j3⟩
  have hr := root_lt ht
  have same : ∀ i, i < 2 * leafCount ft - 1 →
      nodeAt (treeOf ft m).node i = nodeAt (treeOf ft k).node i := fun i hi =>
    hs.same i (by omega)
  have hd := (path_descends ht _ j bits (by omega) j1).1
  rw [← hs.next]
  refine ⟨j, (followPath_same ht same _ bits (by omega)).trans j1, ?_, ?_⟩
  · rw [← same _ (by omega)]; exact j2
  · rw [← same _ (by omega)]; exact j3

/-- CTGEN on the tree of the counts, whatever node memory BUILD started over, writes the code table
of the counts (R179). -/
theorem ctgenBody_tableOf (ft : SymTable Word) (m : NodeMem) (h : ∃ v, symGet ft v ≠ 0#64) (u : State)
    (hm : u.node = (treeOf ft m).node) (hn : u.nnodes = BitVec.ofNat 9 (treeOf ft m).next) :
    ctgenBody u = .ok { u with ct := codeTableOf ft, ctOk := true } := by
  have shape : ∀ k, TreeShape (treeOf ft k).node (BitVec.ofNat 9 (treeOf ft k).next)
      (leafCount ft) := fun k =>
    built_treeShape ft _ (treeOf_built ft k h).1 (treeOf_built ft k h).2
  obtain ⟨ct, c1, c2⟩ := ctgenBody_of_nodes _ _ _ (shape m)
  obtain ⟨dt, d1, d2⟩ := ctgenBody_of_nodes _ _ _ (shape (Vector.replicate 511 Node.zero))
  have hd : codeTableOf ft = dt := by
    have e := (d1 { State.reset with
      node := (treeOfCounts ft).node, nnodes := BitVec.ofNat 9 (treeOfCounts ft).next } rfl rfl).1
    rw [codeTableOf]
    simp only [ctgenBody] at e
    cases hv : visit (treeOfCounts ft).node visitDepth
        (BitVec.ofNat 9 (treeOfCounts ft).next - 1#9) 0#8 0#256
        (Vector.replicate 256 CodeEntry.none) with
    | none => simp [hv] at e
    | some t => simp [hv] at e; exact e
  have same : ct = dt := by
    apply symTable_ext
    intro v
    by_cases hp : ∃ bits, LeafAt (treeOf ft m).node (BitVec.ofNat 9 (treeOf ft m).next - 1#9) bits v
    · obtain ⟨bits, hp⟩ := hp
      rw [(c2 bits v hp).1, (d2 bits v ((treeOf_paths ft m _ h bits v).2 hp)).1]
    · have none_of : ∀ k (t : SymTable CodeEntry) (w : State),
          w.node = (treeOf ft k).node → w.nnodes = BitVec.ofNat 9 (treeOf ft k).next →
          TableOfTree { w with ct := t } → symGet t v = CodeEntry.none := by
        intro k t w w1 w2 hT
        cases hv : (symGet t v).valid with
        | false => exact ((hT v).2 hv).1
        | true =>
          have hc := ((hT v).1 hv).1
          simp only [IsCode, w1, w2] at hc
          exact absurd ⟨_, (treeOf_paths ft k m h _ v).2 hc⟩ hp
      rw [none_of m ct { State.reset with
          node := (treeOf ft m).node, nnodes := BitVec.ofNat 9 (treeOf ft m).next } rfl rfl
          (c1 _ rfl rfl).2,
        none_of _ dt { State.reset with
          node := (treeOfCounts ft).node, nnodes := BitVec.ofNat 9 (treeOfCounts ft).next } rfl rfl
          (d1 _ rfl rfl).2]
  rw [hd, ← same]
  exact (c1 u hm hn).1

/-! ### DECODE (R214) -/

/-- DECODE of a stream that is a header and the paths of its symbols. -/
theorem decodeBody_run (s : State) (ft : SymTable Word) (out : List Byte)
    (paths : List (List Bool)) (more : List Bool) (h : ∃ v, symGet ft v ≠ 0#64)
    (hl : out.length < 2 ^ 64) (hk : ∀ k, k < out.length → s.snk.answer k = true)
    (hp : List.Forall₂ (IsCodeOf ft) paths out)
    (hin : bitsOf s.src.bytes
      = headerBits ft (BitVec.ofNat 64 out.length) ++ (paths.flatten ++ more)) :
    ∃ (r : BitReader) (p : Source) (k : Sink),
      decodeBody s = .ok { s with
        ft := ft, ntot := BitVec.ofNat 64 out.length
        node := (treeOf ft (unspecifiedNodes (s.draws + 2))).node
        nnodes := BitVec.ofNat 9 (treeOf ft (unspecifiedNodes (s.draws + 2))).next
        treeOk := true, ctOk := false, bw := BitWriter.empty, br := r, src := p, snk := k
        draws := s.draws + 3 } ∧
      inBits (r, p) = more ∧ r.eof = false ∧ p.bytes = s.src.bytes ∧
      k.bytes = s.snk.bytes ++ out ∧ ∀ j, k.answer j = s.snk.answer (out.length + j) := by
  have hin' : inBits ((srcRewind (clearUnits s)).br, (srcRewind (clearUnits s)).src)
      = headerBits ft (BitVec.ofNat 64 out.length) ++ (paths.flatten ++ more) := by
    rw [← hin]
    simp [inBits, srcRewind, clearUnits, Source.rewind, BitReader.empty, fieldBits, invalidate,
      clearTable]
  obtain ⟨p, h1, h2, h3, h4⟩ := rdHdr_header _ ft _ _ hin'
  have hp := hp.imp fun bits v hl =>
    (treeOf_paths ft _ (unspecifiedNodes (s.draws + 2)) h bits v).2 hl
  have b3 : ∀ u : State, u.ft = ft → u.draws = s.draws + 2 → buildBody u
      = .ok { invalidate u with
          node := (treeOf ft (unspecifiedNodes (s.draws + 2))).node
          nnodes := BitVec.ofNat 9 (treeOf ft (unspecifiedNodes (s.draws + 2))).next
          treeOk := true } := by
    intro u h1 h2
    rw [buildBody_ok u (h1 ▸ h), h1, h2]
  generalize treeOf ft (unspecifiedNodes (s.draws + 2)) = b at *
  have hn : (BitVec.ofNat 64 out.length).toNat = out.length := by
    rw [BitVec.toNat_ofNat, Nat.mod_eq_of_lt hl]
  obtain ⟨r, q, k, e1, e2, e3, e4, e5, e6⟩ := decPayLoop_puts out paths more 0 0#64
    { s with
      ft := ft, ntot := BitVec.ofNat 64 out.length, node := b.node
      nnodes := BitVec.ofNat 9 b.next, treeOk := true, ctOk := false
      bw := BitWriter.empty, br := p.1, src := p.2, draws := s.draws + 3 } hp h2 hk
  refine ⟨r, q, k, ?_, e2, e3.trans h3, e4.trans h4, e5, e6⟩
  have hpay : ∀ u : State, u.ntot = BitVec.ofNat 64 out.length →
      decPay u = decPayLoop (out.length + 0) 0#64 u := by
    intro u hu; rw [decPay, hu, hn]; rfl
  rewrite [decodeBody, h1, bind_ok, b3, bind_ok, hpay]
  · have d0 : ∀ i (u : State), decPayLoop 0 i u = .ok u := fun _ _ => rfl
    rewrite [d0] at e1
    simp only [invalidate, drawNodes, srcRewind, Source.rewind, clearUnits, clearTable]
    exact e1
  all_goals rfl

/-! ### The same stream in two states (R216) -/

/-- The descent looks only at the entries of the tree. -/
theorem descend_same {m k : NodeMem} {n : BitVec 9} {L : Nat} (ht : TreeShape m n L)
    (hs : ∀ i, i < 2 * L - 1 → nodeAt m i = nodeAt k i) (fuel : Nat) (i : NodeIdx)
    (p : BitReader × Source) (hi : i.toNat < 2 * L - 1) :
    descend k fuel i p = descend m fuel i p := by
  induction fuel generalizing i p with
  | zero => simp only [descend, ← hs i.toNat hi]
  | succ fuel ih =>
    simp only [descend, ← hs i.toNat hi]
    split
    · rfl
    next hl =>
      have hiL : L ≤ i.toNat := by
        by_contra hc; exact hl ((ht.leaves i.toNat hi).mpr (by omega))
      have hlb := ht.left_below i.toNat hiL hi
      have hrb := ht.right_below i.toNat hiL hi
      split
      · rfl
      next b q _ =>
        apply ih
        cases b
        · simp only [Bool.false_eq_true, if_false]; omega
        · simp only [if_true]; omega

/-- What RDHDR and DECPAY read of a state but for node memory, and the same tree. -/
structure Alike (s t : State) : Prop where
  br : t.br = s.br
  src : t.src = s.src
  snk : t.snk = s.snk
  nnodes : t.nnodes = s.nnodes
  tree : ∃ L, TreeShape s.node s.nnodes L ∧ ∀ i, i < 2 * L - 1 → nodeAt s.node i = nodeAt t.node i

/-- Two runs that end alike: both go on, or both raise the same fault, with the same streams. -/
def EndAlike (s t : State) (a b : Result State) : Prop :=
  ∃ (r : BitReader) (p : Source) (k : Sink),
    (a = .ok { s with br := r, src := p, snk := k } ∧
      b = .ok { t with br := r, src := p, snk := k }) ∨
    ∃ c info, a = .raised c info { s with br := r, src := p, snk := k } ∧
      b = .raised c info { t with br := r, src := p, snk := k }

/-- DECPAY (R205) in two states that differ in what it does not read. -/
theorem decPayLoop_alike (n : Nat) (i : Word) (s t : State) (h : Alike s t) :
    EndAlike s t (decPayLoop n i s) (decPayLoop n i t) := by
  induction n generalizing i s t with
  | zero =>
    refine ⟨s.br, s.src, s.snk, .inl ⟨rfl, ?_⟩⟩
    simp only [decPayLoop, ← h.br, ← h.src, ← h.snk]
  | succ n ih =>
    obtain ⟨L, ht, hs⟩ := h.tree
    have hr := root_lt ht
    have h1 := ht.some_leaf
    have e : ∀ p f, descend t.node f (s.nnodes - 1#9) p = descend s.node f (s.nnodes - 1#9) p :=
      fun p f => descend_same ht hs f _ p (by omega)
    simp only [decPayLoop, decPayOne, decSym, h.br, h.src, h.nnodes, e]
    cases hd : descend s.node (bitsLeft (s.br, s.src)) (s.nnodes - 1#9) (s.br, s.src) with
    | mk o p =>
      cases o with
      | none =>
        refine ⟨p.1, p.2, s.snk, .inr ⟨_, _, rfl, ?_⟩⟩
        simp [State.setIn, ← h.snk]
      | some v =>
        simp only [bind_ok, State.setIn, h.snk]
        by_cases hk : (s.snk.put v).1 = true
        · simp only [hk, if_true, bind_ok]
          exact ih (i + 1#64) _ _ ⟨rfl, rfl, rfl, h.nnodes, L, ht, hs⟩
        · simp only [hk]
          exact ⟨p.1, p.2, (s.snk.put v).2, .inr ⟨_, _, rfl, rfl⟩⟩

/-- The counts' loop (R200) in two states with the same reader and source. -/
theorem rdCounts_alike (vs : List Byte) (s t : State) (hb : t.br = s.br) (hs : t.src = s.src) :
    (∃ (f : SymTable Word → SymTable Word) (r : BitReader) (p : Source),
      (∀ a b v, symGet (f a) v = symGet (f b) v ∨
        v ∉ vs ∧ symGet (f a) v = symGet a v ∧ symGet (f b) v = symGet b v) ∧
      rdCounts vs s = .ok { s with ft := f s.ft, br := r, src := p } ∧
      rdCounts vs t = .ok { t with ft := f t.ft, br := r, src := p }) ∨
    ∃ (c : Cause) (info : Word) (x y : SymTable Word) (r : BitReader) (p : Source),
      rdCounts vs s = .raised c info { s with ft := x, br := r, src := p } ∧
      rdCounts vs t = .raised c info { t with ft := y, br := r, src := p } := by
  induction vs generalizing s t with
  | nil =>
    refine .inl ⟨id, s.br, s.src, fun a b v => .inr ⟨by simp, rfl, rfl⟩, rfl, ?_⟩
    simp [rdCounts, ← hb, ← hs]
  | cons v vs ih =>
    simp only [rdCounts, rdField, hb, hs]
    obtain ⟨k, x, q⟩ := readBits 64 (s.br, s.src)
    by_cases hk : k < 64
    · simp only [hk, if_true, bind_raised]
      exact .inr ⟨_, _, s.ft, t.ft, q.1, q.2, rfl, rfl⟩
    · simp only [hk, if_false, bind_ok, State.setIn]
      obtain ⟨f, r, p, h1, h2, h3⟩ | ⟨c, info, a, b, r, p, h2, h3⟩ := ih
        { s with br := q.1, src := q.2, ft := symSet s.ft v x }
        { t with br := q.1, src := q.2, ft := symSet t.ft v x } rfl rfl
      · refine .inl ⟨fun a => f (symSet a v x), r, p, fun a b w => ?_, h2, h3⟩
        rcases h1 (symSet a v x) (symSet b v x) w with e | ⟨e1, e2, e3⟩
        · exact .inl e
        · by_cases hw : v = w
          · subst hw; left; rw [e2, e3, symGet_symSet_self, symGet_symSet_self]
          · right
            rw [e2, e3, symGet_symSet_other _ _ _ _ hw, symGet_symSet_other _ _ _ _ hw]
            exact ⟨by simp [e1, Ne.symm hw], rfl, rfl⟩
      · exact .inr ⟨c, info, a, b, r, p, h2, h3⟩

/-- `rd_hdr()` (R200) in two states with the same reader and source. -/
theorem rdHdr_alike (s t : State) (hb : t.br = s.br) (hs : t.src = s.src) :
    (∃ (ft : SymTable Word) (n : Word) (r : BitReader) (p : Source),
      rdHdr s = .ok { invalidate s with ft := ft, ntot := n, br := r, src := p } ∧
      rdHdr t = .ok { invalidate t with ft := ft, ntot := n, br := r, src := p }) ∨
    ∃ (c : Cause) (info : Word) (x y : SymTable Word) (r : BitReader) (p : Source),
      rdHdr s = .raised c info { invalidate s with ft := x, br := r, src := p } ∧
      rdHdr t = .raised c info { invalidate t with ft := y, br := r, src := p } := by
  simp only [rdHdr]
  obtain ⟨f, r, p, h1, h2, h3⟩ | ⟨c, info, a, b, r, p, h2, h3⟩ :=
    rdCounts_alike allSyms (invalidate s) (invalidate t) hb hs
  · rw [h2, h3]
    have hf : f (invalidate t).ft = f (invalidate s).ft := by
      apply symTable_ext
      intro v
      rcases h1 (invalidate t).ft (invalidate s).ft v with e | ⟨e, -⟩
      · exact e
      · exact absurd (mem_allSyms v) e
    simp only [bind_ok, rdField, hf]
    obtain ⟨k, x, q⟩ := readBits 64 (r, p)
    by_cases hk : k < 64
    · simp only [hk, if_true, bind_raised, State.setIn]
      exact .inr ⟨_, _, _, _, q.1, q.2, rfl, rfl⟩
    · simp only [hk, if_false, bind_ok, State.setIn]
      exact .inl ⟨_, _, q.1, q.2, rfl, rfl⟩
  · rw [h2, h3]
    exact .inr ⟨c, info, a, b, r, p, rfl, rfl⟩

end Sys2Proof.Machine
end

