-- ==== Sys2Proof/Tests/Slice0.lean ====
section
/-! SUPPORT. The model's own tests: words written out from 30_encoding.md, one small step per command
with the results the spec's examples and vectors state, and a witness for every statement that has
hypotheses. -/

namespace Sys2Proof.Tests

open Sys2Proof Sys2Proof.Machine Host.Outcome

/-! ### Helpers -/

/-- One field of the state a command leaves. -/
def field {α : Type} (f : State → α) (o : Host.Outcome State Fault Refusal) : Option α :=
  match o with
  | .next t => some (f t)
  | .fault _ => none
  | .refused _ => none

/-- The reset state over a source. -/
def reading (bytes : List Byte) : State :=
  { State.reset with src := { bytes := bytes, pos := 0 } }

/-- The reset state with one input to come. -/
def given (a : Input) : State := { State.reset with inputs := [a] }

/-- The reset state with a writer. -/
def writing (acc : Byte) (cnt : BitVec 3) (fail : Bool) : State :=
  { State.reset with bw := { acc := acc, cnt := cnt, fail := fail } }

def leafNode (sym : Byte) (weight : Weight) : Node :=
  { leaf := true, sym := sym, weight := weight, left := 0#9, right := 0#9 }

def joinNode (weight : Weight) (left right : NodeIdx) : Node :=
  { leaf := false, sym := 0#8, weight := weight, left := left, right := right }

def nodesOf (ns : List Node) : NodeMem :=
  (ns.foldl (fun (p : NodeMem × Nat) n => (nodeSet p.1 p.2 n, p.2 + 1)) (State.reset.node, 0)).1

/-- The counts, the tree and the code table of "hello" (42_treebuilder.md R159, 43_codetable.md
R177), written out by hand. -/
def hello : State :=
  { State.reset with
    ft := symSet (symSet (symSet (symSet State.reset.ft 0x65#8 1#64) 0x68#8 1#64) 0x6C#8 2#64)
      0x6F#8 1#64
    ntot := 5#64
    node := nodesOf [leafNode 0x65#8 1#72, leafNode 0x68#8 1#72, leafNode 0x6C#8 2#72,
      leafNode 0x6F#8 1#72, joinNode 2#72 0#9 1#9, joinNode 3#72 3#9 2#9, joinNode 5#72 4#9 5#9]
    nnodes := 7#9, treeOk := true
    ct := symSet (symSet (symSet (symSet State.reset.ct 0x65#8 ⟨true, 2#8, 0#256⟩)
      0x68#8 ⟨true, 2#8, 1#256⟩) 0x6C#8 ⟨true, 2#8, 3#256⟩) 0x6F#8 ⟨true, 2#8, 2#256⟩
    ctOk := true
    src := { bytes := [0x68#8, 0x65#8, 0x6C#8, 0x6C#8, 0x6F#8], pos := 0 } }

/-- "hello" with another source. -/
def helloOver (bytes : List Byte) : State := { hello with src := { bytes := bytes, pos := 0 } }

/-- The single-symbol tree of 'A' with its empty code (R156, R170). -/
def single : State :=
  { State.reset with
    ft := symSet State.reset.ft 0x41#8 1#64, ntot := 1#64
    node := nodesOf [leafNode 0x41#8 1#72], nnodes := 1#9, treeOk := true
    ct := symSet State.reset.ct 0x41#8 ⟨true, 0#8, 0#256⟩, ctOk := true }

/-! ### WellFormed: the ill-formed terms are refused (30_encoding.md R95 (c)) -/

theorem test_wf_wbits_0 : (Instr.wbits 0#8).wf = false := by decide
theorem test_wf_wbits_65 : (Instr.wbits 65#8).wf = false := by decide
theorem test_wf_rbits_0 : (Instr.rbits 0#8).wf = false := by decide
theorem test_wf_rbits_65 : (Instr.rbits 65#8).wf = false := by decide

/-! ### Decoding: one word per command, written out from R91 and R93 -/

theorem test_decode_nop : decode 0x00000000#64 = .ok .nop := by decide
theorem test_decode_init : decode 0x01000000#64 = .ok .init := by decide
/-- op 0x10, bits [23:1] zero, b = 1. -/
theorem test_decode_wbit :
    decode (0#32 ++ 0b00010000#8 ++ 0b00000000000000000000000#23 ++ 1#1) = .ok (.wbit true) := by
  decide
/-- op 0x11, n = 5 in [23:16], zeros. -/
theorem test_decode_wbits :
    decode (0#32 ++ 0b00010001#8 ++ 0b00000101#8 ++ 0b0000000000000000#16) = .ok (.wbits 5#8) := by
  decide
theorem test_decode_wflush : decode 0x12000000#64 = .ok .wflush := by decide
theorem test_decode_rbit : decode 0x18000000#64 = .ok .rbit := by decide
theorem test_decode_rbits : decode 0x19400000#64 = .ok (.rbits 64#8) := by decide
theorem test_decode_ftclr : decode 0x20000000#64 = .ok .ftclr := by decide
/-- op 0x21, zeros, sym = 'A' in [7:0]. -/
theorem test_decode_ftinc :
    decode (0#32 ++ 0b00100001#8 ++ 0b0000000000000000#16 ++ 0b01000001#8) = .ok (.ftinc 0x41#8) := by
  decide
theorem test_decode_ftrd : decode 0x220000FF#64 = .ok (.ftrd 0xFF#8) := by decide
theorem test_decode_scan : decode 0x23000000#64 = .ok .scan := by decide
theorem test_decode_build : decode 0x30000000#64 = .ok .build := by decide
/-- op 0x31, zeros, idx = 510 in [8:0]. -/
theorem test_decode_ndrd :
    decode (0#32 ++ 0b00110001#8 ++ 0b000000000000000#15 ++ 0b111111110#9) = .ok (.ndrd 510#9) := by
  decide
theorem test_decode_ctgen : decode 0x40000000#64 = .ok .ctgen := by decide
theorem test_decode_ctlen : decode 0x4100006C#64 = .ok (.ctlen 0x6C#8) := by decide
/-- op 0x42, zeros, w = 2 in [17:16], zeros, sym = 'l'. -/
theorem test_decode_ctrd :
    decode (0#32 ++ 0b01000010#8 ++ 0b000000#6 ++ 0b10#2 ++ 0b00000000#8 ++ 0b01101100#8)
      = .ok (.ctrd 0x6C#8 2#2) := by decide
theorem test_decode_encsym : decode 0x43000068#64 = .ok (.encsym 0x68#8) := by decide
theorem test_decode_decsym : decode 0x50000000#64 = .ok .decsym := by decide
theorem test_decode_wrhdr : decode 0x60000000#64 = .ok .wrhdr := by decide
theorem test_decode_rdhdr : decode 0x61000000#64 = .ok .rdhdr := by decide
theorem test_decode_srcrw : decode 0x62000000#64 = .ok .srcrw := by decide
theorem test_decode_encpay : decode 0x63000000#64 = .ok .encpay := by decide
theorem test_decode_decpay : decode 0x64000000#64 = .ok .decpay := by decide
theorem test_decode_encode : decode 0x68000000#64 = .ok .encode := by decide
theorem test_decode_decode : decode 0x69000000#64 = .ok .decode := by decide

/-- Every opcode without a row is illegal (R95 (b)): the first after each block of rows. -/
theorem test_decode_unassigned :
    [0x02000000#64, 0x13000000#64, 0x1A000000#64, 0x24000000#64, 0x32000000#64, 0x44000000#64,
      0x51000000#64, 0x65000000#64, 0x6A000000#64, 0xFF000000#64].map decode
      = List.replicate 10 (.error .unassignedOpcode) := by decide

/-! ### One step per command -/

/-- R220: from reset NOP leaves CSEQ = 1. -/
theorem test_nop : field (·.cseq) (exec .nop State.reset) = some 1#32 := by decide
/-- R221: after a fault INIT gives STATUS = 2 and CSEQ = 0. -/
theorem test_init :
    field (fun t => (statusView t, t.err, t.cseq))
      (exec .init (raiseFault .truncatedStream 5#64 State.reset)) = some (2#64, 0#8, 0#32) := by
  decide
/-- R125: from reset `WBIT 1` leaves `bw_acc = 0x80`, `bw_cnt = 1`, sink unchanged. -/
theorem test_wbit :
    field (fun t => (t.bw, t.snk.bytes)) (exec (.wbit true) State.reset)
      = some (⟨0x80#8, 1#3, false⟩, []) := by decide
/-- R125: the eighth bit puts the byte. -/
theorem test_wbit_eighth :
    field (fun t => (t.bw, t.snk.bytes)) (exec (.wbit false) (writing 0x80#8 7#3 false))
      = some (⟨0#8, 0#3, false⟩, [0x80#8]) := by decide
/-- Vector V4: OPR = 22 in 5 bits are the top five bits of 0xB0. -/
theorem test_wbits :
    field (fun t => (t.bw, t.snk.bytes)) (exec (.wbits 5#8) { State.reset with opr := 22#64 })
      = some (⟨0xB0#8, 5#3, false⟩, []) := by decide
/-- Vector V4: WFLUSH then puts 0xB0. -/
theorem test_wflush :
    field (fun t => (t.bw, t.snk.bytes)) (exec .wflush (writing 0xB0#8 5#3 false))
      = some (⟨0#8, 0#3, false⟩, [0xB0#8]) := by decide
/-- R128: source B0, the first RBIT gives 1 and RCNT = 7. -/
theorem test_rbit :
    field (fun t => (t.res, t.br.cnt)) (exec .rbit (reading [0xB0#8])) = some (1#64, 7#4) := by decide
/-- R128: at the end RES keeps its value and REOF is set. -/
theorem test_rbit_end :
    field (fun t => (t.res, t.br.eof)) (exec .rbit { reading [] with res := 9#64 })
      = some (9#64, true) := by decide
/-- Vector V9: source B0, RBITS 5 gives 22. -/
theorem test_rbits :
    field (fun t => (t.res, t.br.cnt)) (exec (.rbits 5#8) (reading [0xB0#8])) = some (22#64, 3#4) := by
  decide
/-- R129: a short read completes with REOF set. -/
theorem test_rbits_short :
    field (fun t => (t.fault, t.br.eof, t.src.pos)) (exec (.rbits 9#8) (reading [0xB0#8]))
      = some (false, true, 1) := by decide
/-- R140: counts and total are 0, the tree and the table are withdrawn. -/
theorem test_ftclr :
    field (fun t => (symGet t.ft 0x6C#8, t.ntot, t.treeOk, t.nnodes, t.ctOk)) (exec .ftclr hello)
      = some (0#64, 0#64, false, 0#9, false) := by decide +kernel
/-- R142: one more 'A'. -/
theorem test_ftinc :
    field (fun t => (symGet t.ft 0x41#8, symGet t.ft 0x42#8, t.ntot))
      (exec (.ftinc 0x41#8) State.reset) = some (1#64, 0#64, 1#64) := by decide +kernel
/-- R141: at the maximum it raises CountOverflow with the symbol, nothing counted. -/
theorem test_ftinc_full :
    field (fun t => (t.err, t.errinfo, t.ntot)) (exec (.ftinc 0x41#8)
      { State.reset with ntot := 0xFFFFFFFFFFFFFFFF#64 })
      = some (8#8, 0x41#64, 0xFFFFFFFFFFFFFFFF#64) := by decide +kernel
/-- R143. -/
theorem test_ftrd : field (·.res) (exec (.ftrd 0x6C#8) hello) = some 2#64 := by decide +kernel
/-- R144: "hello" counted. -/
theorem test_scan :
    field (fun t => (symGet t.ft 0x65#8, symGet t.ft 0x6C#8, t.ntot, t.src.pos))
      (exec .scan (reading [0x68#8, 0x65#8, 0x6C#8, 0x6C#8, 0x6F#8]))
      = some (1#64, 2#64, 5#64, 5) := by decide +kernel
/-- R159: the seven entries of "hello". -/
theorem test_build :
    field (fun t => ((List.range 7).map (nodeAt t.node), t.nnodes, t.treeOk))
      (exec .build { hello with node := State.reset.node, treeOk := false, nnodes := 0#9 })
      = some ((List.range 7).map (nodeAt hello.node), 7#9, true) := by decide +kernel
/-- R156: one symbol, one leaf. -/
theorem test_build_single :
    field (fun t => (nodeAt t.node 0, t.nnodes)) (exec .build { single with treeOk := false })
      = some (leafNode 0x41#8 1#72, 1#9) := by decide +kernel
/-- U7, R254: a table write leaves every entry of node memory a draw. -/
theorem test_ftclr_draws :
    field (fun t => (t.node, t.nnodes)) (exec .ftclr hello) = some (unspecifiedNodes 0, 0#9) := rfl
/-- R32, R254: a failed BUILD leaves every entry of node memory a draw. -/
theorem test_build_empty_draws :
    field (fun t => (t.node, t.draws)) (exec .build State.reset) = some (unspecifiedNodes 0, 1) := by
  rw [exec, execBuild_empty _ fun v => symGet_replicate _ v, field]
  rfl
/-- R158: entry 6 is internal, right 5, left 4; entry 7 is not there. -/
theorem test_ndrd :
    field (·.res) (exec (.ndrd 6#9) hello) = some 0x8000000500040000#64 ∧
      field (·.res) (exec (.ndrd 7#9) hello) = some 0#64 := by decide +kernel
/-- R158: entry 2 is the leaf 'l'. -/
theorem test_ndrd_leaf :
    field (·.res) (exec (.ndrd 2#9) hello) = some 0xC00000000000006C#64 := by decide +kernel
/-- R177: the four codes of "hello". -/
theorem test_ctgen :
    field (fun t => [0x65#8, 0x68#8, 0x6C#8, 0x6F#8, 0x78#8].map (symGet t.ct))
      (exec .ctgen { hello with ct := State.reset.ct, ctOk := false })
      = some ([0x65#8, 0x68#8, 0x6C#8, 0x6F#8, 0x78#8].map (symGet hello.ct)) := by decide +kernel
/-- R170: the single symbol's code is the empty one. -/
theorem test_ctgen_single :
    field (fun t => symGet t.ct 0x41#8) (exec .ctgen { single with ct := State.reset.ct })
      = some ⟨true, 0#8, 0#256⟩ := by decide +kernel
/-- R173: 'l' has length 2, 'x' has no code. -/
theorem test_ctlen :
    field (·.res) (exec (.ctlen 0x6C#8) hello) = some 0x102#64 ∧
      field (·.res) (exec (.ctlen 0x78#8) hello) = some 0#64 := by decide +kernel
/-- R174: the code of 'l' is `11`, its second word 0. -/
theorem test_ctrd :
    field (·.res) (exec (.ctrd 0x6C#8 0#2) hello) = some 3#64 ∧
      field (·.res) (exec (.ctrd 0x6C#8 1#2) hello) = some 0#64 := by decide +kernel
/-- R176: 'o' is `10`. -/
theorem test_encsym :
    field (fun t => (t.bw.acc, t.bw.cnt)) (exec (.encsym 0x6F#8) hello) = some (0x80#8, 2#3) := by
  decide +kernel
/-- R175: 'x' has no code. -/
theorem test_encsym_none :
    field (fun t => (t.err, t.errinfo)) (exec (.encsym 0x78#8) hello) = some (7#8, 0x78#64) := by
  decide +kernel
/-- R189: the first two bits of 0x4F are 'h'. -/
theorem test_decsym :
    field (fun t => (t.res, t.br.cnt)) (exec .decsym (helloOver [0x4F#8, 0x80#8]))
      = some (0x68#64, 6#4) := by decide +kernel
/-- R188: the single-leaf tree reads nothing. -/
theorem test_decsym_single :
    field (fun t => (t.res, t.br.eof)) (exec .decsym single) = some (0x41#64, false) := by
  decide +kernel
/-- R201: with only 100 bytes RDHDR raises TruncatedStream(12). -/
theorem test_rdhdr :
    field (fun t => (t.err, t.errinfo)) (exec .rdhdr (reading (List.replicate 100 0#8)))
      = some (3#8, 12#64) := by decide +kernel
/-- R202: the cursor goes back to 0 and the reader is emptied. -/
theorem test_srcrw :
    field (fun t => (t.src.pos, t.br)) (exec .srcrw
      { State.reset with src := { bytes := [1#8], pos := 1 }, br := ⟨1#8, 3#4, true⟩ })
      = some (0, ⟨0#8, 0#4, false⟩) := by decide +kernel
/-- R204: "hello" with its own table puts 0x4F and leaves `10` waiting. -/
theorem test_encpay :
    field (fun t => (t.snk.bytes, t.bw.acc, t.bw.cnt)) (exec .encpay hello)
      = some ([0x4F#8], 0x80#8, 2#3) := by decide +kernel
/-- R206: 4F 80 comes back as "hello", RCNT = 6, REOF = 0. -/
theorem test_decpay :
    field (fun t => (t.snk.bytes, t.br.cnt, t.br.eof)) (exec .decpay (helloOver [0x4F#8, 0x80#8]))
      = some ([0x68#8, 0x65#8, 0x6C#8, 0x6C#8, 0x6F#8], 6#4, false) := by decide +kernel
/-- R206: with 4F alone four symbols are put, then TruncatedStream(4). -/
theorem test_decpay_short :
    field (fun t => (t.snk.bytes, t.err, t.errinfo)) (exec .decpay (helloOver [0x4F#8]))
      = some ([0x68#8, 0x65#8, 0x6C#8, 0x6C#8], 3#8, 4#64) := by decide +kernel
/-- R212: an empty source is EmptyInput, the sink untouched. -/
theorem test_encode_empty :
    field (fun t => (t.err, t.errinfo, t.snk.bytes)) (exec .encode State.reset)
      = some (1#8, 0#64, []) := by decide +kernel
/-- R214: a stream of 20 bytes ends in field 2. -/
theorem test_decode_short :
    field (fun t => (t.err, t.errinfo, t.treeOk)) (exec .decode (reading (List.replicate 20 0#8)))
      = some (3#8, 2#64, false) := by decide +kernel

/-- WRHDR is the header's 16448 bits through the writer. -/
theorem wrhdr_bits (s : State) :
    ∃ (p : BitWriter × Sink) (bits : List Bool), exec .wrhdr s = next (retire (s.setOut p)) ∧
      bits.length = 8 * Config.headerBytes ∧ p = writeAll bits (s.bw, s.snk) := by
  have e := finish_of_ok (congrArg Result.ok (wrHdr_eq s))
  have h := headerBits_length s.ft s.ntot
  generalize headerBits s.ft s.ntot = bits at *
  exact ⟨_, _, e, h, rfl⟩

theorem wrhdr_bytes (s : State) (hw : s.bw = BitWriter.empty) (hk : s.snk.Good)
    (hb : s.snk.bytes = []) :
    ∃ p, exec .wrhdr s = next (retire (s.setOut p)) ∧ p.2.bytes.length = Config.headerBytes ∧
      p.1.cnt = 0#3 := by
  obtain ⟨p, bits, e, hl, hp⟩ := wrhdr_bits s
  have h := writeAll_whole _ _ s.bw s.snk hk hw hl
  rw [← hp, hb, List.length_nil, Nat.zero_add] at h
  exact ⟨p, e, h⟩

/-- R199: WRHDR from an empty writer over an empty good sink puts 2056 bytes and leaves no bit
waiting; shown through the laws of the writer, not by running it. -/
theorem test_wrhdr_length (s : State) (hw : s.bw = BitWriter.empty) (hk : s.snk.Good)
    (hb : s.snk.bytes = []) :
    ∃ t, exec .wrhdr s = next t ∧ t.snk.bytes.length = 2056 ∧ t.bw.cnt = 0#3 := by
  obtain ⟨p, e, h1, h2⟩ := wrhdr_bytes s hw hk hb
  have hn : Config.headerBytes = 2056 := rfl
  rw [hn] at h1
  exact ⟨_, e, h1, h2⟩

/-! ### The envelope -/

/-- R99: a command word runs, an illegal one raises with the whole value. -/
theorem test_step_runs :
    field (fun t => (t.cseq, t.replies)) (step (State.reset.withFetchWord 32 0))
      = some (1#32, [.done]) := by decide
theorem test_step_illegal :
    field (fun t => (t.err, t.errinfo)) (step (given (.regWrite 0 0x100000000#64)))
      = some (5#8, 0x100000000#64) := by decide
/-- R21: register 3 is STATUS, 9 is no register. -/
theorem test_step_reads :
    field (·.replies) (step (given (.regRead 3))) = some [.value 2#64] ∧
      field (·.replies) (step (given (.regRead 9))) = some [.accessError] := by decide

/-! ### Witnesses: each shows a concrete input that meets the hypotheses of the statement it is
named after, clause by clause -/

/-- `DecodeInvertsEncode`: well-formed at both ends of the count's range. -/
theorem witness_DecodeInvertsEncode :
    Instr.nop.wf = true ∧ (Instr.wbits 1#8).wf = true ∧ (Instr.rbits 64#8).wf = true := by decide

theorem witness_AcceptedValueIsItsCommandsWord :
    decode 0x11400000#64 = .ok (.wbits 64#8) ∧ decode 0x11010000#64 = .ok (.wbits 1#8) := by decide

theorem witness_StepRunsDecodedCommand :
    (given (.regWrite 0 0x21000041#64)).inputs = .regWrite 0 0x21000041#64 :: [] ∧
      (given (.regWrite 0 0x21000041#64)).fault = false ∧
      decode 0x21000041#64 = .ok (.ftinc 0x41#8) := by decide

/-- `IllegalValueRaises`: the bits above 31 of the first value are not 0, so it is no command's
word. -/
theorem witness_IllegalValueRaises :
    (given (.regWrite 0 0x100000000#64)).inputs = .regWrite 0 0x100000000#64 :: [] ∧
      (given (.regWrite 0 0x100000000#64)).fault = false ∧
      ∀ i : Instr, i.wf = true → encodeCmd i ≠ 0x100000000#64 := by
  refine ⟨rfl, rfl, fun i _ h => ?_⟩
  have := congrArg (fun v : BitVec 64 => v.getLsbD 32) h
  simp [encodeCmd] at this

/-- The core after a fault, with one input to come. -/
def faulted (a : Input) : State := { raiseFault .emptyInput 0#64 State.reset with inputs := [a] }

theorem witness_FaultedCoreDropsCommands :
    (∃ v ≠ 0x0000000001000000#64,
      (faulted (.regWrite 0 v)).inputs = .regWrite 0 v :: [] ∧
      (faulted (.regWrite 0 v)).fault = true) ∧
    (faulted (.regWrite 0 0x0000000001000000#64)).inputs
      = .regWrite 0 0x0000000001000000#64 :: [] ∧
    (faulted (.regWrite 0 0x0000000001000000#64)).fault = true :=
  ⟨⟨0#64, by decide, rfl, rfl⟩, rfl, rfl⟩

/-- `RegisterAccesses`: the first and last number of each clause. -/
theorem witness_RegisterAccesses (i : Nat) (v : Word) :
    (given (.regRead i)).inputs = .regRead i :: [] ∧
      (given (.regWrite i v)).inputs = .regWrite i v :: [] := ⟨rfl, rfl⟩

theorem test_register_edges :
    [step (given (.regRead 8)), step (given (.regRead 9)), step (given (.regWrite 2 1#64)),
      step (given (.regWrite 8 1#64)), step (given (.regWrite 9 1#64))].map (field (·.replies))
      = [some [.value 0#64], some [.accessError], some [.done], some [.done],
          some [.accessError]] := by decide

/-- `BusAccessesReachRegisters`: offset 64 is register 8; a narrow access and one off the grid are
access errors (R71). -/
theorem witness_BusAccessesReachRegisters :
    [step (given (.busRead 64 8)), step (given (.busRead 72 8)), step (given (.busRead 64 4)),
      step (given (.busWrite 7 8 1#64))].map (field (·.replies))
      = [some [.value 0#64], some [.accessError], some [.accessError], some [.accessError]] := by
  decide

theorem witness_PreconditionFailureRaises :
    State.reset.treeOk = false ∧ State.reset.ctOk = false := ⟨rfl, rfl⟩

/-- `FaultStateIsSticky`: a step out of the fault state, and one that stays in it. -/
theorem witness_FaultStateIsSticky :
    (faulted .hwReset).fault = true ∧
      field (·.fault) (step (faulted .hwReset)) = some false ∧
      field (·.fault) (step (faulted (.busWrite 0 8 0x01000000#64))) = some false ∧
      field (·.fault) (step (faulted (.regWrite 1 5#64))) = some true := by
  refine ⟨rfl, rfl, rfl, rfl⟩

/-- `WhoWritesCseqOprRes`, `WhoWritesTheTables`: a command in none of the exceptions. -/
theorem witness_WhoWrites : ∃ t, exec .wflush State.reset = next t := ⟨_, rfl⟩

theorem witness_SourceFixedSinkGrows : ∃ t, step State.reset = next t := ⟨_, rfl⟩

theorem witness_WbitEveryCase :
    (writing 0#8 0#3 true).bw.fail = true ∧
      ((writing 0#8 6#3 false).bw.fail = false ∧ (writing 0#8 6#3 false).bw.cnt ≠ 7#3) ∧
      (writing 0#8 7#3 false).bw.fail = false ∧ (writing 0#8 7#3 false).bw.cnt = 7#3 := by decide

/-- The reset state's sink answers ok to every put. -/
theorem resetSink_good : State.reset.snk.Good := ⟨rfl, by simp [State.reset]⟩

theorem witness_WbitsOrderOnAGoodSink :
    (writing 0x80#8 1#3 false).bw.Wf ∧ (writing 0x80#8 1#3 false).bw.fail = false ∧
      (writing 0x80#8 1#3 false).snk.Good := by
  refine ⟨⟨?_, by decide⟩, rfl, resetSink_good⟩
  show ∀ i, i < 7 → (0x80#8).getLsbD i = false
  decide

theorem witness_WflushEveryCase :
    (writing 0#8 0#3 true).bw.fail = true ∧ (writing 0#8 0#3 false).bw.cnt = 0#3 ∧
      (writing 0x80#8 1#3 false).bw.fail = false ∧ (writing 0x80#8 1#3 false).bw.cnt ≠ 0#3 := by
  decide

/-- `FailingSinkTruncates`: a writer that ends good, and one that ends failed. -/
theorem witness_FailingSinkTruncates :
    BitWriter.empty.fail = false ∧
      (writeAll (List.replicate 8 true) (BitWriter.empty, ⟨[], [true], false⟩)).1.fail = false ∧
      (writeAll (List.replicate 16 true) (BitWriter.empty, ⟨[], [true], false⟩)).1.fail = true := by
  decide

theorem witness_RbitEveryCase :
    ({ State.reset with br := ⟨0xB0#8, 1#4, false⟩ } : State).br.cnt ≠ 0#4 ∧
      ((reading [0xB0#8]).br.cnt = 0#4 ∧ (reading [0xB0#8]).src.bytes[0]? = some 0xB0#8) ∧
      (reading []).br.cnt = 0#4 ∧ (reading []).src.bytes[0]? = none := by decide

/-- `RbitsReadsTheField`: exactly 64 bits there, and one bit too few. -/
theorem witness_RbitsReadsTheField :
    (64#8).toNat ≤ 64 ∧
      (64#8).toNat
        ≤ (inBits ((reading (List.replicate 8 0#8)).br, (reading (List.replicate 8 0#8)).src)).length ∧
      (inBits ((⟨0#8, 7#4, false⟩ : BitReader), (reading (List.replicate 7 0#8)).src)).length
        < (64#8).toNat := by decide

/-- `ReaderDeliversInBits`: no bit left, and a last one. -/
theorem witness_ReaderDeliversInBits :
    inBits (BitReader.empty, (reading []).src) = [] ∧
      inBits ((⟨0x01#8, 1#4, false⟩ : BitReader), (reading []).src) = true :: [] := by decide

theorem witness_ReaderIsDualOfWriter :
    State.reset.snk.Good ∧ State.reset.snk.bytes = [] ∧ 64 ≤ 64 := ⟨resetSink_good, rfl, le_refl _⟩

/-- `FtincCountsOrOverflows`: the last values that count, and each counter full. -/
theorem witness_FtincCountsOrOverflows :
    ((symGet (symSet State.reset.ft 0x41#8 0xFFFFFFFFFFFFFFFE#64) 0x41#8).toNat < 2 ^ 64 - 1 ∧
      (0xFFFFFFFFFFFFFFFE#64).toNat < 2 ^ 64 - 1) ∧
    (symGet (symSet State.reset.ft 0x41#8 0xFFFFFFFFFFFFFFFF#64) 0x41#8).toNat = 2 ^ 64 - 1 ∧
    (0xFFFFFFFFFFFFFFFF#64).toNat = 2 ^ 64 - 1 := by
  refine ⟨⟨?_, by decide⟩, ?_, by decide⟩ <;> rw [symGet_symSet_self] <;> decide

theorem reset_counts (v : Byte) : symGet State.reset.ft v = 0#64 := symGet_replicate _ v

theorem witness_ScanCountsTheSource :
    (∀ v, (symGet (reading [0x41#8]).ft v).toNat + (reading [0x41#8]).src.rest.count v < 2 ^ 64) ∧
      (reading [0x41#8]).ntot.toNat + (reading [0x41#8]).src.rest.length < 2 ^ 64 := by
  refine ⟨fun v => ?_, by decide⟩
  have h : symGet (reading [0x41#8]).ft v = 0#64 := reset_counts v
  have hc := List.count_le_length (a := v) (l := (reading [0x41#8]).src.rest)
  have hl : (reading [0x41#8]).src.rest.length = 1 := rfl
  rw [h, BitVec.toNat_ofNat, Nat.zero_mod]; omega

/-- A total one below its maximum, over two bytes. -/
def nearlyFull : State := { reading [0x41#8, 0x42#8] with ntot := 0xFFFFFFFFFFFFFFFE#64 }

/-- `ScanStopsAtOverflow`: the total is full after the first byte. -/
theorem witness_ScanStopsAtOverflow :
    nearlyFull.src.rest = [0x41#8] ++ 0x42#8 :: [] ∧
      (∀ x, (symGet nearlyFull.ft x).toNat + [0x41#8].count x < 2 ^ 64) ∧
      nearlyFull.ntot.toNat + [0x41#8].length < 2 ^ 64 ∧
      ((symGet nearlyFull.ft 0x42#8).toNat + [0x41#8].count 0x42#8 = 2 ^ 64 - 1 ∨
        nearlyFull.ntot.toNat + [0x41#8].length = 2 ^ 64 - 1) := by
  refine ⟨rfl, fun x => ?_, by decide, .inr (by decide)⟩
  have h : symGet nearlyFull.ft x = 0#64 := reset_counts x
  have hc := List.count_le_length (a := x) (l := [0x41#8])
  have hl : [0x41#8].length = 1 := rfl
  rw [h, BitVec.toNat_ofNat, Nat.zero_mod]; omega

theorem witness_NothingToBuildOrEncode :
    (∀ v, symGet State.reset.ft v = 0#64) ∧ State.reset.src.bytes = [] := ⟨reset_counts, rfl⟩

theorem single_count : symGet single.ft 0x41#8 = 1#64 := symGet_symSet_self _ _ _

theorem hello_count : symGet hello.ft 0x6F#8 = 1#64 := symGet_symSet_self _ _ _

/-- `BuildMakesATree`, `BuildJoinsTheTwoLightest`, `BuiltWeights`: there are internal entries 4, 5
and 6 to speak of. -/
theorem witness_Build :
    (∃ v, symGet hello.ft v ≠ 0#64) ∧ leafCount hello.ft = 4 ∧
      field (·.nnodes) (exec .build hello) = some 7#9 :=
  ⟨⟨0x6F#8, by rw [hello_count]; decide⟩, by decide +kernel, by decide +kernel⟩

/-- `BuildDependsOnCountsAlone`: two cores that differ in everything else. -/
theorem witness_BuildDependsOnCountsAlone :
    hello.ft = ({ State.reset with ft := hello.ft } : State).ft ∧ hello.nnodes ≠ State.reset.nnodes :=
  ⟨rfl, by decide⟩

/-- `NdrdReadsAnEntry`: the last entry there is, and the first that is not. -/
theorem witness_NdrdReadsAnEntry :
    hello.treeOk = true ∧ (6#9).toNat < hello.nnodes.toNat ∧ hello.nnodes.toNat ≤ (7#9).toNat :=
  ⟨rfl, by decide, by decide⟩

/-! Trees and code tables -/

/-- The tree of "hello" has the shape R41 (d) asks for. -/
theorem hello_shape : TreeShape hello.node 7#9 4 where
  some_leaf := by decide
  symbols := by decide
  size := by decide
  leaves := by decide +kernel
  ascending := by
    have h : ∀ j, j < 4 → ∀ i, i < j →
        (nodeAt hello.node i).sym.toNat < (nodeAt hello.node j).sym.toNat := by decide +kernel
    exact fun i j hij hj => h j hj i hij
  leaf_fields := by decide +kernel
  internal_sym := fun i hi hn => by
    have h : ∀ i, i < 7 → 4 ≤ i → (nodeAt hello.node i).sym = 0#8 := by decide +kernel
    exact h i hn hi
  left_below := fun i hi hn => by
    have h : ∀ i, i < 7 → 4 ≤ i → (nodeAt hello.node i).left.toNat < i := by decide +kernel
    exact h i hn hi
  right_below := fun i hi hn => by
    have h : ∀ i, i < 7 → 4 ≤ i → (nodeAt hello.node i).right.toNat < i := by decide +kernel
    exact h i hn hi
  two_children := fun i hi hn => by
    have h : ∀ i, i < 7 → 4 ≤ i → (nodeAt hello.node i).left ≠ (nodeAt hello.node i).right := by
      decide +kernel
    exact h i hn hi
  one_parent := fun j hj => by
    have h : ∀ j, j < 6 → ∃ i, i < 7 ∧ 4 ≤ i ∧
        ((nodeAt hello.node i).left.toNat = j ∨ (nodeAt hello.node i).right.toNat = j) ∧
        ∀ k, k < 7 → 4 ≤ k →
          (nodeAt hello.node k).left.toNat = j ∨ (nodeAt hello.node k).right.toNat = j → k = i := by
      decide +kernel
    obtain ⟨i, h1, h2, h3, h4⟩ := h j hj
    exact ⟨i, ⟨⟨h2, h1⟩, h3⟩, fun k hk => h4 k hk.1.2 hk.1.1 hk.2⟩
  weight_sum := fun i hi hn => by
    have h : ∀ i, i < 7 → 4 ≤ i → (nodeAt hello.node i).weight.toNat
        = (nodeAt hello.node (nodeAt hello.node i).left.toNat).weight.toNat
          + (nodeAt hello.node (nodeAt hello.node i).right.toNat).weight.toNat := by decide +kernel
    exact h i hn hi

theorem hello_inv : TreeInv hello := by
  refine ⟨fun _ => ⟨4, hello_shape⟩, fun _ => ⟨rfl, ?_⟩⟩
  obtain ⟨ct, e, h, -⟩ := ctgenBody_tree hello 4 hello_shape
  have hc : field (·.ct) (finish (ctgenBody hello)) = some hello.ct := by decide +kernel
  rw [e, finish_ok, field] at hc
  have hct : ct = hello.ct := by simpa using hc
  rw [hct] at h
  exact h

theorem witness_CtgenWalksTheTree : hello.treeOk = true ∧ TreeShape hello.node hello.nnodes 4 :=
  ⟨rfl, hello_shape⟩

theorem witness_CodesArePrefixFree :
    TreeInv hello ∧ hello.ctOk = true ∧ 0x65#8 ≠ 0x68#8 ∧
      (symGet hello.ct 0x65#8).valid = true ∧ (symGet hello.ct 0x68#8).valid = true :=
  ⟨hello_inv, rfl, by decide, by decide +kernel, by decide +kernel⟩

theorem witness_TableReadouts : hello.ctOk = true := rfl

theorem witness_EncsymSendsTheCode :
    hello.ctOk = true ∧ (symGet hello.ct 0x6F#8).valid = true ∧
      (symGet hello.ct 0x78#8).valid = false :=
  ⟨rfl, by decide +kernel, by decide +kernel⟩

/-- R177: 'h' is `01`. -/
theorem hello_code_h : IsCode hello [false, true] 0x68#8 :=
  ⟨1#9, by decide +kernel, by decide +kernel, by decide +kernel⟩

/-- R177: 'e' is `00`. -/
theorem hello_code_e : IsCode hello [false, false] 0x65#8 :=
  ⟨0#9, by decide +kernel, by decide +kernel, by decide +kernel⟩

/-- Where no bit is left, no code of more than one leaf's tree begins the stream. -/
theorem hello_no_code (bits : List Bool) (v : Byte) (h : IsCode hello bits v) : ¬ bits <+: [] := by
  rw [List.prefix_nil]
  rintro rfl
  obtain ⟨j, h1, h2, -⟩ := h
  have hj : hello.nnodes - 1#9 = j := by simpa [followPath] using h1
  rw [← hj] at h2
  have h0 : (nodeAt hello.node (hello.nnodes - 1#9).toNat).leaf = false := by decide +kernel
  rw [h0] at h2; cases h2

/-- `DecsymFollowsThePath`: 0x4F begins with the path of 'h'; a source of no bytes with none. -/
theorem witness_DecsymFollowsThePath :
    hello.treeOk = true ∧ IsCode hello [false, true] 0x68#8 ∧
      inBits ((helloOver [0x4F#8]).br, (helloOver [0x4F#8]).src)
        = [false, true] ++ [false, false, true, true, true, true] ∧
      ∀ (bits : List Bool) (v : Byte), IsCode (helloOver []) bits v →
        ¬ bits <+: inBits ((helloOver []).br, (helloOver []).src) :=
  ⟨rfl, hello_code_h, by decide, fun bits v h => hello_no_code bits v h⟩

theorem witness_DecsymSingleLeaf :
    single.treeOk = true ∧ single.nnodes = 1#9 ∧ (nodeAt single.node 0).leaf = true :=
  ⟨rfl, rfl, by decide +kernel⟩

/-! Codec -/

/-- Whole bytes have any bits one likes. -/
theorem bytes_of_bits (bits : List Bool) (h : bits.length % 8 = 0) :
    ∃ bytes : List Byte, bitsOf bytes = bits := by
  obtain ⟨-, -, q⟩ := closeEncode_good bits State.reset.snk resetSink_good
  have h0 : (8 - bits.length % 8) % 8 = 0 := by omega
  have hb : State.reset.snk.bytes = [] := rfl
  rw [h0, hb, bitsOf_nil, List.nil_append, List.replicate_zero, List.append_nil] at q
  exact ⟨_, q⟩

theorem header_bytes (ft : SymTable Word) (n : Word) :
    ∃ bytes : List Byte, bitsOf bytes = headerBits ft n :=
  bytes_of_bits _ (by rw [headerBits_length]; omega)

theorem inBits_reading (bytes : List Byte) :
    inBits ((reading bytes).br, (reading bytes).src) = bitsOf bytes := by
  simp [inBits, reading, State.reset, BitReader.empty, fieldBits]

theorem witness_RdhdrTakesTheHeader :
    ∃ bytes, inBits ((reading bytes).br, (reading bytes).src) = headerBits hello.ft 5#64 ++ [] := by
  obtain ⟨bytes, h⟩ := header_bytes hello.ft 5#64
  exact ⟨bytes, by rw [inBits_reading, h, List.append_nil]⟩

/-- `RdhdrTruncated`: one byte too few, and none at all. -/
theorem witness_RdhdrTruncated (bytes : List Byte) (h : bytes.length ≤ 2055) :
    (inBits ((reading bytes).br, (reading bytes).src)).length < 257 * 64 := by
  rw [inBits_reading, bitsOf_length]; omega

/-- `EncpaySendsTheCodes`: "hello" to its end, and "ex" that stops at 'x'. -/
theorem witness_EncpaySendsTheCodes :
    (hello.ctOk = true ∧ hello.src.rest = [0x68#8, 0x65#8, 0x6C#8, 0x6C#8, 0x6F#8] ++ [] ∧
      ∀ b ∈ [0x68#8, 0x65#8, 0x6C#8, 0x6C#8, 0x6F#8], (symGet hello.ct b).valid = true) ∧
    (helloOver [0x65#8, 0x78#8]).src.rest = [0x65#8] ++ [0x78#8] ∧
      (∀ b ∈ [0x65#8], (symGet (helloOver [0x65#8, 0x78#8]).ct b).valid = true) ∧
      (symGet (helloOver [0x65#8, 0x78#8]).ct 0x78#8).valid = false :=
  ⟨⟨rfl, rfl, by decide +kernel⟩, rfl, by decide +kernel, by decide +kernel⟩

/-- The reset sink, and one with room for `k` bytes. -/
def room (k : Nat) : Sink := { bytes := [], answers := List.replicate k true, later := false }

/-- "he" to come, over a sink with room for two bytes. -/
def he : State := { helloOver [0x10#8] with ntot := 2#64, snk := room 2 }

theorem he_paths : List.Forall₂ (fun bits v => IsCode he bits v) [[false, true], [false, false]]
    [0x68#8, 0x65#8] := .cons hello_code_h (.cons hello_code_e .nil)

/-- `DecpayPutsExactlyN`: two symbols, a sink with room for exactly two. -/
theorem witness_DecpayPutsExactlyN :
    let s : State := { he with src := { bytes := [0x40#8], pos := 0 } }
    s.treeOk = true ∧ s.ntot.toNat = [0x68#8, 0x65#8].length ∧
      List.Forall₂ (fun bits v => IsCode s bits v) [[false, true], [false, false]]
        [0x68#8, 0x65#8] ∧
      inBits (s.br, s.src)
        = [[false, true], [false, false]].flatten ++ [false, false, false, false] ∧
      ∀ j, j < [0x68#8, 0x65#8].length → s.snk.answers.getD j s.snk.later = true := by
  refine ⟨rfl, rfl, he_paths, by decide, ?_⟩
  show ∀ j, j < 2 → [true, true].getD j false = true
  decide

/-- `DecpayFaultsAfterISymbols`: the stream of no bits ends before the first symbol; a sink without
room fails the first put. -/
theorem witness_DecpayFaultsAfterISymbols :
    (let s : State := helloOver [];
      s.treeOk = true ∧ ([] : List Byte).length < s.ntot.toNat ∧
      List.Forall₂ (fun bits v => IsCode s bits v) [] [] ∧
      inBits (s.br, s.src) = ([] : List (List Bool)).flatten ++ [] ∧
      (∀ k, k < ([] : List Byte).length → s.snk.answers.getD k s.snk.later = true) ∧
      ∀ (bits : List Bool) (v : Byte), IsCode s bits v → ¬ bits <+: []) ∧
    (let s : State := { helloOver [0x40#8] with snk := room 0 };
      s.treeOk = true ∧ ([] : List Byte).length < s.ntot.toNat ∧
      List.Forall₂ (fun bits v => IsCode s bits v) [] [] ∧
      inBits (s.br, s.src) = ([] : List (List Bool)).flatten
        ++ ([false, true] ++ [false, false, false, false, false, false]) ∧
      (∀ k, k < ([] : List Byte).length → s.snk.answers.getD k s.snk.later = true) ∧
      IsCode s [false, true] 0x68#8 ∧
      s.snk.answers.getD ([] : List Byte).length s.snk.later = false) := by
  refine ⟨⟨rfl, by decide, .nil, by decide, fun k hk => absurd hk (by simp), ?_⟩,
    rfl, by decide, .nil, by decide, fun k hk => absurd hk (by simp), hello_code_h, rfl⟩
  exact fun bits v h => hello_no_code bits v h

theorem room_takes (n j : Nat) (h : j < n) : (room n).answers.getD j (room n).later = true := by
  simp [room, h]

theorem room_full (n : Nat) : (room n).answers.getD n (room n).later = false := by simp [room]

/-- A source with so many bytes before its last one. -/
theorem source_of_length (n : Nat) : ∃ (s : State) (before after : List Byte) (v : Byte),
    s.src.bytes ≠ [] ∧ s.src.bytes = before ++ v :: after ∧ before.length = n :=
  ⟨reading (List.replicate n 0x41#8 ++ [0x42#8]), List.replicate n 0x41#8, [], 0x42#8,
    by simp [reading], rfl, List.length_replicate⟩

/-- `EncodeProducesTheStream`: one 'A' into a bounded sink with room for ENCODE's puts and not one
more; a source one byte too long. -/
theorem witness_EncodeProducesTheStream :
    (∃ (s : State) (puts : Nat), s.src.bytes ≠ [] ∧ s.src.bytes.length < 2 ^ 64 ∧
      puts = ((headerBits (countsOf s.src.bytes) (BitVec.ofNat 64 s.src.bytes.length)
        ++ s.src.bytes.flatMap (codeBits (codeTableOf (countsOf s.src.bytes)))).length + 7) / 8 ∧
      (∀ j, j < puts → s.snk.answers.getD j s.snk.later = true) ∧
      s.snk.answers.getD puts s.snk.later = false) ∧
    ∃ (s : State) (before after : List Byte) (v : Byte),
      s.src.bytes ≠ [] ∧ s.src.bytes = before ++ v :: after ∧ before.length = 2 ^ 64 - 1 := by
  obtain ⟨bytes, h0, h1⟩ : ∃ bytes : List Byte, bytes ≠ [] ∧ bytes.length < 2 ^ 64 :=
    ⟨[0x41#8], by decide, by decide⟩
  obtain ⟨puts, hp⟩ : ∃ puts, puts = ((headerBits (countsOf bytes) (BitVec.ofNat 64 bytes.length)
    ++ bytes.flatMap (codeBits (codeTableOf (countsOf bytes)))).length + 7) / 8 := ⟨_, rfl⟩
  exact ⟨⟨{ reading bytes with snk := room puts }, puts, h0, h1, hp, room_takes _,
    room_full _⟩, source_of_length _⟩

/-- What a good sink gets from ENCODE is longer than a header. -/
theorem encode_fills (s : State) (hb : s.src.bytes ≠ []) (hl : s.src.bytes.length < 2 ^ 64)
    (hk : s.snk.Good) :
    ∃ t, exec .encode s = next t ∧ 0 < t.snk.bytes.length := by
  obtain ⟨ct, b, bits, p, -, hbits, hp, -, -, -, -, -, h⟩ := encodeBody_parts s hb hl
  have hh : 0 < bits.length := by
    rw [hbits, List.length_append, headerBits_length]
    exact Nat.add_pos_left (by decide) _
  clear hbits
  obtain ⟨q1, -, q3⟩ := closeEncode_good bits s.snk hk
  have e := finish_of_ok (h.trans (q1 _ hp))
  have hlen := congrArg List.length q3
  rw [bitsOf_length] at hlen
  simp only [List.length_append] at hlen
  refine ⟨_, e, ?_⟩
  show 0 < (flushBits (writeAll bits (BitWriter.empty, s.snk))).2.bytes.length
  omega

/-- `EncodeReportsSinkFailure`: the first put fails. -/
theorem witness_EncodeReportsSinkFailure :
    ∃ (s g : State) (stream : List Byte) (j : Nat),
      s.src.bytes ≠ [] ∧ s.src.bytes.length < 2 ^ 64 ∧
      exec .encode { s with snk := s.snk.madeGood } = next g ∧
      g.snk.bytes = s.snk.bytes ++ stream ∧ j < stream.length ∧
      (∀ k, k < j → s.snk.answers.getD k s.snk.later = true) ∧
      s.snk.answers.getD j s.snk.later = false := by
  obtain ⟨g, e, hg⟩ := encode_fills { reading [0x41#8] with snk := (room 0).madeGood } (by decide)
    (by decide) ⟨rfl, by simp [Sink.madeGood]⟩
  exact ⟨{ reading [0x41#8] with snk := room 0 }, g, g.snk.bytes, 0, by decide, by decide, e, rfl,
    hg, fun k hk => absurd hk (by omega), rfl⟩

/-- BUILD of one symbol leaves its leaf alone (R156). -/
theorem single_built :
    field (fun t => (nodeAt t.node 0, t.nnodes)) (exec .build single)
      = some (leafNode 0x41#8 1#72, 1#9) := by decide +kernel

/-- `DecodeProducesTheSymbols`: one 'A', a sink with room for exactly one byte. -/
theorem witness_DecodeProducesTheSymbols :
    ∃ s : State,
      (∃ v, symGet single.ft v ≠ 0#64) ∧ [0x41#8].length < 2 ^ 64 ∧
      (∀ j, j < [0x41#8].length → s.snk.answers.getD j s.snk.later = true) ∧
      (∀ u', exec .build single = next u' →
        List.Forall₂ (fun bits v => IsCode u' bits v) [[]] [0x41#8]) ∧
      bitsOf s.src.bytes
        = headerBits single.ft (BitVec.ofNat 64 [0x41#8].length) ++ [[]].flatten ++ [] := by
  obtain ⟨bytes, h⟩ := header_bytes single.ft (BitVec.ofNat 64 [0x41#8].length)
  refine ⟨{ reading bytes with snk := room 1 }, ⟨0x41#8, by rw [single_count]; decide⟩, by decide,
    ?_, fun u' e => .cons ?_ .nil, ?_⟩
  · show ∀ j, j < 1 → [true].getD j false = true
    decide
  · have hb := single_built
    rw [e, field] at hb
    simp only [Option.some.injEq, Prod.mk.injEq] at hb
    have h0 : (u'.nnodes - 1#9).toNat = 0 := by rw [hb.2]; rfl
    exact ⟨_, rfl, by rw [h0, hb.1]; rfl, by rw [h0, hb.1]; rfl⟩
  · rw [List.flatten_cons, List.flatten_nil, List.append_nil, List.append_nil, List.append_nil]
    exact h

/-- `DecodeCompletes`: one 'A', its code the empty one, a sink with room for exactly one byte; and a
header with N = 0 over a sink that takes nothing. -/
theorem witness_DecodeCompletes :
    (∃ v, symGet single.ft v ≠ 0#64) ∧ [0x41#8].length < 2 ^ 64 ∧
    List.Forall₂ (IsCodeOf single.ft) [[]] [0x41#8] ∧
    (∃ s : State,
      bitsOf s.src.bytes
        = headerBits single.ft (BitVec.ofNat 64 [0x41#8].length) ++ [[]].flatten ++ [] ∧
      ∀ j, j < [0x41#8].length → s.snk.answers.getD j s.snk.later = true) ∧
    ∃ s : State,
      bitsOf s.src.bytes
        = headerBits single.ft (BitVec.ofNat 64 ([] : List Byte).length) ++ [].flatten ++ [] ∧
      s.snk = room 0 := by
  obtain ⟨bytes, h⟩ := header_bytes single.ft (BitVec.ofNat 64 [0x41#8].length)
  obtain ⟨none, h0⟩ := header_bytes single.ft (BitVec.ofNat 64 ([] : List Byte).length)
  refine ⟨⟨0x41#8, by rw [single_count]; decide⟩, by decide,
    .cons ⟨_, rfl, by decide +kernel, by decide +kernel⟩ .nil,
    ⟨{ reading bytes with snk := room 1 }, ?_, room_takes 1⟩,
    ⟨{ reading none with snk := room 0 }, ?_, rfl⟩⟩
  · rw [List.flatten_cons, List.flatten_nil, List.append_nil, List.append_nil, List.append_nil]
    exact h
  · rw [List.flatten_nil, List.append_nil, List.append_nil]
    exact h0

/-- `DecodeRefusesABadHeader`: one byte too few; a header of zeros. -/
theorem witness_DecodeRefusesABadHeader :
    (reading (List.replicate 2055 0#8)).src.bytes.length < 2056 ∧
      ∃ bytes, bitsOf (reading bytes).src.bytes = headerBits (Vector.replicate 256 0#64) 0#64 ++ [] := by
  refine ⟨by show (List.replicate 2055 0#8).length < 2056; rw [List.length_replicate]; omega, ?_⟩
  obtain ⟨bytes, h⟩ := header_bytes (Vector.replicate 256 0#64) 0#64
  exact ⟨bytes, by rw [List.append_nil]; exact h⟩

/-- `RoundTrip` and `SingleSymbolLaw` (with `m = 1`): an encoder over one byte, and a decoder over
what it gives. -/
theorem witness_RoundTrip :
    ∃ s d t : State, s.src.bytes ≠ [] ∧ s.src.bytes.length < 2 ^ 64 ∧
      s.src.bytes = List.replicate 1 0x41#8 ∧ s.snk.Good ∧ s.snk.bytes = [] ∧ d.snk.Good ∧
      d.snk.bytes = [] ∧ exec .encode s = next t ∧ d.src.bytes = t.snk.bytes := by
  obtain ⟨t, e, -⟩ := encode_fills (reading [0x41#8]) (by decide) (by decide) resetSink_good
  exact ⟨reading [0x41#8], reading t.snk.bytes, t, by decide, by decide, rfl, resetSink_good, rfl,
    resetSink_good, rfl, e, rfl⟩

theorem witness_StepwiseEquivalents :
    ((reading [0x41#8]).fault = false ∧ (reading [0x41#8]).bw = BitWriter.empty ∧
      (reading [0x41#8]).src.bytes ≠ [] ∧ (reading [0x41#8]).src.bytes.length < 2 ^ 64) ∧
    State.reset.fault = false ∧ State.reset.src.bytes = [] := by decide

theorem reset_units : UnitInv State.reset where
  writer := ⟨fun i _ => by simp [State.reset, BitWriter.empty], fun h => by cases h⟩
  reader := by simp [BitReader.Wf, State.reset, BitReader.empty]
  source := by simp [Source.Wf, State.reset]
  no_tree := fun _ => ⟨rfl, rfl⟩
  no_fault := fun _ => ⟨rfl, rfl⟩
  fault_code := fun h => by cases h

/-- The tree and the code table of "hello" beside units in order: a state in which both invariants
say something. -/
theorem hello_units : UnitInv hello where
  writer := reset_units.writer
  reader := reset_units.reader
  source := Nat.zero_le _
  no_tree := fun h => by cases h
  no_fault := fun _ => ⟨rfl, rfl⟩
  fault_code := fun h => by cases h

/-- `StepKeepsUnitInvariants`, `StepKeepsTreeAndCodeTable`, `NoStepStops`. -/
theorem witness_StepKeepsInvariants :
    UnitInv hello ∧ TreeInv hello ∧ Inv hello ∧ ∃ t, step hello = next t :=
  ⟨hello_units, hello_inv, ⟨hello_units, hello_inv⟩, _, rfl⟩

end Sys2Proof.Tests
end

section
/-! SUPPORT. The five bit-channel commands (40_bitchannel.md R125 to R129): each command is its
subroutine on its end of the channel, and each subroutine has one equation per case. -/

namespace Sys2Proof.Machine

/-! ### The commands as their subroutines -/

/-- WBIT is `bw_write` on the writer and the sink (R125). -/
theorem exec_wbit (b : Bool) (s : State) :
    exec (.wbit b) s = .next (retire (s.setOut (writeBit b (s.bw, s.snk)))) := rfl

/-- WFLUSH is `bw_flush` on the writer and the sink (R127). -/
theorem exec_wflush (s : State) :
    exec .wflush s = .next (retire (s.setOut (flushBits (s.bw, s.snk)))) := rfl

/-- WBITS sends the field's bits, one after another (R126). -/
theorem exec_wbits (n : BitVec 8) (s : State) :
    exec (.wbits n) s
      = .next (retire (s.setOut (writeAll (fieldBits s.opr n.toNat) (s.bw, s.snk)))) := by
  rw [← writeBits_eq_writeAll]; rfl

/-- RBIT that was given a bit (R128). -/
theorem exec_rbit_bit {s : State} {b : Bool} {p : BitReader × Source}
    (h : readBit (s.br, s.src) = (some b, p)) :
    exec .rbit s = .next (retire (setRes (zextBit b) (s.setIn p))) := by
  rw [exec, execRbit, rbitBody, h]; rfl

/-- RBIT at the end of input leaves RES (R128). -/
theorem exec_rbit_end {s : State} {p : BitReader × Source}
    (h : readBit (s.br, s.src) = (none, p)) :
    exec .rbit s = .next (retire (s.setIn p)) := by
  rw [exec, execRbit, rbitBody, h]; rfl

/-- RBITS that obtained all its bits (R129). -/
theorem exec_rbits_full {n : BitVec 8} {s : State} {v : Word} {p : BitReader × Source}
    (h : readBits n.toNat (s.br, s.src) = (n.toNat, v, p)) :
    exec (.rbits n) s = .next (retire (setRes v (s.setIn p))) := by
  rw [exec, execRbits, rbitsBody, h]
  exact congrArg (fun t => finish (.ok t)) (if_pos rfl)

/-- RBITS that obtained only `k` bits draws a free value for the others (R129, log 5). -/
theorem exec_rbits_short {n : BitVec 8} {s : State} {k : Nat} {v : Word} {p : BitReader × Source}
    (h : readBits n.toNat (s.br, s.src) = (k, v, p)) (hk : k ≠ n.toNat) :
    exec (.rbits n) s = .next
      (retire { setRes (shortResult k v (Config.freeRes s.draws)) (s.setIn p) with
                  draws := s.draws + 1 }) := by
  rw [exec, execRbits, rbitsBody, h]
  exact congrArg (fun t => finish (.ok t)) (if_neg hk)

/-! ### The writer, case by case (R120, R122) -/

/-- A writer that has not failed puts its byte and is empty; it fails exactly if the put does. -/
theorem putAcc_of_good {p : BitWriter × Sink} (hf : p.1.fail = false) :
    putAcc p
      = ({ acc := 0#8, cnt := 0#3, fail := !(p.2.put p.1.acc).1 }, (p.2.put p.1.acc).2) := by
  cases h : (p.2.put p.1.acc).1 <;> simp [putAcc, h, hf]

theorem setWidth_ofBool (b : Bool) : (BitVec.ofBool b).setWidth 8 = if b then 1#8 else 0#8 := by
  cases b <;> rfl

/-- A bit that does not complete the byte waits in the writer. -/
theorem writeBit_buffers {b : Bool} {p : BitWriter × Sink} (hf : p.1.fail = false)
    (hc : p.1.cnt ≠ 7#3) :
    writeBit b p
      = ({ acc := p.1.acc ||| ((if b then 1#8 else 0#8) <<< (7 - p.1.cnt.toNat))
           cnt := p.1.cnt + 1#3, fail := false }, p.2) := by
  simp [writeBit, hf, hc, setWidth_ofBool]

/-- The eighth bit completes the byte, which is put. -/
theorem writeBit_completes {b : Bool} {p : BitWriter × Sink} (hf : p.1.fail = false)
    (hc : p.1.cnt = 7#3) :
    writeBit b p
      = putAcc ({ p.1 with
          acc := p.1.acc ||| ((if b then 1#8 else 0#8) <<< (7 - p.1.cnt.toNat)) }, p.2) := by
  simp [writeBit, hf, hc, setWidth_ofBool]

/-- Nothing to flush: the writer has failed, or no bit waits in it. -/
theorem flushBits_idle {p : BitWriter × Sink} (h : p.1.fail = true ∨ p.1.cnt = 0#3) :
    flushBits p = p := by
  rcases h with h | h <;> simp [flushBits, h]

/-- A partial byte is put. -/
theorem flushBits_partial {p : BitWriter × Sink} (hf : p.1.fail = false) (hc : p.1.cnt ≠ 0#3) :
    flushBits p = putAcc p := by
  simp [flushBits, hf, hc]

/-! ### The reader, case by case (R123) -/

theorem zextBit_eq (b : Bool) : zextBit b = if b then 1#64 else 0#64 := by cases b <;> rfl

/-- A bit of the reader's own byte. -/
theorem readBit_own {p : BitReader × Source} (h : p.1.cnt ≠ 0#4) :
    readBit p = deliverBit p := by
  simp [readBit, h]

/-- An empty reader takes the source's next byte and delivers its top bit. -/
theorem readBit_refill {p : BitReader × Source} {b : Byte} (h : p.1.cnt = 0#4)
    (hb : p.2.bytes[p.2.pos]? = some b) :
    readBit p = (some (b.getLsbD 7),
      ({ byte := b, cnt := 7#4, eof := p.1.eof }, { p.2 with pos := p.2.pos + 1 })) := by
  simp [readBit, h, Source.next, hb, deliverBit]

/-- An empty reader at the end of the source marks the end. -/
theorem readBit_end {p : BitReader × Source} (h : p.1.cnt = 0#4)
    (hb : p.2.bytes[p.2.pos]? = none) :
    readBit p = (none, ({ p.1 with eof := true }, p.2)) := by
  simp [readBit, h, Source.next, hb]

/-- RES after a short read: its low `k` bits are the value's, whatever was drawn (R129). -/
theorem shortResult_low (k : Nat) (v free : Word) (hk : k ≤ 64) :
    (shortResult k v free).toNat % 2 ^ k = v.toNat % 2 ^ k := by
  have low : ∀ i, i < k → (shortResult k v free).getLsbD i = v.getLsbD i := fun i hi => by
    have ones : (BitVec.ofNat 64 (2 ^ k - 1)).getLsbD i = true := by
      rw [BitVec.getLsbD_ofNat, Nat.testBit_two_pow_sub_one]
      simp only [hi, decide_true, Bool.and_true, decide_eq_true_eq]
      omega
    simp only [shortResult, BitVec.getLsbD_or, BitVec.getLsbD_and, BitVec.getLsbD_not, ones,
      Bool.and_true, Bool.not_true, Bool.and_false, Bool.or_false]
  apply Nat.eq_of_testBit_eq
  intro i
  rw [Nat.testBit_mod_two_pow, Nat.testBit_mod_two_pow]
  by_cases hi : i < k
  · rw [BitVec.testBit_toNat, BitVec.testBit_toNat, low i hi]
  · simp [hi]

/-! ### The statements -/

/-- Settles O25: by whether the reader can deliver all `n` bits. -/
theorem rbitsReadsTheField : Obligations.RbitsReadsTheField := by
  intro n s hn
  refine ⟨fun h => ?full, fun h => ?short⟩
  case full =>
    obtain ⟨p, hread, hin, heof, hbytes⟩ := readBits_full n.toNat (s.br, s.src) h
    exact ⟨p.1, p.2, exec_rbits_full hread, hin, heof, hbytes⟩
  case short =>
    obtain ⟨p, hread, hin, heof, hbytes⟩ := readBits_short n.toNat (s.br, s.src) h
    refine ⟨p.1, p.2, _, _, exec_rbits_short hread (by omega), ?_, hin, heof, hbytes⟩
    have hv := natOf_lt (inBits (s.br, s.src))
    have h64 : natOf (inBits (s.br, s.src)) < 2 ^ 64 :=
      hv.trans_le (Nat.pow_le_pow_right (by decide) (by omega))
    calc (shortResult _ _ _).toNat % 2 ^ (inBits (s.br, s.src)).length
      _ = natOf (inBits (s.br, s.src)) % 2 ^ 64 % 2 ^ (inBits (s.br, s.src)).length := by
        rw [shortResult_low _ _ _ (by omega), BitVec.toNat_ofNat]
      _ = natOf (inBits (s.br, s.src)) := by rw [Nat.mod_eq_of_lt h64, Nat.mod_eq_of_lt hv]

/-- Settles O19: `bw_write` case by case. -/
theorem wbitEveryCase : Obligations.WbitEveryCase := by
  intro b s
  refine ⟨fun hf => ?failed, fun hf hc => ?buffers, fun hf hc => ?completes⟩
  case failed => rw [exec_wbit, writeBit_failed b _ hf]; rfl
  case buffers => rw [exec_wbit, writeBit_buffers hf hc]; rfl
  case completes => rw [exec_wbit, writeBit_completes hf hc, putAcc_of_good hf]; rfl

/-- Settles O20: a field through `bw_write_bits` is its bits one after another. -/
theorem wbitsSendsTheField : Obligations.WbitsSendsTheField := by
  intro n s
  rw [exec_wbits, retire_setOut]

/-- Settles O22: `bw_flush` case by case. -/
theorem wflushEveryCase : Obligations.WflushEveryCase := by
  intro s
  refine ⟨fun h => ?idle, fun hf hc => ?byte⟩
  case idle => rw [exec_wflush, flushBits_idle h]; rfl
  case byte => rw [exec_wflush, flushBits_partial hf hc, putAcc_of_good hf]; rfl

/-- Settles O24: `br_read` case by case. -/
theorem rbitEveryCase : Obligations.RbitEveryCase := by
  intro s
  refine ⟨fun h => ?own, fun h b hb => ?refill, fun h hb => ?ends⟩
  case own => rw [exec_rbit_bit (readBit_own h), zextBit_eq]; rfl
  case refill => rw [exec_rbit_bit (readBit_refill h hb), zextBit_eq]; rfl
  case ends => rw [exec_rbit_end (readBit_end h hb)]; rfl

end Sys2Proof.Machine
end

section
/-! SUPPORT. The frequency table's commands FTCLR, FTINC and FTRD, the readouts of the code table,
NOP and SRCRW (41_freqtable.md R140 to R143, 43_codetable.md R173 and R174, 45_codec.md R202): each
command as its subroutine, and the fields of the words they leave in RES. -/

namespace Sys2Proof.Machine

/-! ### The commands as their subroutines -/

/-- FTINC withdraws the derived structures, then counts (R142, R145). -/
theorem exec_ftinc (v : Byte) (s : State) :
    exec (.ftinc v) s = finish (ftInc v (invalidate s)) := rfl

/-- FTCLR withdraws the derived structures and clears the counters (R140, R145). -/
theorem exec_ftclr (s : State) :
    exec .ftclr s = .next (retire (clearTable (invalidate s))) := rfl

/-- SRCRW rewinds the source and empties the reader (R202). -/
theorem exec_srcrw (s : State) :
    exec .srcrw s = .next (retire (s.setIn (BitReader.empty, s.src.rewind))) := rfl

/-- FTRD leaves its slot in RES (R143). -/
theorem exec_ftrd (v : Byte) (s : State) :
    exec (.ftrd v) s = .next (retire (setRes (symGet s.ft v) s)) := rfl

/-- CTLEN with a code table (R173). -/
theorem exec_ctlen (v : Byte) {s : State} (h : s.ctOk = true) :
    exec (.ctlen v) s = .next (retire (setRes (lenWord (symGet s.ct v)) s)) :=
  needTable_ok _ s _ h

/-- CTRD with a code table (R174). -/
theorem exec_ctrd (v : Byte) (w : BitVec 2) {s : State} (h : s.ctOk = true) :
    exec (.ctrd v w) s = .next (retire (setRes (codeWord (symGet s.ct v).code w) s)) :=
  needTable_ok _ s _ h

/-! ### The fields of CTLEN's word (R173) and the bits of CTRD's (R174) -/

theorem lenWord_high (e : CodeEntry) : (lenWord e).extractLsb' 9 55 = 0#55 := by
  rw [lenWord, BitVec.extractLsb'_append_eq_of_le (by decide)]
  exact BitVec.extractLsb'_append_eq_left

theorem lenWord_valid (e : CodeEntry) : (lenWord e).getLsbD 8 = e.valid := by
  rw [lenWord, BitVec.getLsbD_append, if_neg (by decide), BitVec.getLsbD_append, if_pos (by decide),
    BitVec.getLsbD_ofBool]
  rfl

theorem lenWord_len (e : CodeEntry) : (lenWord e).extractLsb' 0 8 = e.len :=
  BitVec.extractLsb'_append_eq_right

theorem codeWord_getLsbD (code : CodeBits) (w : BitVec 2) {k : Nat} (h : k < 64) :
    (codeWord code w).getLsbD k = code.getLsbD (64 * w.toNat + k) := by
  rw [codeWord, BitVec.getLsbD_extractLsb', decide_eq_true h, Bool.true_and]

/-! ### The statements -/

/-- Settles O28: by whether a counter is full, after the withdrawal that FTINC begins with. -/
theorem ftincCountsOrOverflows : Obligations.FtincCountsOrOverflows := by
  intro v s
  refine ⟨(invalidate s).node, (invalidate s).draws, fun hslot htotal => ?counts, fun hfull => ?full⟩
  case counts =>
    refine ⟨symSet s.ft v (symGet s.ft v + 1#64), ?_, symGet_symSet_self _ _ _,
      fun x hx => symGet_symSet_other _ _ _ _ hx.symm⟩
    rw [exec_ftinc, ftInc_ok v (invalidate s) hslot htotal]; rfl
  case full => rw [exec_ftinc, ftInc_full v (invalidate s) hfull]; rfl

/-- Settles O15: each command's subroutine, written out field by field. -/
theorem nopFtclrSrcrw : Obligations.NopFtclrSrcrw := by
  intro s
  refine ⟨?nop, ⟨(invalidate s).node, (invalidate s).draws, ?ftclr⟩, ?srcrw⟩
  case nop => exact finish_ok s
  case ftclr => exact exec_ftclr s
  case srcrw => exact exec_srcrw s

/-- Settles O39: each word put in RES, with its fields. -/
theorem tableReadouts : Obligations.TableReadouts := by
  intro v w s
  refine ⟨exec_ftrd v s, fun h => ?ctlen, fun h => ?ctrd⟩
  case ctlen =>
    exact ⟨_, exec_ctlen v h, lenWord_high _, lenWord_valid _, lenWord_len _⟩
  case ctrd =>
    exact ⟨_, exec_ctrd v w h, fun k hk => codeWord_getLsbD _ w hk⟩

end Sys2Proof.Machine
end

section
/-! SUPPORT. The two commands that end with no result for want of symbols: BUILD on a table of zeros
(42_treebuilder.md R157) and ENCODE on a source of no bytes (45_codec.md R212). -/

namespace Sys2Proof.Machine

/-- A scan from the end of the source counts nothing (R144). -/
theorem scanBody_at_end (s : State) (h : s.src.rest = []) : scanBody s = .ok s := by
  rw [scanBody, remaining_eq, h, List.length_nil, scanLoop]

/-- ENCODE whose first pass met no byte raises before the tree and the header (R212). -/
theorem encodeBody_no_bytes (s : State) (h : s.src.bytes = []) :
    encodeBody s = .raised .emptyInput 0#64 (srcRewind (clearUnits s)) := by
  have hrest : (srcRewind (clearUnits s)).src.rest = [] := by simp [Source.rest, Source.rewind, h]
  have hntot : (srcRewind (clearUnits s)).ntot = 0#64 := by simp
  rw [encodeBody, scanBody_at_end _ hrest, bind_ok, if_pos hntot]

/-- ENCODE as a command, on a source of no bytes. -/
theorem exec_encode_no_bytes (s : State) (h : s.src.bytes = []) :
    exec .encode s = .next (raiseFault .emptyInput 0#64 (srcRewind (clearUnits s))) := by
  rw [exec, execEncode, encodeBody_no_bytes s h, finish_raised]

/-! ### The statement -/

/-- Settles O31: each raise of its body, written out field by field. -/
theorem nothingToBuildOrEncode : Obligations.NothingToBuildOrEncode := by
  intro s
  refine ⟨fun hzero => ?build, fun hempty => ?encode⟩
  case build => exact ⟨unspecifiedNodes s.draws, s.draws + 1, execBuild_empty s hzero⟩
  case encode =>
    refine ⟨unspecifiedNodes s.draws, s.draws + 1, ?_⟩
    rw [exec_encode_no_bytes s hempty]
    rfl

end Sys2Proof.Machine
end

section
/-! SUPPORT. ENCSYM (43_codetable.md R175, R176): the command as `enc_sym`, and `enc_sym` by whether
the symbol has a code. -/

namespace Sys2Proof.Machine

/-- `enc_sym(v)` of a symbol with a code sends the code's bits, first bit first. -/
theorem encSym_valid {v : Byte} {s : State} (h : (symGet s.ct v).valid = true) :
    encSym v s = .ok (s.setOut (writeAll (codeBits s.ct v) (s.bw, s.snk))) := by
  rw [encSym, if_pos h, bwWriteBits_eq, codeBits]

/-- `enc_sym(v)` of a symbol without a code raises NoCode with the symbol and sends nothing. -/
theorem encSym_noCode {v : Byte} {s : State} (h : (symGet s.ct v).valid = false) :
    encSym v s = .raised .noCode (zextByte v) s := by
  rw [encSym, h, if_neg Bool.false_ne_true]

/-- ENCSYM with a code table is `enc_sym` (R176). -/
theorem exec_encsym (v : Byte) {s : State} (h : s.ctOk = true) :
    exec (.encsym v) s = finish (encSym v s) :=
  needTable_ok _ s _ h

/-! ### The statement -/

/-- Settles O40: by whether the symbol has a code. -/
theorem encsymSendsTheCode : Obligations.EncsymSendsTheCode := by
  intro v s hct
  refine ⟨fun hvalid => ?sends, fun hnone => ?noCode⟩
  case sends => rw [exec_encsym v hct, encSym_valid hvalid, finish_ok, retire_setOut]
  case noCode => rw [exec_encsym v hct, encSym_noCode hnone, finish_raised]; rfl

end Sys2Proof.Machine
end

section
/-! SUPPORT. The two commands that send the parts of a stream: WRHDR (45_codec.md R198, R199) and
ENCPAY (R203, R204), each the command as its subroutine. -/

namespace Sys2Proof.Machine

/-- WRHDR is `wr_hdr()` (R199): the header's bits sent, and the command complete. -/
theorem exec_wrhdr (s : State) :
    exec .wrhdr s
      = .next (retire (s.setOut (writeAll (headerBits s.ft s.ntot) (s.bw, s.snk)))) := by
  rw [exec, execWrhdr_eq]

/-- ENCPAY with a code table is `enc_pay()` (R204). -/
theorem exec_encpay {s : State} (h : s.ctOk = true) : exec .encpay s = finish (encPay s) :=
  needTable_ok _ s _ h

/-- ENCPAY over a source whose remaining bytes all have codes sends those codes in order and
consumes the source to its end (R203). -/
theorem exec_encpay_sends {s : State} (hct : s.ctOk = true)
    (hvalid : ∀ b ∈ s.src.rest, (symGet s.ct b).valid = true) :
    exec .encpay s = .next (retire
      { s.setOut (writeAll (s.src.rest.flatMap (codeBits s.ct)) (s.bw, s.snk)) with
        src := { s.src with pos := s.src.pos + s.src.rest.length } }) := by
  rw [exec_encpay hct, encPay_sends s hvalid, finish_ok]

/-- ENCPAY that meets a byte without a code has sent the codes before it and consumed the byte
itself (R203). -/
theorem exec_encpay_noCode {s : State} {before after : List Byte} {v : Byte} (hct : s.ctOk = true)
    (hrest : s.src.rest = before ++ v :: after)
    (hvalid : ∀ b ∈ before, (symGet s.ct b).valid = true)
    (hnone : (symGet s.ct v).valid = false) :
    exec .encpay s = .next (raiseFault .noCode (zextByte v)
      { s.setOut (writeAll (before.flatMap (codeBits s.ct)) (s.bw, s.snk)) with
        src := { s.src with pos := s.src.pos + before.length + 1 } }) := by
  rw [exec_encpay hct, encPay_noCode s before after v hrest hvalid hnone, finish_raised]

/-! ### The statements -/

/-- Settles O43: `wr_hdr()` sends the header's bits, whatever the sink answers. -/
theorem wrhdrSendsTheHeader : Obligations.WrhdrSendsTheHeader := by
  intro s
  rw [exec_wrhdr, retire_setOut]

/-- Settles O46: by what follows the bytes with a code, nothing or a byte without one. -/
theorem encpaySendsTheCodes : Obligations.EncpaySendsTheCodes := by
  intro s before after hct hrest hvalid
  refine ⟨fun hend => ?allSent, fun v rest hstop hnone => ?stopsAt⟩
  case allSent =>
    obtain rfl : before = s.src.rest := by rw [hrest, hend, List.append_nil]
    rw [exec_encpay_sends hct hvalid]
    rfl
  case stopsAt =>
    rw [hstop] at hrest
    rw [exec_encpay_noCode hct hrest hvalid hnone]
    rfl

end Sys2Proof.Machine
end

section
/-! SUPPORT. The preconditions of 30_encoding.md R99 step 4 (60_exceptions.md R236): each command
that needs the tree, and each that needs the code table, where there is none. -/

namespace Sys2Proof.Machine

/-- Without a tree, CTGEN, DECSYM, DECPAY and NDRD stop at their precondition. -/
theorem exec_without_tree {i : Instr} {s : State} (h : s.treeOk = false)
    (hi : i = .ctgen ∨ i = .decsym ∨ i = .decpay ∨ ∃ idx, i = .ndrd idx) :
    exec i s = .next (raiseFault .stateInvalid (encodeCmd i) s) := by
  obtain rfl | rfl | rfl | ⟨idx, rfl⟩ := hi <;> exact needTree_missing _ s _ h

/-- Without a code table, ENCPAY, CTLEN, CTRD and ENCSYM stop at their precondition. -/
theorem exec_without_table {i : Instr} {s : State} (h : s.ctOk = false)
    (hi : i = .encpay ∨ (∃ v, i = .ctlen v) ∨ (∃ v w, i = .ctrd v w) ∨ ∃ v, i = .encsym v) :
    exec i s = .next (raiseFault .stateInvalid (encodeCmd i) s) := by
  obtain rfl | ⟨v, rfl⟩ | ⟨v, w, rfl⟩ | ⟨v, rfl⟩ := hi <;> exact needTable_missing _ s _ h

/-! ### The statement -/

/-- Settles O13: by which precondition fails; fault entry written out field by field is the
statement's next state (R240). -/
theorem preconditionFailureRaises : Obligations.PreconditionFailureRaises := by
  intro s
  refine ⟨fun htree i hi => ?tree, fun htable i hi => ?table⟩
  case tree => exact exec_without_tree htree hi
  case table => exact exec_without_table htable hi

end Sys2Proof.Machine
end

section
/-! SUPPORT. The encoding (30_encoding.md R90 to R95): a word is its opcode above its operand bits, a
format admits exactly the words whose operand bits are its own fields over zeros, and so the decoder
and the encoder are inverse to each other. -/

namespace Sys2Proof

/-! ### Words and formats -/

/-- The format of a command's row (R93). -/
def Instr.format : Instr → Format
  | .wbit _ => .b
  | .wbits _ | .rbits _ => .n
  | .ftinc _ | .ftrd _ | .ctlen _ | .encsym _ => .s
  | .ctrd _ _ => .sw
  | .ndrd _ => .x
  | .nop | .init | .wflush | .rbit | .ftclr | .scan | .build | .ctgen | .decsym | .wrhdr | .rdhdr
  | .srcrw | .encpay | .decpay | .encode | .decode => .z

/-- What a format leaves of the bits [23:0] of a word: its fields at their places over zeros (R91). -/
def Format.operands : Format → CmdWord → BitVec 24
  | .z, _ => 0#24
  | .b, w => 0#23 ++ BitVec.ofBool (bField w)
  | .n, w => nField w ++ 0#16
  | .s, w => 0#16 ++ symField w
  | .sw, w => 0#6 ++ wField w ++ 0#8 ++ symField w
  | .x, w => 0#15 ++ idxField w

/-- The fields of a format are the operand bits its mask leaves free. -/
theorem operands_getLsbD (f : Format) (w : CmdWord) {k : Nat} (hk : k < 24) :
    (f.operands w).getLsbD k = (w.getLsbD k && !f.mask.getLsbD k) := by
  cases f with
  | z => interval_cases k <;> simp [Format.operands, Format.mask]
  | b =>
    refine (BitVec.getLsbD_append (x := 0#23) (y := BitVec.ofBool _)).trans ?_
    interval_cases k <;> simp [bField, Format.mask]
  | n =>
    refine (BitVec.getLsbD_append (x := nField w) (y := 0#16)).trans ?_
    interval_cases k <;> simp [nField, Format.mask]
  | s =>
    refine (BitVec.getLsbD_append (x := 0#16) (y := symField w)).trans ?_
    interval_cases k <;> simp [symField, Format.mask]
  | sw =>
    refine (BitVec.getLsbD_append (x := 0#6 ++ wField w ++ 0#8) (y := symField w)).trans ?_
    rw [BitVec.getLsbD_append (x := 0#6 ++ wField w) (y := 0#8),
      BitVec.getLsbD_append (x := 0#6) (y := wField w)]
    interval_cases k <;> simp [symField, wField, Format.mask]
  | x =>
    refine (BitVec.getLsbD_append (x := 0#15) (y := idxField w)).trans ?_
    interval_cases k <;> simp [idxField, Format.mask]

/-- Every format fixes the opcode's bits. -/
theorem mask_opcode (f : Format) {k : Nat} (hk : k < 32) (h : 24 ≤ k) :
    f.mask.getLsbD k = true := by
  cases f <;> interval_cases k <;> rfl

/-- A word is an example of a row with format `f` exactly when its operand bits are the format's
fields over zeros (R91). -/
theorem mask_iff (f : Format) (w : CmdWord) :
    w &&& f.mask = w &&& 0xFF000000#32 ↔ w.extractLsb' 0 24 = f.operands w := by
  have hff : ∀ k, k < 32 → (0xFF000000#32).getLsbD k = decide (24 ≤ k) := by decide
  constructor
  · intro h
    apply BitVec.eq_of_getLsbD_eq
    intro k hk
    have hb := congrArg (BitVec.getLsbD · k) h
    simp only [BitVec.getLsbD_and, hff k (by omega), decide_eq_false (by omega : ¬ 24 ≤ k)] at hb
    rw [operands_getLsbD f w hk, BitVec.getLsbD_extractLsb', decide_eq_true hk, Nat.zero_add]
    revert hb
    cases w.getLsbD k <;> cases f.mask.getLsbD k <;> decide
  · intro h
    apply BitVec.eq_of_getLsbD_eq
    intro k hk
    rw [BitVec.getLsbD_and, BitVec.getLsbD_and, hff k hk]
    by_cases h24 : 24 ≤ k
    · rw [mask_opcode f hk h24, decide_eq_true h24]
    · have hb := congrArg (BitVec.getLsbD · k) h
      simp only [operands_getLsbD f w (by omega : k < 24), BitVec.getLsbD_extractLsb',
        decide_eq_true (by omega : k < 24), Nat.zero_add] at hb
      rw [decide_eq_false h24]
      revert hb
      cases w.getLsbD k <;> cases f.mask.getLsbD k <;> decide

/-- A word is its opcode field above its operand bits (R90). -/
theorem word_split (w : CmdWord) : w = opField w ++ w.extractLsb' 0 24 := by
  rw [opField, BitVec.extractLsb'_append_extractLsb'_eq_extractLsb' (by decide)]
  simp

theorem opField_encode (i : Instr) : opField (encode i) = opcode i := by
  rw [opField, encode, BitVec.extractLsb'_append_eq_of_le (by decide)]
  simp

theorem operandBits_encode (i : Instr) : (encode i).extractLsb' 0 24 = operandBits i :=
  BitVec.extractLsb'_append_eq_right

/-! ### A row read (R95) -/

theorem rowInstr_ok_iff (f : Format) (w : CmdWord) (i j : Instr) :
    rowInstr f w i = .ok j ↔ i = j ∧ i.wf = true ∧ w.extractLsb' 0 24 = f.operands w := by
  rw [rowInstr]
  by_cases hm : w &&& f.mask = w &&& 0xFF000000#32
  · have := (mask_iff f w).mp hm
    by_cases hw : i.wf = true <;> simp [hm, hw, this]
  · have := mt (mask_iff f w).mpr hm
    simp [hm, this]

/-- The decoder reads the row of the command's own opcode: its operands are the word's fields. -/
theorem decodeWord_ok {w : CmdWord} {i : Instr} (h : decodeWord w = .ok i) :
    i.wf = true ∧ opField w = opcode i ∧ w.extractLsb' 0 24 = operandBits i := by
  rw [decodeWord] at h
  split at h
  case h_26 => cases h
  all_goals
    obtain ⟨rfl, hwf, hop⟩ := (rowInstr_ok_iff _ _ _ _).mp h
    exact ⟨hwf, by assumption, hop⟩

/-! ### The fields of a command's word (R91) -/

/-- A field that lies in the operand bits is read from them. -/
theorem extractLsb'_operands (w : CmdWord) {a n : Nat} (h : a + n ≤ 24) :
    w.extractLsb' a n = (w.extractLsb' 0 24).extractLsb' a n := by
  rw [BitVec.extractLsb'_extractLsb'_of_le h]

theorem bField_encode (b : Bool) : bField (encode (.wbit b)) = b := by
  cases b <;> decide

theorem nField_eq {w : CmdWord} {n : BitVec 8} (h : w.extractLsb' 0 24 = n ++ 0#16) :
    nField w = n := by
  rw [nField, extractLsb'_operands w (by decide), h]
  exact BitVec.extractLsb'_append_eq_left

theorem symField_eq {w : CmdWord} {x : BitVec 16} {sym : Byte}
    (h : w.extractLsb' 0 24 = x ++ sym) : symField w = sym := by
  rw [symField, extractLsb'_operands w (by decide), h]
  exact BitVec.extractLsb'_append_eq_right

theorem idxField_eq {w : CmdWord} {idx : NodeIdx} (h : w.extractLsb' 0 24 = 0#15 ++ idx) :
    idxField w = idx := by
  rw [idxField, extractLsb'_operands w (by decide), h]
  exact BitVec.extractLsb'_append_eq_right

theorem wField_encode (sym : Byte) (w : BitVec 2) : wField (encode (.ctrd sym w)) = w := by
  rw [wField, extractLsb'_operands _ (by decide), operandBits_encode]
  refine (BitVec.extractLsb'_append_eq_of_le (xhi := 0#6 ++ w ++ 0#8) (xlo := sym) (by decide)).trans ?_
  refine (BitVec.extractLsb'_append_eq_of_le (xhi := 0#6 ++ w) (xlo := 0#8) (by decide)).trans ?_
  exact BitVec.extractLsb'_append_eq_right

/-- The decoder finds the command's own row, and reads its operands there (R93). -/
theorem decodeWord_encode (i : Instr) : decodeWord (encode i) = rowInstr i.format (encode i) i := by
  have hop := operandBits_encode i
  rw [decodeWord, opField_encode]
  cases i with
  | wbit b => exact congrArg (fun b' => rowInstr .b _ (.wbit b')) (bField_encode b)
  | wbits n => exact congrArg (fun n' => rowInstr .n _ (.wbits n')) (nField_eq hop)
  | rbits n => exact congrArg (fun n' => rowInstr .n _ (.rbits n')) (nField_eq hop)
  | ftinc v => exact congrArg (fun v' => rowInstr .s _ (.ftinc v')) (symField_eq hop)
  | ftrd v => exact congrArg (fun v' => rowInstr .s _ (.ftrd v')) (symField_eq hop)
  | ctlen v => exact congrArg (fun v' => rowInstr .s _ (.ctlen v')) (symField_eq hop)
  | encsym v => exact congrArg (fun v' => rowInstr .s _ (.encsym v')) (symField_eq hop)
  | ndrd idx => exact congrArg (fun i' => rowInstr .x _ (.ndrd i')) (idxField_eq hop)
  | ctrd v w =>
    exact congrArg₂ (fun v' w' => rowInstr .sw _ (.ctrd v' w')) (symField_eq hop) (wField_encode v w)
  | _ => rfl

/-- The fields over zeros of a command's word are its operand bits. -/
theorem operands_encode (i : Instr) : i.format.operands (encode i) = operandBits i := by
  have hop := operandBits_encode i
  cases i with
  | wbit b => exact congrArg (fun b' => 0#23 ++ BitVec.ofBool b') (bField_encode b)
  | wbits n => exact congrArg (· ++ 0#16) (nField_eq hop)
  | rbits n => exact congrArg (· ++ 0#16) (nField_eq hop)
  | ftinc v => exact congrArg (0#16 ++ ·) (symField_eq hop)
  | ftrd v => exact congrArg (0#16 ++ ·) (symField_eq hop)
  | ctlen v => exact congrArg (0#16 ++ ·) (symField_eq hop)
  | encsym v => exact congrArg (0#16 ++ ·) (symField_eq hop)
  | ndrd idx => exact congrArg (0#15 ++ ·) (idxField_eq hop)
  | ctrd v w =>
    exact congrArg₂ (fun v' w' => 0#6 ++ w' ++ 0#8 ++ v') (symField_eq hop) (wField_encode v w)
  | _ => rfl

/-! ### Values written to CMD (R90, R95) -/

theorem encodeCmd_upper (i : Instr) : (encodeCmd i).extractLsb' 32 32 = 0#32 :=
  (Laws.OpcodeField.of_encode i).2

theorem encodeCmd_lower (i : Instr) : (encodeCmd i).extractLsb' 0 32 = encode i := by
  rw [encodeCmd, BitVec.extractLsb'_setWidth_of_le (by decide)]
  simp

/-- A value whose upper half is zero is its lower half zero-extended. -/
theorem value_of_upper {v : Word} (h : v.extractLsb' 32 32 = 0#32) :
    (v.extractLsb' 0 32).setWidth 64 = v := by
  have hv := congrArg BitVec.toNat h
  have := v.isLt
  apply BitVec.eq_of_toNat_eq
  simp only [BitVec.extractLsb'_toNat, BitVec.toNat_setWidth, BitVec.toNat_ofNat,
    Nat.shiftRight_eq_div_pow] at hv ⊢
  omega

/-! ### The statements -/

/-- Settles O1: the decoder finds the command's own row, whose format admits the command's word. -/
theorem decodeInvertsEncode : Obligations.DecodeInvertsEncode := by
  intro i hwf
  have hrow : rowInstr i.format (encode i) i = .ok i :=
    (rowInstr_ok_iff _ _ _ _).mpr ⟨rfl, hwf, by rw [operandBits_encode, operands_encode]⟩
  rw [decode, encodeCmd_upper, if_neg (by simp), encodeCmd_lower, decodeWord_encode, hrow]

/-- Settles O2: an accepted value is its opcode above its operand bits, and those are the command's. -/
theorem acceptedValueIsItsCommandsWord : Obligations.AcceptedValueIsItsCommandsWord := by
  intro v i h
  rw [decode] at h
  split at h
  case isTrue => cases h
  case isFalse hupper =>
    obtain ⟨hwf, hop, hbits⟩ := decodeWord_ok h
    refine ⟨hwf, ?_⟩
    rw [encodeCmd, encode, ← hop, ← hbits, ← word_split, value_of_upper (by simpa using hupper)]

/-- Settles O3: the decoder run on each word. -/
theorem workedEncodings : Obligations.WorkedEncodings := by
  unfold Obligations.WorkedEncodings
  decide

end Sys2Proof
end

section
/-! SUPPORT. What every step keeps: one induction-free rule for a predicate of states, and the
invariants of 10_state.md R41, the streams of 20_memory.md R60 and R64, and progress
(60_exceptions.md R254) as its uses. -/

namespace Sys2Proof.Machine

/-! ### One rule for all steps -/

/-- What a predicate of states must survive to survive every step: the host's access taken, its
answer logged, a write to OPR, a reset, an illegal value, and every command but INIT. -/
structure Kept (P : State → Prop) : Prop where
  taken : ∀ s rest, P s → P { s with inputs := rest }
  answered : ∀ s r, P s → P (reply r s)
  oprWritten : ∀ s v, P s → P { s with opr := v }
  reset : ∀ s, P s → P (resetCore s)
  illegal : ∀ s v, s.fault = false → P s → P (raiseFault .illegalCommand v s)
  command : ∀ i s t, i ≠ .init → exec i s = .next t → P s → P t

theorem Kept.writeCmd {P : State → Prop} (h : Kept P) {v : Word} {s t : State}
    (e : writeCmd v s = .next t) (hs : P s) : P t := by
  rcases writeCmd_cases v s t e with ⟨-, -, rfl⟩ | ⟨-, rfl⟩ | ⟨hf, rfl⟩ | ⟨i, hi, -, -, e⟩
  · exact hs
  · exact h.reset s hs
  · exact h.illegal s v hf hs
  · exact h.command i s t hi e hs

/-- A predicate that survives each of these survives every step. -/
theorem Kept.step {P : State → Prop} (h : Kept P) {s t : State} (e : step s = .next t)
    (hs : P s) : P t := by
  rcases step_cases s t e with ⟨-, rfl⟩ | ⟨a, rest, -, e⟩
  · exact hs
  have hs' := h.taken s rest hs
  rcases accept_cases a _ t e with ⟨-, rfl⟩ | ⟨r, rfl⟩ | ⟨r, v, rfl⟩ | ⟨v, u, -, e', rfl⟩
  · exact h.reset _ hs'
  · exact h.answered _ r hs'
  · exact h.answered _ r (h.oprWritten _ v hs')
  · exact h.answered u _ (h.writeCmd e' hs')

/-! ### The units' invariants -/

theorem cause_code_range (c : Cause) : 1 ≤ c.code.toNat ∧ c.code.toNat ≤ 8 := by
  cases c <;> decide

/-- The state a body leaves still meets the units' invariants. -/
theorem Does.unitInv {i : Instr} {s u : State} (h : Does i s u) (hs : UnitInv s) : UnitInv u where
  writer := h.frame.writer hs.writer
  reader := h.frame.reader hs.reader
  source := h.frame.srcWf hs.source
  no_tree := h.marks hs.no_tree
  no_fault := by rw [h.frame.fault, h.frame.err, h.frame.errinfo]; exact hs.no_fault
  fault_code := by rw [h.frame.fault, h.frame.err]; exact hs.fault_code

theorem unitInv_retire {s : State} (h : UnitInv s) : UnitInv (retire s) :=
  ⟨h.writer, h.reader, h.source, h.no_tree, h.no_fault, h.fault_code⟩

theorem unitInv_raiseFault {s : State} (c : Cause) (info : Word) (h : UnitInv s) :
    UnitInv (raiseFault c info s) :=
  ⟨h.writer, h.reader, h.source, h.no_tree, Bool.noConfusion, fun _ => cause_code_range c⟩

theorem unitInv_resetCore {s : State} (h : UnitInv s) : UnitInv (resetCore s) :=
  ⟨emptyWriter_wf, emptyReader_wf, h.source, fun _ => ⟨rfl, rfl⟩, fun _ => ⟨rfl, rfl⟩,
    Bool.noConfusion⟩

theorem unitInv_kept : Kept UnitInv where
  taken _ _ h := ⟨h.writer, h.reader, h.source, h.no_tree, h.no_fault, h.fault_code⟩
  answered _ _ h := ⟨h.writer, h.reader, h.source, h.no_tree, h.no_fault, h.fault_code⟩
  oprWritten _ _ h := ⟨h.writer, h.reader, h.source, h.no_tree, h.no_fault, h.fault_code⟩
  reset _ h := unitInv_resetCore h
  illegal _ v _ h := unitInv_raiseFault .illegalCommand v h
  command i s t hi e h := by
    obtain ⟨u, hd, rfl | ⟨c, info, rfl⟩⟩ := exec_does i s t hi e
    · exact unitInv_retire (hd.unitInv h)
    · exact unitInv_raiseFault c info (hd.unitInv h)

/-! ### The tree and the code table -/

theorem treesFit_kept : Kept TreesFit where
  taken _ _ h := h.same ⟨rfl, rfl, rfl, rfl, rfl⟩
  answered _ _ h := h.same ⟨rfl, rfl, rfl, rfl, rfl⟩
  oprWritten _ _ h := h.same ⟨rfl, rfl, rfl, rfl, rfl⟩
  reset _ _ := treesFit_none rfl rfl rfl
  illegal _ _ _ h := h.same ⟨rfl, rfl, rfl, rfl, rfl⟩
  command i s t hi e h := by
    obtain ⟨u, hd, rfl | ⟨c, info, rfl⟩⟩ := exec_does i s t hi e
    · exact (hd.trees h).same ⟨rfl, rfl, rfl, rfl, rfl⟩
    · exact (hd.trees h).same ⟨rfl, rfl, rfl, rfl, rfl⟩

/-! ### The streams -/

/-- The source's bytes are those of `s`, and the sink holds at least what it held in `s`. -/
def StreamsFrom (s t : State) : Prop :=
  t.src.bytes = s.src.bytes ∧ s.snk.bytes <+: t.snk.bytes

theorem streamsFrom_kept (s : State) : Kept (StreamsFrom s) where
  taken _ _ h := h
  answered _ _ h := h
  oprWritten _ _ h := h
  reset _ h := h
  illegal _ _ _ h := h
  command i u t hi e h := by
    obtain ⟨v, hd, hv⟩ := exec_does i u t hi e
    have hv' : StreamsFrom s v := ⟨hd.frame.srcBytes.trans h.1, h.2.trans hd.frame.snkGrows⟩
    obtain rfl | ⟨c, info, rfl⟩ := hv <;> exact hv'

/-! ### Progress -/

theorem writeCmd_ends (v : Word) (s : State) (h : TreesFit s) : ∃ t, writeCmd v s = .next t := by
  rw [writeCmd]
  split
  · split
    · exact exec_ends _ s h
    · exact ⟨s, rfl⟩
  · split
    · exact ⟨_, rfl⟩
    · exact exec_ends _ s h

theorem hostWrite_ends (i : Nat) (v : Word) (s : State) (h : TreesFit s) :
    ∃ t, hostWrite i v s = .next t := by
  match i with
  | 0 =>
    obtain ⟨t, e⟩ := writeCmd_ends v s h
    exact ⟨reply .done t, by rw [hostWrite, e, onNext]⟩
  | 1 => exact ⟨_, rfl⟩
  | n + 2 =>
    show ∃ t, (if n + 2 ≤ 8 then Host.Outcome.next _ else .next _) = .next t
    split <;> exact ⟨_, rfl⟩

theorem accept_ends (a : Input) (s : State) (h : TreesFit s) : ∃ t, accept a s = .next t := by
  cases a with
  | regRead i => exact ⟨_, rfl⟩
  | regWrite i v => exact hostWrite_ends i v s h
  | busRead o w => rw [accept]; split <;> exact ⟨_, rfl⟩
  | busWrite o w v =>
    rw [accept]
    split
    · exact hostWrite_ends _ v s h
    · exact ⟨_, rfl⟩
  | hwReset => exact ⟨_, rfl⟩

/-! ### The statements -/

/-- Settles O57: the units' invariants survive each thing a step can do. -/
theorem stepKeepsUnitInvariants : Obligations.StepKeepsUnitInvariants :=
  fun _ _ hs e => unitInv_kept.step e hs

/-- Settles O58: the marks, the tree and the code table go on fitting together. -/
theorem stepKeepsTreeAndCodeTable : Obligations.StepKeepsTreeAndCodeTable :=
  fun _ _ hu ht e => (treesFit_kept.step e ⟨hu.no_tree, ht⟩).trees

/-- Settles O59: where the tree fits, every command ends, and so does every access of the host. -/
theorem noStepStops : Obligations.NoStepStops := by
  intro s hs
  rw [step, stepBody]
  split
  · exact ⟨s, rfl⟩
  · exact accept_ends _ _ (treesFit_kept.taken s _ ⟨hs.units.no_tree, hs.trees⟩)

/-- Settles O56: the reset state holds no tree, an empty writer and reader, and no fault. -/
theorem resetMeetsTheInvariants : Obligations.ResetMeetsTheInvariants where
  units :=
    ⟨emptyWriter_wf, emptyReader_wf, Nat.le_refl _, fun _ => ⟨rfl, rfl⟩, fun _ => ⟨rfl, rfl⟩,
      Bool.noConfusion⟩
  trees := (treesFit_none rfl rfl rfl).trees

/-- Settles O18: no command writes the source's bytes or takes back a byte of the sink. -/
theorem sourceFixedSinkGrows : Obligations.SourceFixedSinkGrows :=
  fun s _ e => (streamsFrom_kept s).step e ⟨rfl, List.prefix_refl _⟩

end Sys2Proof.Machine
end

section
/-! SUPPORT. The envelope and the registers (10_state.md R21 to R30, 30_encoding.md R99), reset and
fault entry (60_exceptions.md R240 to R245), and which commands write what. -/

namespace Sys2Proof.Machine

/-! ### A step by the access it takes -/

theorem step_regWrite {s : State} {i : Nat} {v : Word} {rest : List Input}
    (h : s.inputs = .regWrite i v :: rest) : step s = hostWrite i v { s with inputs := rest } := by
  rw [step, stepBody, h]; rfl

theorem step_regRead {s : State} {i : Nat} {rest : List Input}
    (h : s.inputs = .regRead i :: rest) : step s = .next (hostRead i { s with inputs := rest }) := by
  rw [step, stepBody, h]; rfl

theorem step_busRead (s : State) (offset width : Nat) (rest : List Input) :
    step { s with inputs := .busRead offset width :: rest }
      = accept (.busRead offset width) { s with inputs := rest } := rfl

theorem step_busWrite (s : State) (offset width : Nat) (v : Word) (rest : List Input) :
    step { s with inputs := .busWrite offset width v :: rest }
      = accept (.busWrite offset width v) { s with inputs := rest } := rfl

/-- A write to CMD while `fault = 0` of a command's value runs the command. -/
theorem writeCmd_command {s : State} {v : Word} {i : Instr} (hf : s.fault = false)
    (hd : decode v = .ok i) : writeCmd v s = exec i s := by
  rw [writeCmd, hf, if_neg Bool.false_ne_true, hd]

/-- A write to CMD while `fault = 0` of a value the decoder rejects. -/
theorem writeCmd_illegal {s : State} {v : Word} {r : Illegal} (hf : s.fault = false)
    (hd : decode v = .error r) : writeCmd v s = .next (raiseFault .illegalCommand v s) := by
  rw [writeCmd, hf, if_neg Bool.false_ne_true, hd]

/-- A write to CMD while `fault = 1`: only INIT's value is taken. -/
theorem writeCmd_faulted {s : State} {v : Word} (hf : s.fault = true) :
    writeCmd v s = if v = 0x0000000001000000#64 then exec .init s else .next s := by
  rw [writeCmd, if_pos hf]; rfl

/-- A value that is no legal command's word is rejected. -/
theorem decode_rejects {v : Word} (h : ∀ i, i.wf = true → encodeCmd i ≠ v) :
    ∃ r, decode v = .error r := by
  cases hd : decode v with
  | error r => exact ⟨r, rfl⟩
  | ok i =>
    obtain ⟨hwf, hv⟩ := acceptedValueIsItsCommandsWord v i hd
    exact absurd hv (h i hwf)

/-- A read beyond the registers is an access error. -/
theorem hostRead_beyond {i : Nat} (s : State) (h : 8 < i) :
    hostRead i s = reply .accessError s := by
  obtain ⟨n, rfl⟩ : ∃ n, i = n + 9 := ⟨i - 9, by omega⟩
  rfl

/-- A write to a register other than CMD and OPR changes nothing (R21). -/
theorem hostWrite_other {i : Nat} (v : Word) (s : State) (h : 2 ≤ i) :
    hostWrite i v s
      = if i ≤ 8 then .next (reply .done s) else .next (reply .accessError s) := by
  obtain ⟨n, rfl⟩ : ∃ n, i = n + 2 := ⟨i - 2, by omega⟩
  rfl

theorem busRegister_aligned {offset width : Nat} (hw : width = 8) (ho : offset % 8 = 0) :
    busRegister offset width = some (offset / 8) := if_pos ⟨hw, ho⟩

theorem busRegister_none {offset width : Nat} (h : width ≠ 8 ∨ offset % 8 ≠ 0) :
    busRegister offset width = none := if_neg (by omega)

/-! ### The statements on accesses -/

/-- Settles O4: the envelope passes the command on. -/
theorem stepRunsDecodedCommand : Obligations.StepRunsDecodedCommand := by
  intro s v i rest hin hf hd
  rw [step_regWrite hin, hostWrite, writeCmd_command (s := { s with inputs := rest }) hf hd]
  rfl

/-- Settles O5: the decoder accepts the words of legal commands only. -/
theorem illegalValueRaises : Obligations.IllegalValueRaises := by
  intro s v rest hin hf hv
  obtain ⟨r, hd⟩ := decode_rejects hv
  rw [step_regWrite hin, hostWrite, writeCmd_illegal (s := { s with inputs := rest }) hf hd]
  rfl

/-- Settles O6: by whether the value is INIT's. -/
theorem faultedCoreDropsCommands : Obligations.FaultedCoreDropsCommands := by
  intro s v rest hin hf
  rw [step_regWrite hin, hostWrite, writeCmd_faulted (s := { s with inputs := rest }) hf]
  refine ⟨fun hv => ?_, fun hv => ?_⟩
  · rw [if_neg hv]; rfl
  · rw [if_pos hv]; rfl

/-- Settles O7: register by register. -/
theorem registerAccesses : Obligations.RegisterAccesses := by
  intro s i v rest
  refine ⟨fun hin => ?read, fun hin => ⟨fun hi => ?opr, fun h2 h8 => ?readOnly, fun h8 => ?beyond⟩⟩
  case read =>
    rw [step_regRead hin]
    by_cases h8 : 8 < i
    · rw [hostRead_beyond _ h8]
      exact ⟨.accessError, rfl, by omega, by omega, by omega, by omega, by omega, by omega, by omega,
        by omega, by omega, fun _ => rfl⟩
    · have hi : i ≤ 8 := by omega
      interval_cases i <;> refine ⟨_, rfl, ?_⟩ <;> simp <;> rfl
  case opr => rw [step_regWrite hin, hi]; rfl
  case readOnly => rw [step_regWrite hin, hostWrite_other v _ h2, if_pos h8]; rfl
  case beyond =>
    rw [step_regWrite hin, hostWrite_other v _ (by omega), if_neg (by omega)]; rfl

/-- Settles O9: by whether the access is whole and aligned. -/
theorem busAccessesReachRegisters : Obligations.BusAccessesReachRegisters := by
  intro s offset width v rest
  refine ⟨fun hw ho => ?aligned, fun h => ?other⟩
  case aligned =>
    rw [step_busRead, step_busWrite, accept, accept, busRegister_aligned hw ho]
    exact ⟨rfl, rfl⟩
  case other =>
    rw [step_busRead, step_busWrite, accept, accept, busRegister_none h]
    exact ⟨rfl, rfl⟩

/-! ### STATUS (R25) -/

/-- Settles O8: each field of the concatenation at its place. -/
theorem statusFields : Obligations.StatusFields := by
  intro s
  refine ⟨?_, ?_, ?_, ?_, ?_, ?_, ?_, ?_, ?_, ?_, ?_⟩
  case refine_1 | refine_2 | refine_3 | refine_4 | refine_5 | refine_8 => -- the single bits
    simp only [statusView, BitVec.getLsbD_append]
    simp [wgood]
  all_goals -- the fields, bit by bit
    apply BitVec.eq_of_getLsbD_eq
    intro k hk
    simp only [statusView, BitVec.getLsbD_append, BitVec.getLsbD_extractLsb']
    interval_cases k <;> simp

/-! ### The statements on reset and faults -/

/-- Settles O10: each field of the reset state. -/
theorem resetValues : Obligations.ResetValues :=
  ⟨rfl, rfl, rfl, rfl, rfl, rfl, fun v => symGet_replicate _ v, rfl, rfl, rfl, rfl,
    fun v => symGet_replicate _ v, rfl, rfl, by decide⟩

/-- INIT's value is performed as INIT whether or not the core has faulted. -/
theorem writeCmd_init (s : State) : writeCmd 0x0000000001000000#64 s = .next (resetCore s) := by
  cases hf : s.fault with
  | true => rw [writeCmd_faulted hf, if_pos rfl]; rfl
  | false => rw [writeCmd_command hf (i := .init) (by decide)]; rfl

/-- Settles O11: all three are `resetCore`. -/
theorem initAndResetRestoreTheCore : Obligations.InitAndResetRestoreTheCore := by
  intro s rest
  refine ⟨unspecifiedNodes s.draws, s.draws + 1, rfl, rfl, ?_⟩
  rw [step_regWrite rfl, hostWrite, writeCmd_init]
  rfl

/-- Settles O12: the cause's code, cause by cause. -/
theorem faultEntry : Obligations.FaultEntry := by
  intro c info s
  refine ⟨c.code, rfl, ?_⟩
  cases c <;> simp [Cause.code]

/-- Settles O14: an access of a faulted core resets it, or is answered and changes nothing else. -/
theorem faultStateIsSticky : Obligations.FaultStateIsSticky := by
  intro s t hf e
  rcases step_cases s t e with ⟨-, rfl⟩ | ⟨a, rest, hin, e⟩
  · exact ⟨fun h => by simp [hf] at h, fun _ => rfl⟩
  have resets : (a = .hwReset ∨ a = .regWrite 0 0x0000000001000000#64 ∨
      a = .busWrite 0 8 0x0000000001000000#64) → t.fault = false →
      (t.fault = false → ∃ rest, s.inputs = .hwReset :: rest ∨
        s.inputs = .regWrite 0 0x0000000001000000#64 :: rest ∨
        s.inputs = .busWrite 0 8 0x0000000001000000#64 :: rest) ∧
      (t.fault = true → t = { s with opr := t.opr, inputs := t.inputs, replies := t.replies }) := by
    intro ha ht
    refine ⟨fun _ => ⟨rest, ?_⟩, fun h => by simp [ht] at h⟩
    rw [hin]
    rcases ha with rfl | rfl | rfl <;> simp
  rcases accept_cases a _ t e with ⟨ha, rfl⟩ | ⟨r, rfl⟩ | ⟨r, v, rfl⟩ | ⟨v, u, ha, e', rfl⟩
  · exact resets (.inl ha) rfl
  · exact ⟨fun h => by simp [hf] at h, fun _ => rfl⟩
  · exact ⟨fun h => by simp [hf] at h, fun _ => rfl⟩
  · rcases writeCmd_cases v _ u e' with ⟨-, -, rfl⟩ | ⟨hv, rfl⟩ | ⟨hf', -⟩ | ⟨_, -, hf', -⟩
    · exact ⟨fun h => by simp [hf] at h, fun _ => rfl⟩
    · obtain rfl : v = 0x0000000001000000#64 := hv hf
      exact resets (.inr ha) rfl
    · simp [hf] at hf'
    · simp [hf] at hf'

/-! ### The statements on who writes what -/

theorem Ended.cseq {u t : State} (h : Ended u t) : t.cseq = u.cseq + 1#32 := by
  obtain rfl | ⟨c, info, rfl⟩ := h <;> rfl

/-- Settles O16: read off what every command does before it ends. -/
theorem whoWritesCseqOprRes : Obligations.WhoWritesCseqOprRes := by
  intro i s t hi e
  obtain ⟨u, hd, hu⟩ := exec_does i s t hi e
  refine ⟨by rw [hu.cseq, hd.frame.cseq], ?opr, fun h1 h2 h3 h4 h5 h6 h7 => ?res⟩
  case opr => obtain rfl | ⟨c, info, rfl⟩ := hu <;> exact hd.frame.opr
  case res =>
    have hw : writesRes i = false := by cases i <;> simp_all [writesRes]
    obtain rfl | ⟨c, info, rfl⟩ := hu <;> exact (hd.res hw).res

/-- Settles O17: read off what every command does before it ends, and off the withdrawal. -/
theorem whoWritesTheTables : Obligations.WhoWritesTheTables := by
  intro i s t hi e
  obtain ⟨u, hd, hu⟩ := exec_does i s t hi e
  refine ⟨fun h1 h2 h3 h4 h5 h6 => ?counts, fun h1 h2 h3 => ?nodes, fun h1 h2 => ?codes⟩
  case counts =>
    have hw : writesCounts i = false := by cases i <;> simp_all [writesCounts]
    have hc := hd.counts hw
    obtain rfl | ⟨c, info, rfl⟩ := hu <;> exact ⟨hc.ft, hc.ntot⟩
  case nodes =>
    cases hw : withdraws i with
    | true =>
      refine .inr ⟨?_, exec_withdraws i s t hw e⟩
      cases i <;> simp_all [withdraws]
    | false =>
      have hn : writesNodes i = false := by cases i <;> simp_all [writesNodes, withdraws]
      left
      obtain rfl | ⟨c, info, rfl⟩ := hu <;> exact hd.node hn
  case codes =>
    have hw : writesCodes i = false := by cases i <;> simp_all [writesCodes]
    obtain rfl | ⟨c, info, rfl⟩ := hu <;> exact hd.ct hw

end Sys2Proof.Machine
end

section
/-! SUPPORT. The bit channel as a channel (20_memory.md R66 to R68, 40_bitchannel.md R130): what the
writer sends is what the reader delivers, and what a failing sink cuts off. -/

namespace Sys2Proof.Machine

/-- A reader that starts empty has the source's bits to deliver (R67). -/
theorem inBits_fresh (bytes : List Byte) :
    inBits (BitReader.empty, { bytes := bytes, pos := 0 }) = bitsOf bytes := by
  simp [inBits, BitReader.empty, fieldBits]

/-- Bits from an empty writer over a good empty sink, flushed: they stand in the sink followed by
zeros up to the byte boundary (R130). -/
theorem flushed_bits (bits : List Bool) {k : Sink} (hk : k.Good) (h0 : k.bytes = []) :
    bitsOf (flushBits (writeAll bits (BitWriter.empty, k))).2.bytes
      = bits ++ List.replicate ((8 - bits.length % 8) % 8) false := by
  obtain ⟨-, -, h⟩ := closeEncode_good bits k hk
  rwa [h0, bitsOf_nil, List.nil_append] at h

/-- A writer that fails while it writes holds nothing afterwards (R120). -/
theorem writeAll_fails_empty (bits : List Bool) (p : BitWriter × Sink)
    (hp : p.1.fail = true → p.1.acc = 0#8 ∧ p.1.cnt = 0#3)
    (hf : (writeAll bits p).1.fail = true) :
    (writeAll bits p).1.acc = 0#8 ∧ (writeAll bits p).1.cnt = 0#3 := by
  induction bits generalizing p with
  | nil => exact hp hf
  | cons b bs ih =>
    refine ih (writeBit b p) (fun hb => ?_) hf
    cases hpf : p.1.fail with
    | true => rw [writeBit_failed b p hpf]; exact hp hpf
    | false =>
      by_cases hc : p.1.cnt = 7#3
      · rw [writeBit_completes hpf hc]; exact ⟨rfl, rfl⟩
      · rw [writeBit_buffers hpf hc] at hb; cases hb

/-- Either every put of a run is answered ok, or there is a first that is not. -/
theorem first_failure (k : Sink) (n : Nat) :
    (∀ i, i < n → k.answer i = true) ∨
      ∃ j, j < n ∧ (∀ i, i < j → k.answer i = true) ∧ k.answer j = false := by
  induction n with
  | zero => exact .inl fun i hi => absurd hi (Nat.not_lt_zero i)
  | succ n ih =>
    rcases ih with h | ⟨j, hj, h⟩
    · cases hn : k.answer n with
      | true =>
        exact .inl fun i hi => (Nat.lt_succ_iff_lt_or_eq.mp hi).elim (h i) fun e => e ▸ hn
      | false => exact .inr ⟨n, Nat.lt_succ_self n, h, hn⟩
    · exact .inr ⟨j, Nat.lt_succ_of_lt hj, h⟩

/-! ### The statements -/

/-- Settles O21: the field's bits into a good writer over a good sink. -/
theorem wbitsOrderOnAGoodSink : Obligations.WbitsOrderOnAGoodSink := by
  intro n s hw hf hk
  obtain ⟨hout, hw', hf', hk', hcnt⟩ :=
    writeAll_good (fieldBits s.opr n.toNat) (s.bw, s.snk) hw hf hk
  have hexec := exec_wbits n s
  generalize writeAll (fieldBits s.opr n.toNat) (s.bw, s.snk) = p at *
  refine ⟨p.1, p.2, hexec, hout, ?_, hf', hw', hk'⟩
  rw [hcnt, fieldBits_length, BitVec.toNat_add, BitVec.toNat_ofNat]
  exact Nat.add_mod_mod _ _ _

/-- Settles O23: by whether one of the puts a good sink would get is answered fail. -/
theorem failingSinkTruncates : Obligations.FailingSinkTruncates := by
  intro bits p hf
  obtain ⟨st, hgood, hbeside, hsame⟩ := beside_writeAll bits p.1 p.2 hf
  rcases first_failure p.2 st.length with hall | ⟨j, hj, hbefore, hfail⟩
  · obtain ⟨-, hbytes, -⟩ := hbeside.alike hall
    have heq := hbytes.trans hgood.symm
    exact ⟨heq ▸ List.prefix_refl _, fun h => ⟨heq, hsame h⟩,
      writeAll_fails_empty bits p fun h => by simp [hf] at h⟩
  · obtain ⟨hfailed, hbytes⟩ := hbeside.stops j hj hbefore hfail
    refine ⟨?_, fun h => ?_, writeAll_fails_empty bits p fun h => by simp [hf] at h⟩
    · rw [hgood, hbytes]
      exact (List.prefix_append_right_inj _).mpr (List.take_prefix j st)
    · rw [hfailed] at h; cases h

/-- Settles O26: `br_read` by whether a bit is left, and `bw_write_bits` as its bits. -/
theorem readerDeliversInBits : Obligations.ReaderDeliversInBits :=
  fun p => ⟨readBit_nil p, readBit_cons p, writeBits_eq_writeAll⟩

/-- Settles O27: the flushed bits are the reader's bits, and a field's bits are its value's. -/
theorem readerIsDualOfWriter : Obligations.ReaderIsDualOfWriter := by
  intro k hk h0
  refine ⟨fun bits => ⟨?count, ?bits⟩, fun v n hn => ?field⟩
  case count =>
    have hlen := congrArg List.length (flushed_bits bits hk h0)
    rw [bitsOf_length, List.length_append, List.length_replicate] at hlen
    omega
  case bits => rw [inBits_fresh, flushed_bits bits hk h0]
  case field =>
    have hin := (inBits_fresh _).trans (flushed_bits (fieldBits v n) hk h0)
    rw [← writeBits_eq_writeAll] at hin
    obtain ⟨p, hread, -⟩ := readBits_full n _ (by rw [hin]; simp)
    refine ⟨p, hread.trans ?_⟩
    rw [hin, List.take_append_of_le_length (by simp), List.take_of_length_le (by simp),
      natOf_fieldBits]

end Sys2Proof.Machine
end

section
/-! SUPPORT. SCAN (41_freqtable.md R144): the command as its subroutine. -/

namespace Sys2Proof.Machine

/-- SCAN withdraws the derived structures, then counts to the end of the source (R144, R145). -/
theorem exec_scan (s : State) : exec .scan s = finish (scanBody (invalidate s)) := rfl

/-- Settles O29: no counter is full on the way. -/
theorem scanCountsTheSource : Obligations.ScanCountsTheSource := by
  intro s hslots htotal
  obtain ⟨ft, hscan, hft⟩ := scanBody_counts (invalidate s) hslots htotal
  refine ⟨ft, (invalidate s).node, (invalidate s).draws, ?_, hft⟩
  rw [exec_scan, hscan]
  rfl

/-- Settles O30: the bytes before the full counter are counted, and its byte raises. -/
theorem scanStopsAtOverflow : Obligations.ScanStopsAtOverflow := by
  intro s before after v hrest hslots htotal hfull
  obtain ⟨ft, hscan, hft⟩ :=
    scanBody_overflows (invalidate s) before after v hrest hslots htotal hfull
  refine ⟨ft, (invalidate s).node, (invalidate s).draws, ?_, hft⟩
  rw [exec_scan, hscan]
  rfl

end Sys2Proof.Machine
end

section
/-! SUPPORT. BUILD and NDRD (42_treebuilder.md R150 to R158): the tree BUILD ends with, read off the
builder's invariant. -/

namespace Sys2Proof.Machine

/-- BUILD of a table with a symbol, and what holds of the builder it ends with (R154, R155). -/
theorem exec_build_ok {s : State} (h : ∃ v, symGet s.ft v ≠ 0#64) :
    ∃ b : Builder, Building s.ft b ∧ b.pq.length = 1 ∧
      exec .build s = .next { s with
        node := b.node, nnodes := BitVec.ofNat 9 b.next, treeOk := true, ctOk := false
        draws := s.draws + 1, cseq := s.cseq + 1#32 } :=
  have hb := treeOf_built s.ft (unspecifiedNodes s.draws) h
  ⟨_, hb.1, hb.2, execBuild_ok s h⟩

/-- The node count of a finished builder fits its nine bits. -/
theorem built_nnodes {ft : SymTable Word} {b : Builder} (hb : Building ft b)
    (h1 : b.pq.length = 1) : (BitVec.ofNat 9 b.next).toNat = b.next := by
  rw [(built_treeShape ft b hb h1).size, (built_shape ft b hb h1).1]

theorem leafOf_weight (ft : SymTable Word) (v : Byte) :
    (leafOf ft v).weight.toNat = (symGet ft v).toNat := by
  have := (symGet ft v).isLt
  rw [leafOf, zextWeight, BitVec.toNat_setWidth]
  omega

/-! ### The statements -/

/-- Settles O32: the finished builder's memory is a tree over the symbols present. -/
theorem buildMakesATree : Obligations.BuildMakesATree := by
  intro s hs
  obtain ⟨b, hb, h1, hexec⟩ := exec_build_ok hs
  refine ⟨_, _, _, hexec, built_treeShape s.ft b hb h1, fun i hi => ?leaf, fun v hv => ?present⟩
  case leaf =>
    have hnode := hb.leaves i hi
    rw [hnode, leafOf_weight]
    exact ⟨(mem_presentSyms s.ft _).mp (List.getElem_mem hi), rfl⟩
  case present =>
    obtain ⟨i, hi, hv'⟩ := List.getElem_of_mem ((mem_presentSyms s.ft v).mpr hv)
    exact ⟨i, hi, by rw [hb.leaves i hi]; exact hv'⟩

/-- Settles O33: each internal entry was joined so. -/
theorem buildJoinsTheTwoLightest : Obligations.BuildJoinsTheTwoLightest := by
  intro s t hs e i hL hi
  obtain ⟨b, hb, h1, hexec⟩ := exec_build_ok hs
  rw [hexec] at e
  cases e
  have hj := hb.joined i hL (by rwa [built_nnodes hb h1] at hi)
  exact ⟨hj.left_waits, hj.right_waits, hj.lighter, hj.lightest⟩

/-- Settles O34: joined entries are monotone in weight, and one entry is left in the queue. -/
theorem builtWeights : Obligations.BuiltWeights := by
  intro s t hs e
  obtain ⟨b, hb, h1, hexec⟩ := exec_build_ok hs
  rw [hexec] at e
  cases e
  rw [built_nnodes hb h1]
  refine ⟨fun i hL hi => ?monotone, ?root⟩
  case monotone =>
    exact joined_monotone b.node _ i hL (hb.joined i hL (by omega)) (hb.joined (i + 1) (by omega) hi)
  case root =>
    have htotal := hb.total
    rw [(built_shape s.ft b hb h1).2] at htotal
    simpa [weightAt] using htotal

/-- Settles O35: with a symbol both build the same entries, without one both fault. -/
theorem buildDependsOnCountsAlone : Obligations.BuildDependsOnCountsAlone := by
  intro s t hft
  by_cases hs : ∃ v, symGet s.ft v ≠ 0#64
  · refine ⟨_, _, execBuild_ok s hs, execBuild_ok t (hft ▸ hs), rfl, ?_, fun i hi => ?_,
      fun h => Bool.noConfusion h⟩
    · rw [hft, (treeOf_same t.ft _ _).next]
    · simp only at hi ⊢
      rw [← hft]
      exact (treeOf_entries s.ft _ _ i hi).symm
  · push Not at hs
    exact ⟨_, _, execBuild_empty s hs, execBuild_empty t (hft ▸ hs), rfl, rfl,
      fun i hi => absurd hi (Nat.not_lt_zero i), fun _ => ⟨rfl, rfl⟩⟩

/-- NDRD with a tree leaves what it reads in RES (R158). -/
theorem exec_ndrd (idx : NodeIdx) {s : State} (h : s.treeOk = true) :
    exec (.ndrd idx) s = .next (retire (setRes (nodeRead idx s) s)) :=
  needTree_ok _ s _ h

/-- The fields of NDRD's word at their places (R158). -/
theorem nodeWord_fields (m : Node) :
    (nodeWord m).getLsbD 63 = true ∧ (nodeWord m).getLsbD 62 = m.leaf ∧
      (nodeWord m).extractLsb' 41 21 = 0#21 ∧ (nodeWord m).extractLsb' 32 9 = m.right ∧
      (nodeWord m).extractLsb' 25 7 = 0#7 ∧ (nodeWord m).extractLsb' 16 9 = m.left ∧
      (nodeWord m).extractLsb' 8 8 = 0#8 ∧ (nodeWord m).extractLsb' 0 8 = m.sym := by
  refine ⟨?_, ?_, ?_, ?_, ?_, ?_, ?_, ?_⟩
  case refine_1 | refine_2 => -- the single bits
    simp only [nodeWord, BitVec.getLsbD_append]
    simp
  all_goals -- the fields, bit by bit
    apply BitVec.eq_of_getLsbD_eq
    intro k hk
    simp only [nodeWord, BitVec.getLsbD_append, BitVec.getLsbD_extractLsb']
    interval_cases k <;> simp

/-- Settles O36: by whether the index is below `nnodes`. -/
theorem ndrdReadsAnEntry : Obligations.NdrdReadsAnEntry := by
  intro idx s htree
  refine ⟨nodeRead idx s, exec_ndrd idx htree, fun h => if_pos h, fun h => ?_⟩
  have hread : nodeRead idx s = nodeWord (nodeAt s.node idx.toNat) := if_neg (Nat.not_le.mpr h)
  rw [hread]
  exact nodeWord_fields _

end Sys2Proof.Machine
end

section
/-! SUPPORT. The code table and the decoder's descent (43_codetable.md R170 to R178, 44_decode_fsm.md
R185 to R188), read off the paths of the tree. -/

namespace Sys2Proof.Machine

/-- CTGEN with a tree is its body (R172). -/
theorem exec_ctgen {s : State} (h : s.treeOk = true) : exec .ctgen s = finish (ctgenBody s) :=
  needTree_ok _ s _ h

/-- DECSYM with a tree that found a symbol leaves it in RES (R187). -/
theorem exec_decsym_ok {s : State} {v : Byte} {p : BitReader × Source} (h : s.treeOk = true)
    (hd : decSym 0#64 s = .ok (v, s.setIn p)) :
    exec .decsym s = .next (retire (setRes (zextByte v) (s.setIn p))) := by
  refine (needTree_ok _ s _ h).trans ?_
  rw [hd, bind_ok, finish_ok]

/-- DECSYM with a tree on a stream that ended raises (R187, R233). -/
theorem exec_decsym_raised {s : State} {p : BitReader × Source} (h : s.treeOk = true)
    (hd : decSym 0#64 s = .raised .truncatedStream 0#64 (s.setIn p)) :
    exec .decsym s = .next (raiseFault .truncatedStream 0#64 (s.setIn p)) := by
  refine (needTree_ok _ s _ h).trans ?_
  rw [hd, bind_raised, finish_raised]

/-- Settles O37: the walk of a tree. -/
theorem ctgenWalksTheTree : Obligations.CtgenWalksTheTree := by
  intro s L htree hshape
  obtain ⟨ct, hbody, htable, -⟩ := ctgenBody_tree s L hshape
  refine ⟨ct, ?_, htable⟩
  rw [exec_ctgen htree, hbody]
  rfl

/-- Settles O38: both codes are paths from the root, and a path ends at a leaf. -/
theorem codesArePrefixFree : Obligations.CodesArePrefixFree := by
  intro s a b hs hct hne ha hb hpre
  obtain ⟨-, htable⟩ := hs.table hct
  obtain ⟨hpa, -⟩ := (htable a).1 ha
  obtain ⟨hpb, -⟩ := (htable b).1 hb
  exact hne (leafAt_prefix hpa hpb hpre).2

/-- Settles O41: by whether a path begins the stream. -/
theorem decsymFollowsThePath : Obligations.DecsymFollowsThePath := by
  intro s htree
  refine ⟨fun bits more v hcode hin => ?path, fun hnone => ?short⟩
  case path =>
    obtain ⟨p, hd, hmore, heof, hbytes⟩ := decSym_path 0#64 s bits more v hcode hin
    exact ⟨p.1, p.2, exec_decsym_ok htree hd, hmore, heof, hbytes⟩
  case short =>
    obtain ⟨p, hd, hmore, heof, hbytes⟩ := decSym_short 0#64 s hnone
    exact ⟨p.1, p.2, exec_decsym_raised htree hd, hmore, heof, hbytes⟩

/-- Settles O42: the root is a leaf, so the descent takes no bit. -/
theorem decsymSingleLeaf : Obligations.DecsymSingleLeaf := by
  intro s htree hn hleaf
  have hroot : nodeAt s.node (s.nnodes - 1#9).toNat = nodeAt s.node 0 := by rw [hn]; rfl
  have hd : decSym 0#64 s = .ok ((nodeAt s.node 0).sym, s.setIn (s.br, s.src)) := by
    rw [decSym]
    cases bitsLeft (s.br, s.src) <;> simp only [descend, hroot, hleaf, if_true]
  exact exec_decsym_ok htree hd

end Sys2Proof.Machine
end

section
/-! SUPPORT. The reading side of the codec (45_codec.md R200 to R206, R214): RDHDR, DECPAY and DECODE,
each the command as its body and its body by what the stream begins with. -/

namespace Sys2Proof.Machine

/-! ### The header -/

/-- RDHDR is `rd_hdr()` (R201). -/
theorem exec_rdhdr (s : State) : exec .rdhdr s = finish (rdHdr s) := rfl

/-- Settles O44: every field of the header is there. -/
theorem rdhdrTakesTheHeader : Obligations.RdhdrTakesTheHeader := by
  intro s ft n more hin
  obtain ⟨p, hrd, hmore, heof, hbytes⟩ := rdHdr_header s ft n more hin
  refine ⟨p.1, p.2, (invalidate s).node, (invalidate s).draws, ?_, hmore, heof, hbytes⟩
  rw [exec_rdhdr, hrd]
  rfl

/-- Settles O45: the stream ends within a field. -/
theorem rdhdrTruncated : Obligations.RdhdrTruncated := by
  intro s hshort
  obtain ⟨ft, p, hrd, hmore, heof, hbytes, hft⟩ := rdHdr_short s hshort
  refine ⟨ft, p.1, p.2, (invalidate s).node, (invalidate s).draws, ?_, heof, hmore, hbytes, hft⟩
  rw [exec_rdhdr, hrd]
  rfl

/-! ### The payload -/

/-- DECPAY with a tree is `dec_pay()` (R206). -/
theorem exec_decpay {s : State} (h : s.treeOk = true) :
    exec .decpay s = finish (decPayLoop s.ntot.toNat 0#64 s) :=
  needTree_ok _ s _ h

/-- A symbol (R205) on a stream that ends before a leaf. -/
theorem decPayOne_short (i : Word) (s : State)
    (h : ∀ bits v, IsCode s bits v → ¬ bits <+: inBits (s.br, s.src)) :
    ∃ p : BitReader × Source, decPayOne i s = .raised .truncatedStream i (s.setIn p) ∧
      inBits p = [] ∧ p.1.eof = true ∧ p.2.bytes = s.src.bytes := by
  obtain ⟨p, hd, hp⟩ := decSym_short i s h
  exact ⟨p, by rw [decPayOne, hd, bind_raised], hp⟩

/-- A symbol (R205) whose path is there and whose put fails. -/
theorem decPayOne_putFails (i : Word) (s : State) (bits rest : List Bool) (v : Byte)
    (h : IsCode s bits v) (hin : inBits (s.br, s.src) = bits ++ rest)
    (hfail : s.snk.answer 0 = false) :
    ∃ p : BitReader × Source, decPayOne i s
        = .raised .sinkFailure i { s.setIn p with snk := (s.snk.put v).2 } ∧
      inBits p = rest ∧ p.1.eof = s.br.eof ∧ p.2.bytes = s.src.bytes := by
  obtain ⟨p, hd, hp⟩ := decSym_path i s bits rest v h hin
  have hput : ¬ ((s.setIn p).snk.put v).1 = true := by
    rw [(put_answer _ v).1]; simp [hfail]
  exact ⟨p, by rw [decPayOne_of_ok i s _ v hd, if_neg hput]; rfl, hp⟩

/-- A put that fails loses its byte (20_memory.md R65). -/
theorem put_fails_bytes {k : Sink} (b : Byte) (h : k.answer 0 = false) :
    (k.put b).2.bytes = k.bytes := by
  rcases put_cases k b with ⟨e, -⟩ | ⟨-, e⟩
  · rw [(put_answer k b).1, h] at e; cases e
  · exact e

/-- Settles O47: the loop puts its `N` symbols and is over. -/
theorem decpayPutsExactlyN : Obligations.DecpayPutsExactlyN := by
  intro s out paths more htree hn hpaths hin hk
  obtain ⟨r, p, k, hrun, hmore, heof, hbytes, hout, hlater⟩ :=
    decPayLoop_puts out paths more 0 0#64 s hpaths hin hk
  refine ⟨r, p, k, ?_, hout, hlater, hmore, heof, hbytes⟩
  rw [exec_decpay htree, hn, ← Nat.add_zero out.length, hrun]
  rfl

/-- Settles O48: the loop puts `i` symbols, and the next one raises. -/
theorem decpayFaultsAfterISymbols : Obligations.DecpayFaultsAfterISymbols := by
  intro s out paths more htree hn hpaths hin hk
  obtain ⟨n, hn⟩ := Nat.exists_eq_add_of_lt hn
  obtain ⟨r, p, k, hrun, hmore, heof, hbytes, hout, hlater⟩ :=
    decPayLoop_puts out paths more (n + 1) 0#64 s hpaths hin hk
  rw [BitVec.zero_add] at hrun
  have hexec := exec_decpay htree
  rw [hn, Nat.add_assoc, hrun, decPayLoop] at hexec
  refine ⟨fun hnone => ?ends, fun bits rest v hcode hrest hfail => ?putFails⟩
  case ends =>
    obtain ⟨q, hone, hq, hqe, hqb⟩ := decPayOne_short (BitVec.ofNat 64 out.length)
      { s with br := r, src := p, snk := k } fun bits v hcode => hmore ▸ hnone bits v hcode
    rw [hone, bind_raised, finish_raised] at hexec
    exact ⟨q.1, q.2, k, hexec, hout, hlater, hq, hqe, hqb.trans hbytes⟩
  case putFails =>
    have hk0 : k.answer 0 = false := (hlater 0).trans hfail
    obtain ⟨q, hone, hq, hqe, hqb⟩ := decPayOne_putFails (BitVec.ofNat 64 out.length)
      { s with br := r, src := p, snk := k } bits rest v hcode (hmore.trans hrest) hk0
    rw [hone, bind_raised, finish_raised] at hexec
    refine ⟨q.1, q.2, (k.put v).2, hexec, (put_fails_bytes v hk0).trans hout, fun j => ?_, hq,
      hqe.trans heof, hqb.trans hbytes⟩
    refine ((put_answer k v).2 j).trans ((hlater (j + 1)).trans ?_)
    rw [Nat.add_assoc, Nat.add_comm 1 j]
    rfl

/-! ### DECODE (R214) -/

/-- DECODE is its body (R214). -/
theorem exec_decode (s : State) : exec .decode s = finish (decodeBody s) := rfl

/-- DECODE raises what `rd_hdr()` raises. -/
theorem exec_decode_of_rdHdr_raised {s t : State} {c : Cause} {info : Word}
    (h : rdHdr (srcRewind (clearUnits s)) = .raised c info t) :
    exec .decode s = .next (raiseFault c info t) := by
  rw [exec_decode, decodeBody, h, bind_raised, finish_raised]

/-- DECODE raises what BUILD raises on the header's counts. -/
theorem exec_decode_of_build_raised {s t u : State} {c : Cause} {info : Word}
    (h : rdHdr (srcRewind (clearUnits s)) = .ok t) (hb : buildBody t = .raised c info u) :
    exec .decode s = .next (raiseFault c info u) := by
  rw [exec_decode, decodeBody, h, bind_ok, hb, bind_raised, finish_raised]

/-- Behind the clearing and the rewind the whole source is to be read. -/
theorem inBits_start (s : State) :
    inBits ((srcRewind (clearUnits s)).br, (srcRewind (clearUnits s)).src) = bitsOf s.src.bytes :=
  inBits_fresh s.src.bytes

/-- Settles O60: the header, its tree and the paths in it. -/
theorem decodeCompletes : Obligations.DecodeCompletes := by
  intro s ft out paths more hft hlen hpaths hbits hk
  rw [List.append_assoc] at hbits
  obtain ⟨r, p, k, hbody, hmore, heof, hbytes, hout, hlater⟩ :=
    decodeBody_run s ft out paths more hft hlen hk hpaths hbits
  refine ⟨_, (treeOf ft (unspecifiedNodes (s.draws + 2))).node, r, p, k, s.draws + 3, ?_,
    execBuild_ok { s with ft := ft } hft, treeOf_entries ft _ _, hout, hlater, hmore, heof, hbytes⟩
  rw [exec_decode, hbody, finish_ok, ← (treeOf_same ft (unspecifiedNodes s.draws) _).next]
  rfl

/-- The paths of the tree BUILD makes of a core's counts are the paths of the counts. -/
theorem isCodeOf_of_build {u u' : State} (h : ∃ v, symGet u.ft v ≠ 0#64)
    (hb : exec .build u = .next u') {bits : List Bool} {v : Byte} (hc : IsCode u' bits v) :
    IsCodeOf u.ft bits v := by
  cases (execBuild_ok u h).symm.trans hb
  exact (treeOf_paths u.ft _ _ h bits v).2 hc

/-- Settles O51: the paths in the tree BUILD makes are the paths of the header's counts. -/
theorem decodeProducesTheSymbols : Obligations.DecodeProducesTheSymbols := by
  intro s u ft out paths more hu hft hlen hk hpaths hbits
  subst hu
  have hbuild := execBuild_ok u hft
  have hcodes := (hpaths _ hbuild).imp fun bits v hc => isCodeOf_of_build hft hbuild hc
  obtain ⟨u', m, r, p, k, d, hexec, -, -, hout, -, hmore, heof, hbytes⟩ :=
    decodeCompletes s u.ft out paths more hft hlen hcodes hbits hk
  exact ⟨m, u'.nnodes, r, p, k, d, hexec, hout, hmore, heof, hbytes⟩

/-- Settles O52: the header is short, or BUILD finds no symbol in it. -/
theorem decodeRefusesABadHeader : Obligations.DecodeRefusesABadHeader := by
  intro s
  refine ⟨fun hshort => ?short, fun n more hbits => ?zeros⟩
  case short =>
    have hlen : (inBits ((srcRewind (clearUnits s)).br, (srcRewind (clearUnits s)).src)).length
        = 8 * s.src.bytes.length := by rw [inBits_start, bitsOf_length]
    obtain ⟨ft, p, hrd, -, heof, -, -⟩ := rdHdr_short (srcRewind (clearUnits s)) (by omega)
    have hindex : 8 * s.src.bytes.length / 64 = s.src.bytes.length / 8 := by omega
    rw [hlen, hindex] at hrd
    exact ⟨_, exec_decode_of_rdHdr_raised hrd, rfl, rfl, rfl, by simp, heof, by simp, by simp⟩
  case zeros =>
    obtain ⟨p, hrd, -, -, -⟩ := rdHdr_header (srcRewind (clearUnits s))
      (Vector.replicate 256 0#64) n more ((inBits_start s).trans hbits)
    have hbuild := buildBody_empty { invalidate (srcRewind (clearUnits s)) with
      ft := Vector.replicate 256 0#64, ntot := n, br := p.1, src := p.2 } fun v => symGet_replicate _ v
    exact ⟨_, exec_decode_of_build_raised hrd hbuild, rfl, rfl, rfl, by simp, by simp, by simp⟩

end Sys2Proof.Machine
end

section
/-! SUPPORT. ENCODE as a whole (45_codec.md R195, R212, R215, R217): the state it ends in, as a
function of what its writer comes to, and what the decoder makes of its bytes. -/

namespace Sys2Proof.Machine

/-! ### What ENCODE sends and where it ends -/

/-- The bits ENCODE sends for a byte sequence: the header, then the codes in input order (R195). -/
@[irreducible] def encodedBits (bytes : List Byte) : List Bool :=
  headerBits (countsOf bytes) (BitVec.ofNat 64 bytes.length)
    ++ bytes.flatMap (codeBits (codeTableOf (countsOf bytes)))

theorem encodedBits_eq (bytes : List Byte) {ct : SymTable CodeEntry}
    (h : codeTableOf (countsOf bytes) = ct) :
    encodedBits bytes = headerBits (countsOf bytes) (BitVec.ofNat 64 bytes.length)
      ++ bytes.flatMap (codeBits ct) := by
  rw [encodedBits, h]

/-- The core `s` with counts and total, a built tree `b` and a code table, its source read to its end,
`d` draws made, and its writer and sink come to `p`: the form of the states ENCODE ends in. -/
def encodedCore (s : State) (ft : SymTable Word) (n : Word) (b : Builder) (ct : SymTable CodeEntry)
    (d : Nat) (p : BitWriter × Sink) : State :=
  { s with
    ft := ft, ntot := n, node := b.node, nnodes := BitVec.ofNat 9 b.next, treeOk := true
    ct := ct, ctOk := true, bw := p.1, br := BitReader.empty
    src := { s.src with pos := s.src.bytes.length }, snk := p.2, draws := d }

theorem retire_encodedCore (s : State) (ft : SymTable Word) (n : Word) (b : Builder)
    (ct : SymTable CodeEntry) (d : Nat) (p : BitWriter × Sink) :
    retire (encodedCore s ft n b ct d p) = { s with
      ft := ft, ntot := n, node := b.node, nnodes := BitVec.ofNat 9 b.next, treeOk := true
      ct := ct, ctOk := true, bw := p.1, br := BitReader.empty
      src := { s.src with pos := s.src.bytes.length }, snk := p.2, draws := d
      cseq := s.cseq + 1#32 } := rfl

/-- What the writer and the sink come to in ENCODE, the closing flush included (R212). -/
def encodeOut (s : State) : BitWriter × Sink :=
  flushBits (writeAll (encodedBits s.src.bytes) (BitWriter.empty, s.snk))

/-- The tree ENCODE builds, over its second draw of node memory (log 25). -/
def encodeTree (s : State) : Builder :=
  treeOf (countsOf s.src.bytes) (unspecifiedNodes (s.draws + 1))

/-- The state ENCODE ends in, before it retires or raises. -/
def encodeEnd (s : State) : State :=
  encodedCore s (countsOf s.src.bytes) (BitVec.ofNat 64 s.src.bytes.length) (encodeTree s)
    (codeTableOf (countsOf s.src.bytes)) (s.draws + 2) (encodeOut s)

/-- A source of at least one byte has a count that is not zero. -/
theorem countsOf_some {bytes : List Byte} (hb : bytes ≠ []) (hl : bytes.length < 2 ^ 64) :
    ∃ v, symGet (countsOf bytes) v ≠ 0#64 := by
  obtain ⟨v, vs, rfl⟩ := List.exists_cons_of_ne_nil hb
  exact ⟨v, (countsOf_present _ hl v).mpr List.mem_cons_self⟩

/-- The close of ENCODE (R212): the flush, and SinkFailure if the writer has failed. -/
theorem closeEncode_setOut (u : State) (p : BitWriter × Sink) :
    closeEncode (u.setOut p)
      = if (flushBits p).1.fail then .raised .sinkFailure 0#64 (u.setOut (flushBits p))
        else .ok (u.setOut (flushBits p)) := rfl

theorem closeEncode_encodedCore (s : State) (ft : SymTable Word) (n : Word) (b : Builder)
    (ct : SymTable CodeEntry) (d : Nat) (p : BitWriter × Sink) :
    closeEncode (encodedCore s ft n b ct d p)
      = if (flushBits p).1.fail then
          .raised .sinkFailure 0#64 (encodedCore s ft n b ct d (flushBits p))
        else .ok (encodedCore s ft n b ct d (flushBits p)) :=
  closeEncode_setOut (encodedCore s ft n b ct d p) p

/-- ENCODE's body (R212) on a source of 1 to `2^64 - 1` bytes. -/
theorem encodeBody_end (s : State) (hb : s.src.bytes ≠ []) (hl : s.src.bytes.length < 2 ^ 64) :
    encodeBody s = if (encodeOut s).1.fail then .raised .sinkFailure 0#64 (encodeEnd s)
      else .ok (encodeEnd s) := by
  obtain ⟨ct, b, bits, p, hb', hbits, hp, -, -, hct, -, -, hrun⟩ := encodeBody_parts s hb hl
  have htable := ctgenBody_tableOf (countsOf s.src.bytes) (unspecifiedNodes (s.draws + 1))
    (countsOf_some hb hl) { State.reset with node := b.node, nnodes := BitVec.ofNat 9 b.next }
    (congrArg Builder.node hb') (congrArg (fun c => BitVec.ofNat 9 c.next) hb')
  have hct' : codeTableOf (countsOf s.src.bytes) = ct := by
    rw [(hct _ rfl rfl).1] at htable
    generalize codeTableOf (countsOf s.src.bytes) = dt at htable ⊢
    exact (congrArg State.ct (Result.ok.inj htable)).symm
  have hbits' : bits = encodedBits s.src.bytes := hbits.trans (encodedBits_eq _ hct').symm
  rw [hrun.trans (closeEncode_encodedCore s (countsOf s.src.bytes)
    (BitVec.ofNat 64 s.src.bytes.length) b ct (s.draws + 2) p), encodeEnd, encodeTree, encodeOut,
    hct', ← hb', ← hbits', ← hp]

/-- ENCODE where no put fails. -/
theorem exec_encode_ok {s : State} (hb : s.src.bytes ≠ []) (hl : s.src.bytes.length < 2 ^ 64)
    (hf : (encodeOut s).1.fail = false) : exec .encode s = .next (retire (encodeEnd s)) := by
  rw [exec, execEncode, encodeBody_end s hb hl, hf, if_neg Bool.false_ne_true, finish_ok]

/-- ENCODE where a put fails. -/
theorem exec_encode_failed {s : State} (hb : s.src.bytes ≠ []) (hl : s.src.bytes.length < 2 ^ 64)
    (hf : (encodeOut s).1.fail = true) :
    exec .encode s = .next (raiseFault .sinkFailure 0#64 (encodeEnd s)) := by
  rw [exec, execEncode, encodeBody_end s hb hl, hf, if_pos rfl, finish_raised]

/-- A code of the tree a state of this form holds is a path of the built tree. -/
theorem encodedCore_isCode (s : State) (ft : SymTable Word) (n : Word) (b : Builder)
    (ct : SymTable CodeEntry) (d : Nat) (p : BitWriter × Sink) (path : List Bool) (v : Byte) :
    IsCode (encodedCore s ft n b ct d p) path v
      ↔ LeafAt b.node (BitVec.ofNat 9 b.next - 1#9) path v := Iff.rfl

/-! ### What the sink gets -/

/-- Bits from an empty writer, flushed, over a sink that takes the puts they need (R122): the writer
is empty again, the sink has the bits and zeros up to the byte boundary. -/
theorem flushed_room (bits : List Bool) (k : Sink)
    (hk : ∀ i, i < (bits.length + 7) / 8 → k.answer i = true) :
    let q := flushBits (writeAll bits (BitWriter.empty, k))
    q.1 = BitWriter.empty ∧
    bitsOf q.2.bytes
      = bitsOf k.bytes ++ bits ++ List.replicate ((8 - bits.length % 8) % 8) false ∧
    ∀ i, q.2.answer i = k.answer ((bits.length + 7) / 8 + i) := by
  obtain ⟨hclose, hsent, hlater⟩ := closeEncode_room bits k hk
  have h := hclose (State.reset.setOut (writeAll bits (BitWriter.empty, k))) rfl
  rw [closeEncode_setOut] at h
  split at h
  case isTrue => cases h
  case isFalse => exact ⟨congrArg State.bw (Result.ok.inj h), hsent, hlater⟩

/-- What ENCODE's writer and sink come to over a sink that takes the puts. -/
theorem encodeOut_room (s : State)
    (hk : ∀ i, i < ((encodedBits s.src.bytes).length + 7) / 8 → s.snk.answer i = true) :
    (encodeOut s).1 = BitWriter.empty ∧
    bitsOf (encodeOut s).2.bytes = bitsOf s.snk.bytes ++ encodedBits s.src.bytes
      ++ List.replicate ((8 - (encodedBits s.src.bytes).length % 8) % 8) false ∧
    ∀ i, (encodeOut s).2.answer i
      = s.snk.answer (((encodedBits s.src.bytes).length + 7) / 8 + i) := by
  rw [encodeOut]
  exact flushed_room _ _ hk

/-! ### The tree and the code table ENCODE leaves -/

theorem sameTree_retire (s : State) : SameTree s (retire s) := ⟨rfl, rfl, rfl, rfl, rfl⟩

theorem isCode_retire (s : State) (path : List Bool) (v : Byte) :
    IsCode (retire s) path v ↔ IsCode s path v := Iff.rfl

/-- BUILD on other counts in the core `s`: the tree of those counts, over what it draws there. -/
theorem exec_build_tree (s : State) {ft : SymTable Word} (h : ∃ v, symGet ft v ≠ 0#64) :
    ∃ u : State, exec .build { s with ft := ft } = .next u ∧
      u.node = (treeOf ft (unspecifiedNodes s.draws)).node ∧
      u.nnodes = BitVec.ofNat 9 (treeOf ft (unspecifiedNodes s.draws)).next ∧ u.treeOk = true :=
  ⟨_, execBuild_ok { s with ft := ft } h, rfl, rfl, rfl⟩

theorem encodeEnd_treesFit (s : State) (hb : s.src.bytes ≠ []) (hl : s.src.bytes.length < 2 ^ 64) :
    TreesFit (encodeEnd s) := by
  obtain ⟨-, hleaves⟩ := encodeBody_frame s
  rw [encodeBody_end s hb hl] at hleaves
  split at hleaves <;> exact hleaves.2.2

/-- The symbols of the counts' tree are those of the counted bytes. -/
theorem mem_iff_path {bytes : List Byte} (hb : bytes ≠ []) (hl : bytes.length < 2 ^ 64)
    (m : NodeMem) (v : Byte) :
    v ∈ bytes ↔ ∃ path, LeafAt (treeOf (countsOf bytes) m).node
      (BitVec.ofNat 9 (treeOf (countsOf bytes) m).next - 1#9) path v := by
  obtain ⟨hbuilt, hone⟩ := treeOf_built (countsOf bytes) m (countsOf_some hb hl)
  rw [← countsOf_present bytes hl]
  exact ⟨present_path _ _ hbuilt hone v, fun ⟨path, hp⟩ => leafAt_present _ _ hbuilt hone path v hp⟩

/-- The valid entries of a tree's code table are those of its symbols. -/
theorem valid_iff_path {t : State} (h : TableOfTree t) (v : Byte) :
    (symGet t.ct v).valid = true ↔ ∃ path, IsCode t path v := by
  refine ⟨fun hv => ⟨_, ((h v).1 hv).1⟩, fun ⟨path, hp⟩ => ?_⟩
  cases hv : (symGet t.ct v).valid with
  | true => rfl
  | false => exact absurd hp (((h v).2 hv).2 path)

/-! ### The first pass over too many bytes (R238) -/

/-- ENCODE raises what its first pass raises. -/
theorem exec_encode_of_scan_raised {s t : State} {c : Cause} {info : Word}
    (h : scanBody (srcRewind (clearUnits s)) = .raised c info t) :
    exec .encode s = .next (raiseFault c info t) := by
  rw [exec, execEncode, encodeBody, h, bind_raised, finish_raised]

/-- The first pass over a source with `2^64 - 1` bytes before `v` stops at `v`. -/
theorem scan_start_overflows (s : State) (before after : List Byte) (v : Byte)
    (hsrc : s.src.bytes = before ++ v :: after) (hlen : before.length = 2 ^ 64 - 1) :
    scanBody (srcRewind (clearUnits s)) = .raised .countOverflow (zextByte v)
      { srcRewind (clearUnits s) with
        ft := countsOf before, ntot := 0xFFFFFFFFFFFFFFFF#64
        src := { s.src with pos := before.length + 1 } } := by
  have hcount : ∀ x, before.count x ≤ 2 ^ 64 - 1 := fun x => hlen ▸ List.count_le_length
  have hzero : ∀ x, (symGet (srcRewind (clearUnits s)).ft x).toNat = 0 := by simp
  obtain ⟨ft, hscan, hft⟩ := scanBody_overflows (srcRewind (clearUnits s)) before after v
    (by simpa [Source.rest, Source.rewind] using hsrc)
    (fun x => by have := hcount x; rw [hzero]; omega) (by simp; omega) (.inr (by simp; omega))
  have hft' : ft = countsOf before := by
    apply symTable_ext
    intro x
    have := hcount x
    apply BitVec.eq_of_toNat_eq
    rw [hft, hzero, symGet_countsOf, BitVec.toNat_ofNat]
    omega
  have hn : 0#64 + BitVec.ofNat 64 before.length = 0xFFFFFFFFFFFFFFFF#64 := by rw [hlen]; rfl
  have hpos : 0 + before.length + 1 = before.length + 1 := by omega
  rw [hscan, hft', ← hn, ← hpos]
  rfl

/-! ### The statements on ENCODE -/

/-- Settles O49: the whole run where every put is taken, and the first pass where the bytes are too
many to count. -/
theorem encodeProducesTheStream : Obligations.EncodeProducesTheStream := by
  intro s hb ft n ct bits puts
  have hft : ft = countsOf s.src.bytes := rfl
  have hn : n = BitVec.ofNat 64 s.src.bytes.length := rfl
  have hct : ct = codeTableOf (countsOf s.src.bytes) := rfl
  have hbits : bits = encodedBits s.src.bytes := (encodedBits_eq _ rfl).symm
  have hputs : puts = (bits.length + 7) / 8 := rfl
  clear_value puts bits ct n ft
  refine ⟨fun hl hk => ?stream, fun before after v hsrc hlen => ?overflow⟩
  case stream =>
    have hsome : ∃ v, symGet ft v ≠ 0#64 := hft ▸ countsOf_some hb hl
    rw [← hft] at hct
    obtain ⟨u, hbuild, hnode, hnnodes, htree⟩ := exec_build_tree s hsome
    have hsame := treeOf_same ft (unspecifiedNodes (s.draws + 1)) (unspecifiedNodes s.draws)
    rw [hputs, hbits] at hk ⊢
    obtain ⟨hw, hsent, hlater⟩ := encodeOut_room s hk
    have hexec := exec_encode_ok hb hl (congrArg BitWriter.fail hw)
    have hfit : TreesFit (retire (encodeEnd s)) :=
      (encodeEnd_treesFit s hb hl).same (sameTree_retire _)
    have hpath : ∀ b, b ∈ s.src.bytes ↔ ∃ path, IsCode (retire (encodeEnd s)) path b := fun b => by
      simp only [isCode_retire, encodeEnd, encodedCore_isCode]
      exact mem_iff_path hb hl _ b
    have hend : retire (encodeEnd s) = { s with
        ft := ft, ntot := n, node := (treeOf ft (unspecifiedNodes (s.draws + 1))).node
        nnodes := u.nnodes, treeOk := true
        ct := ct, ctOk := true, bw := BitWriter.empty, br := BitReader.empty
        src := { s.src with pos := s.src.bytes.length }, snk := (encodeOut s).2
        draws := s.draws + 2, cseq := s.cseq + 1#32 } := by
      rw [encodeEnd, encodeTree, ← hft, ← hct, ← hn, retire_encodedCore, hw, hsame.next, ← hnnodes]
    rw [hend] at hexec hfit hpath
    have hvalid : ∀ b, b ∈ s.src.bytes ↔ (symGet ct b).valid = true := fun b =>
      (hpath b).trans (valid_iff_path (hfit.trees.table rfl).2 b).symm
    refine ⟨u, (treeOf ft (unspecifiedNodes (s.draws + 1))).node, (encodeOut s).2, s.draws + 2,
      (8 - (encodedBits s.src.bytes).length % 8) % 8, hexec, hbuild, fun i hi => ?entries, ?table,
      hfit.trees, hpath, hvalid, Nat.mod_lt _ (by decide), hsent, hlater⟩
    case entries =>
      rw [hnode, treeOf_entries ft _ _ i (hnnodes ▸ hi)]
    case table =>
      rw [exec_ctgen htree, ctgenBody_tableOf ft _ hsome u hnode hnnodes, ← hct]
      rfl
  case overflow =>
    refine ⟨unspecifiedNodes s.draws, s.draws + 1, ?_⟩
    rw [exec_encode_of_scan_raised (scan_start_overflows s before after v hsrc hlen)]
    rfl

end Sys2Proof.Machine
end

section
/-! SUPPORT. ENCODE over a sink that fails a put (60_exceptions.md R234), and both sides together: the
round trip and the single-symbol law (45_codec.md R215, R217). -/

namespace Sys2Proof.Machine

/-! ### Fields of the state ENCODE ends in -/

section
variable (s : State) (ft : SymTable Word) (n : Word) (b : Builder) (ct : SymTable CodeEntry) (d : Nat)
  (p : BitWriter × Sink)

theorem encodedCore_fault : (encodedCore s ft n b ct d p).fault = s.fault := rfl
theorem encodedCore_ft : (encodedCore s ft n b ct d p).ft = ft := rfl
theorem encodedCore_ntot : (encodedCore s ft n b ct d p).ntot = n := rfl
theorem encodedCore_ct : (encodedCore s ft n b ct d p).ct = ct := rfl
theorem encodedCore_ctOk : (encodedCore s ft n b ct d p).ctOk = true := rfl
theorem encodedCore_bw : (encodedCore s ft n b ct d p).bw = p.1 := rfl
theorem encodedCore_snk : (encodedCore s ft n b ct d p).snk = p.2 := rfl

end

theorem encodeEnd_fault (s : State) : (encodeEnd s).fault = s.fault := by
  rw [encodeEnd, encodedCore_fault]

theorem encodeEnd_ft (s : State) : (encodeEnd s).ft = countsOf s.src.bytes := by
  rw [encodeEnd, encodedCore_ft]

theorem encodeEnd_ntot (s : State) :
    (encodeEnd s).ntot = BitVec.ofNat 64 s.src.bytes.length := by
  rw [encodeEnd, encodedCore_ntot]

theorem encodeEnd_ct (s : State) : (encodeEnd s).ct = codeTableOf (countsOf s.src.bytes) := by
  rw [encodeEnd, encodedCore_ct]

theorem encodeEnd_ctOk (s : State) : (encodeEnd s).ctOk = true := by
  rw [encodeEnd, encodedCore_ctOk]

theorem encodeEnd_bw (s : State) : (encodeEnd s).bw = (encodeOut s).1 := by
  rw [encodeEnd, encodedCore_bw]

theorem encodeEnd_snk (s : State) : (encodeEnd s).snk = (encodeOut s).2 := by
  rw [encodeEnd, encodedCore_snk]

/-! ### A put that fails -/

/-- ENCODE's writer over any sink beside the same over that sink made good. -/
theorem encodeOut_beside (s : State) :
    ∃ st, (encodeOut { s with snk := s.snk.madeGood }).2.bytes = s.snk.bytes ++ st ∧
      Beside s.snk st (encodeOut { s with snk := s.snk.madeGood }) (encodeOut s) := by
  rw [encodeOut, encodeOut]
  exact beside_flush (encodedBits s.src.bytes) BitWriter.empty s.snk rfl

/-- Settles O50: the writer stops at the first put that fails, and the close reports it. -/
theorem encodeReportsSinkFailure : Obligations.EncodeReportsSinkFailure := by
  intro s g stream j hb hl hg hstream hj hbefore hfail
  obtain ⟨st, hbytes, hbeside⟩ := encodeOut_beside s
  have hgood := exec_encode_ok (s := { s with snk := s.snk.madeGood }) hb hl hbeside.good_on
  rw [hgood] at hg
  cases hg
  rw [retire_snk, encodeEnd_snk, hbytes] at hstream
  obtain rfl := List.append_cancel_left hstream
  obtain ⟨hfailed, hkept⟩ := hbeside.stops j hj hbefore hfail
  refine ⟨_, exec_encode_failed hb hl hfailed, rfl, rfl, rfl, ?_, ?_⟩
  · rw [raiseFault_bw, encodeEnd_bw, hfailed]
  · rw [raiseFault_snk, encodeEnd_snk, hkept]

/-! ### The codes ENCODE sends are paths of the counts' tree -/

/-- The code table of the counts is that of the counts' tree (R172, R179). -/
theorem codeTableOf_table {ft : SymTable Word} (h : ∃ v, symGet ft v ≠ 0#64) :
    ∃ u : State, u.node = (treeOfCounts ft).node ∧
      u.nnodes = BitVec.ofNat 9 (treeOfCounts ft).next ∧ u.ct = codeTableOf ft ∧ TableOfTree u := by
  obtain ⟨hbuilt, hone⟩ := treeOf_built ft (Vector.replicate 511 Node.zero) h
  have hshape := built_treeShape ft _ hbuilt hone
  have htable := ctgenBody_tableOf ft (Vector.replicate 511 Node.zero) h
  rw [treeOfCounts]
  generalize treeOf ft (Vector.replicate 511 Node.zero) = b at hshape htable ⊢
  generalize codeTableOf ft = dt at htable ⊢
  obtain ⟨ct, hct, hlegal, -⟩ := ctgenBody_tree
    { State.reset with node := b.node, nnodes := BitVec.ofNat 9 b.next } _ hshape
  obtain rfl : dt = ct := congrArg State.ct (Result.ok.inj ((htable _ rfl rfl).symm.trans hct))
  exact ⟨_, rfl, rfl, rfl, hlegal⟩

/-- A symbol with a count has a valid entry, and its code is its path in the counts' tree. -/
theorem codeTableOf_present {ft : SymTable Word} {v : Byte} (hv : symGet ft v ≠ 0#64) :
    (symGet (codeTableOf ft) v).valid = true ∧ IsCodeOf ft (codeBits (codeTableOf ft) v) v := by
  obtain ⟨hbuilt, hone⟩ := treeOf_built ft (Vector.replicate 511 Node.zero) ⟨v, hv⟩
  obtain ⟨path, hpath⟩ := present_path ft _ hbuilt hone v hv
  obtain ⟨u, hnode, hn, hct, htable⟩ := codeTableOf_table ⟨v, hv⟩
  have hcode : ∀ p, IsCode u p v ↔ IsCodeOf ft p v := fun p => by
    rw [IsCode, IsCodeOf, hnode, hn]
  have hvalid : (symGet u.ct v).valid = true :=
    (valid_iff_path htable v).mpr ⟨path, (hcode path).mpr hpath⟩
  rw [← hct]
  exact ⟨hvalid, (hcode _).mp ((htable v).1 hvalid).1⟩

/-! ### DECODE of what ENCODE sends -/

/-- DECODE of the bits ENCODE sends, and anything after them, over a good sink. -/
theorem exec_decode_encoded (d : State) {bytes : List Byte} {more : List Bool} (hb : bytes ≠ [])
    (hl : bytes.length < 2 ^ 64) (hsrc : bitsOf d.src.bytes = encodedBits bytes ++ more)
    (hk : d.snk.Good) :
    ∃ u, exec .decode d = .next u ∧ u.fault = d.fault ∧ u.snk.bytes = d.snk.bytes ++ bytes ∧
      inBits (u.br, u.src) = more ∧ u.br.eof = false ∧ u.src.bytes = d.src.bytes := by
  have hcodes : List.Forall₂ (IsCodeOf (countsOf bytes))
      (bytes.map (codeBits (codeTableOf (countsOf bytes)))) bytes :=
    List.forall₂_map_left_iff.mpr (List.forall₂_same.mpr fun v hv =>
      (codeTableOf_present ((countsOf_present bytes hl v).mpr hv)).2)
  rw [encodedBits_eq _ rfl, List.flatMap_def] at hsrc
  obtain ⟨u, m, r, p, k, dr, hexec, -, -, hout, -, hmore, heof, hbytes⟩ :=
    decodeCompletes d (countsOf bytes) bytes _ more (countsOf_some hb hl) hl hcodes hsrc
      fun j _ => good_answer d.snk hk j
  exact ⟨_, hexec, rfl, hout, hmore, heof, hbytes⟩

/-- DECODE leaves the source's cursor within the source, wherever it was. -/
theorem exec_decode_srcWf {d u : State} (h : exec .decode d = .next u) : u.src.Wf := by
  have hrewound : exec .decode { d with src := d.src.rewind } = .next u := h
  obtain ⟨w, hd, hw⟩ := exec_does .decode _ u (by simp) hrewound
  have hwf := hd.frame.srcWf (Nat.zero_le _)
  obtain rfl | ⟨c, info, rfl⟩ := hw <;> exact hwf

/-- ENCODE over a good empty sink: no fault, and the sink holds the bits sent and zeros up to the
byte boundary. -/
theorem exec_encode_good {s : State} (hb : s.src.bytes ≠ []) (hl : s.src.bytes.length < 2 ^ 64)
    (hk : s.snk.Good) (h0 : s.snk.bytes = []) :
    exec .encode s = .next (retire (encodeEnd s)) ∧
      bitsOf (encodeOut s).2.bytes = encodedBits s.src.bytes
        ++ List.replicate ((8 - (encodedBits s.src.bytes).length % 8) % 8) false := by
  obtain ⟨hw, hsent, -⟩ := encodeOut_room s fun i _ => good_answer s.snk hk i
  rw [h0, bitsOf_nil, List.nil_append] at hsent
  exact ⟨exec_encode_ok hb hl (congrArg BitWriter.fail hw), hsent⟩

/-- Settles O53: the decoder finds the header's counts, whose tree gives the codes their symbols. -/
theorem roundTrip : Obligations.RoundTrip := by
  intro s d hb hl hk h0 hdk hd0
  obtain ⟨hexec, hsent⟩ := exec_encode_good hb hl hk h0
  refine ⟨_, hexec, by rw [retire_fault, encodeEnd_fault], fun hsrc => ?_⟩
  rw [retire_snk, encodeEnd_snk] at hsrc
  obtain ⟨u, hdec, hfault, hout, -⟩ := exec_decode_encoded d hb hl (hsrc ▸ hsent) hdk
  exact ⟨u, hdec, hfault, by rw [hout, hd0, List.nil_append]⟩

/-! ### One symbol (R217) -/

/-- A source of one symbol has one leaf. -/
theorem leafCount_single (a : Byte) {m : Nat} (h1 : 1 ≤ m) (hm : m < 2 ^ 64) :
    leafCount (countsOf (List.replicate m a)) = 1 := by
  have hl : (List.replicate m a).length < 2 ^ 64 := by rwa [List.length_replicate]
  have hmem : ∀ v, symGet (countsOf (List.replicate m a)) v ≠ 0#64 ↔ v = a := fun v => by
    rw [countsOf_present _ hl, List.mem_replicate]
    exact ⟨And.right, fun h => ⟨by omega, h⟩⟩
  have hle : (presentSyms (countsOf (List.replicate m a))).length ≤ [a].length :=
    ((allSyms_nodup.filter _).subperm fun v hv =>
      List.mem_singleton.mpr ((hmem v).mp ((mem_presentSyms _ v).mp hv))).length_le
  have hpos := (leafCount_pos (countsOf (List.replicate m a))).mpr ⟨a, (hmem a).mpr rfl⟩
  rw [leafCount_eq] at *
  simp only [List.length_singleton] at hle
  omega

/-- In a tree of one leaf the only path is the empty one (R156, R170). -/
theorem isCodeOf_single {ft : SymTable Word} (h1 : leafCount ft = 1) {path : List Bool} {v : Byte}
    (h : IsCodeOf ft path v) : path = [] := by
  obtain ⟨hbuilt, hone⟩ := treeOf_built ft (Vector.replicate 511 Node.zero)
    ((leafCount_pos ft).mp (by omega))
  have hshape := built_treeShape ft _ hbuilt hone
  rw [h1] at hshape
  rw [IsCodeOf, treeOfCounts] at h
  obtain ⟨j, hj, -, -⟩ := h
  have hroot := root_lt hshape
  by_contra hne
  have := (path_descends hshape _ j path (by omega) hj).2 hne
  have := List.length_pos_iff.mpr hne
  omega

/-- The bits ENCODE sends for copies of one byte are the header alone. -/
theorem encodedBits_single (a : Byte) {m : Nat} (h1 : 1 ≤ m) (hm : m < 2 ^ 64) :
    (symGet (codeTableOf (countsOf (List.replicate m a))) a).valid = true ∧
    codeBits (codeTableOf (countsOf (List.replicate m a))) a = [] ∧
    encodedBits (List.replicate m a)
      = headerBits (countsOf (List.replicate m a)) (BitVec.ofNat 64 m) := by
  have hl : (List.replicate m a).length < 2 ^ 64 := by rwa [List.length_replicate]
  obtain ⟨hvalid, hcode⟩ := codeTableOf_present
    ((countsOf_present _ hl a).mpr (List.mem_replicate.mpr ⟨by omega, rfl⟩))
  have hnil := isCodeOf_single (leafCount_single a h1 hm) hcode
  refine ⟨hvalid, hnil, ?_⟩
  have hcodes : (List.replicate m a).flatMap
      (codeBits (codeTableOf (countsOf (List.replicate m a)))) = [] :=
    List.flatMap_eq_nil_iff.mpr fun v hv => by rw [List.eq_of_mem_replicate hv, hnil]
  rw [encodedBits_eq _ rfl, hcodes, List.append_nil, List.length_replicate]

/-- CTLEN of a symbol with the empty code (R173). -/
theorem exec_ctlen_empty {s : State} {v : Byte} (hok : s.ctOk = true)
    (hvalid : (symGet s.ct v).valid = true) (h : codeBits s.ct v = []) :
    exec (.ctlen v) s = .next { s with res := 0x100#64, cseq := s.cseq + 1#32 } := by
  have hlen : (symGet s.ct v).len = 0#8 := by
    have := congrArg List.length h
    rw [codeBits, fieldBits_length] at this
    exact BitVec.eq_of_toNat_eq this
  have hword : lenWord (symGet s.ct v) = 0x100#64 := by
    rw [lenWord, hvalid, hlen]
    decide
  rw [exec_ctlen v hok, hword]
  rfl

/-- Settles O54: the only code is the empty one, so the header is all there is. -/
theorem singleSymbolLaw : Obligations.SingleSymbolLaw := by
  intro s d a m h1 hm hsrc hk h0 hdk hd0
  have hlen : s.src.bytes.length = m := by rw [hsrc, List.length_replicate]
  have hb : s.src.bytes ≠ [] := List.ne_nil_of_length_pos (by omega)
  have hl : s.src.bytes.length < 2 ^ 64 := by omega
  obtain ⟨hvalid, hnil, hbits⟩ := encodedBits_single a h1 hm
  rw [← hsrc] at hvalid hnil hbits
  obtain ⟨hexec, hsent⟩ := exec_encode_good hb hl hk h0
  have hall : bitsOf (encodeOut s).2.bytes = encodedBits s.src.bytes := by
    have hwhole : (8 - (encodedBits s.src.bytes).length % 8) % 8 = 0 := by
      rw [hbits, headerBits_length]; decide
    rw [hsent, hwhole, List.replicate_zero, List.append_nil]
  have hcount : (encodeOut s).2.bytes.length = 2056 := by
    have := congrArg List.length hall
    rw [bitsOf_length, hbits, headerBits_length] at this
    exact Nat.eq_of_mul_eq_mul_left (by decide) this
  refine ⟨_, hexec, ?fault, ?count, ?bits, ?total, ?slot, fun x hx => ?others, ?ctlen,
    fun hd => ?decode⟩
  case fault => rw [retire_fault, encodeEnd_fault]
  case count => rw [retire_snk, encodeEnd_snk, hcount]
  case bits => rw [retire_snk, encodeEnd_snk, retire_ft, encodeEnd_ft, retire_ntot, encodeEnd_ntot,
    hlen, hall, hbits]
  case total => rw [retire_ntot, encodeEnd_ntot, hlen]
  case slot => rw [retire_ft, encodeEnd_ft, symGet_countsOf, hsrc, List.count_replicate_self]
  case others =>
    rw [retire_ft, encodeEnd_ft, symGet_countsOf, hsrc, List.count_replicate, if_neg (by simpa using hx.symm)]
  case ctlen =>
    have hct : (retire (encodeEnd s)).ct = codeTableOf (countsOf s.src.bytes) := by
      rw [retire_ct, encodeEnd_ct]
    exact exec_ctlen_empty (by rw [retire_ctOk, encodeEnd_ctOk]) (by rw [hct, hvalid])
      (by rw [hct, hnil])
  case decode =>
    rw [retire_snk, encodeEnd_snk] at hd
    obtain ⟨u, hdec, hfault, hout, hrest, heof, hbytes⟩ := exec_decode_encoded d (more := []) hb hl
      (by rw [hd, hall, List.append_nil]) hdk
    refine ⟨u, hdec, hfault, by rw [hout, hd0, List.nil_append, hsrc], ?_, heof⟩
    have hwf : u.src.pos ≤ u.src.bytes.length := exec_decode_srcWf hdec
    have hleft := congrArg List.length hrest
    rw [inBits_length, bitsLeft, Source.remaining] at hleft
    rw [hbytes, hd, hcount] at hleft hwf
    simp only [List.length_nil] at hleft
    omega

end Sys2Proof.Machine
end

section
/-! SUPPORT. The step commands beside ENCODE and DECODE (45_codec.md R216): what a sequence of commands
does, in the stages the whole procedures have too. -/

namespace Sys2Proof.Machine

/-! ### A sequence of commands -/

/-- With no fault the first command runs, and the rest from where it ends. -/
theorem runCommands_next {s t : State} {i : Instr} {is : List Instr} (h : exec i s = .next t)
    (hf : s.fault = false) : runCommands (i :: is) s = runCommands is t := by
  rw [runCommands, if_neg (by simp [hf]), h]

/-- In the fault state every command but INIT is dropped (30_encoding.md R99). -/
theorem runCommands_faulted {s : State} (hf : s.fault = true) {is : List Instr}
    (h : .init ∉ is) : runCommands is s = .next s := by
  induction is with
  | nil => rfl
  | cons i is ih =>
    rw [List.mem_cons, not_or] at h
    rw [runCommands, if_pos ⟨hf, Ne.symm h.1⟩, ih h.2]

/-! ### The step commands, field by field

Each next state is written out, so that the state after several of them stays small. -/

theorem ftclr_next (s : State) : exec .ftclr s = .next { s with
    ft := Vector.replicate 256 0#64, ntot := 0#64, node := unspecifiedNodes s.draws
    draws := s.draws + 1, treeOk := false, nnodes := 0#9, ctOk := false
    cseq := s.cseq + 1#32 } := rfl

theorem srcrw_next (s : State) : exec .srcrw s = .next { s with
    br := BitReader.empty, src := { s.src with pos := 0 }, cseq := s.cseq + 1#32 } := rfl

/-- SCAN from counters of 0, over the whole source. -/
theorem scan_next {s : State} {ft : SymTable Word} {n : Word} (hpos : s.src.pos = 0)
    (hft : s.ft = Vector.replicate 256 0#64) (hn : s.ntot = 0#64)
    (hl : s.src.bytes.length < 2 ^ 64) (hcounts : countsOf s.src.bytes = ft)
    (htotal : BitVec.ofNat 64 s.src.bytes.length = n) :
    exec .scan s = .next { s with
      ft := ft, ntot := n, node := unspecifiedNodes s.draws, draws := s.draws + 1
      treeOk := false, nnodes := 0#9, ctOk := false
      src := { s.src with pos := s.src.bytes.length }, cseq := s.cseq + 1#32 } := by
  have hsrc : (invalidate s).src = { s.src with pos := 0 } := by rw [← hpos]; rfl
  rw [exec_scan, scan_start s (invalidate s) hsrc hft hn hl, hcounts, htotal, finish_ok]
  rfl

/-- WRHDR, by what the writer and the sink come to. -/
theorem wrhdr_next {s : State} {p : BitWriter × Sink}
    (hp : writeAll (headerBits s.ft s.ntot) (s.bw, s.snk) = p) :
    exec .wrhdr s = .next { s with bw := p.1, snk := p.2, cseq := s.cseq + 1#32 } := by
  rw [exec_wrhdr, hp]
  rfl

/-- ENCPAY from the start of the source, with a code for every byte. -/
theorem encpay_next {s : State} {q : BitWriter × Sink} (hct : s.ctOk = true)
    (hpos : s.src.pos = 0) (hv : ∀ b ∈ s.src.bytes, (symGet s.ct b).valid = true)
    (hq : writeAll (s.src.bytes.flatMap (codeBits s.ct)) (s.bw, s.snk) = q) :
    exec .encpay s = .next { s with
      bw := q.1, snk := q.2, src := { s.src with pos := s.src.bytes.length }
      cseq := s.cseq + 1#32 } := by
  have hrest : s.src.rest = s.src.bytes := by rw [Source.rest, hpos, List.drop_zero]
  rw [exec_encpay_sends hct (hrest ▸ hv), hrest, hq, hpos, Nat.zero_add]
  rfl

theorem wflush_next {s : State} {q : BitWriter × Sink} (hq : flushBits (s.bw, s.snk) = q) :
    exec .wflush s = .next { s with bw := q.1, snk := q.2, cseq := s.cseq + 1#32 } := by
  rw [exec_wflush, hq]
  rfl

/-! ### The stages of the encoding side -/

/-- FTCLR, SRCRW, SCAN: the counts of the whole source. -/
theorem runCommands_count {s : State} {ft : SymTable Word} {n : Word} (is : List Instr)
    (hf : s.fault = false) (hl : s.src.bytes.length < 2 ^ 64) (hft : countsOf s.src.bytes = ft)
    (hn : BitVec.ofNat 64 s.src.bytes.length = n) :
    ∃ (m : NodeMem) (d : Nat), runCommands (.ftclr :: .srcrw :: .scan :: is) s
      = runCommands is { s with
          ft := ft, ntot := n, node := m, nnodes := 0#9, treeOk := false, ctOk := false
          br := BitReader.empty, src := { s.src with pos := s.src.bytes.length }, draws := d
          cseq := s.cseq + 3#32 } := by
  have hc : s.cseq + 3#32 = s.cseq + 1#32 + 1#32 + 1#32 := by simp [BitVec.add_assoc]
  refine ⟨unspecifiedNodes (s.draws + 1), s.draws + 2, ?_⟩
  rw [hc]
  exact Eq.trans (runCommands_next (ftclr_next s) hf) <|
    Eq.trans (runCommands_next (srcrw_next _) hf) <|
    runCommands_next (scan_next rfl rfl rfl hl hft hn) hf

/-- BUILD and CTGEN where a count is not zero: the counts' tree and its code table. -/
theorem runCommands_tree {s : State} {b : Builder} {ct : SymTable CodeEntry} (is : List Instr)
    (hf : s.fault = false) (h : ∃ v, symGet s.ft v ≠ 0#64)
    (hb : treeOf s.ft (unspecifiedNodes s.draws) = b) (hct : codeTableOf s.ft = ct) :
    runCommands (.build :: .ctgen :: is) s = runCommands is { s with
      node := b.node, nnodes := BitVec.ofNat 9 b.next, treeOk := true, ct := ct, ctOk := true
      draws := s.draws + 1, cseq := s.cseq + 2#32 } := by
  have hc : s.cseq + 2#32 = s.cseq + 1#32 + 1#32 := by simp [BitVec.add_assoc]
  have hbuild : exec .build s = _ := execBuild_ok s h
  have htable := ctgenBody_tableOf s.ft (unspecifiedNodes s.draws) h
  rw [hb] at hbuild htable
  rw [hct] at htable
  rw [hc]
  exact Eq.trans (runCommands_next hbuild hf) <|
    runCommands_next ((exec_ctgen rfl).trans (congrArg finish (htable _ rfl rfl))) hf

/-- WRHDR, SRCRW, ENCPAY, WFLUSH with a code for every byte: the header and the codes, flushed. -/
theorem runCommands_send {s : State} {p q e : BitWriter × Sink} (hf : s.fault = false)
    (hct : s.ctOk = true) (hv : ∀ b ∈ s.src.bytes, (symGet s.ct b).valid = true)
    (hp : writeAll (headerBits s.ft s.ntot) (s.bw, s.snk) = p)
    (hq : writeAll (s.src.bytes.flatMap (codeBits s.ct)) p = q) (he : flushBits q = e) :
    runCommands [.wrhdr, .srcrw, .encpay, .wflush] s = .next { s with
      bw := e.1, snk := e.2, br := BitReader.empty
      src := { s.src with pos := s.src.bytes.length }, cseq := s.cseq + 4#32 } := by
  have hc : s.cseq + 4#32 = s.cseq + 1#32 + 1#32 + 1#32 + 1#32 := by simp [BitVec.add_assoc]
  rw [hc]
  exact Eq.trans (runCommands_next (wrhdr_next hp) hf) <|
    Eq.trans (runCommands_next (srcrw_next _) hf) <|
    Eq.trans (runCommands_next (encpay_next hct rfl hv hq) hf) <|
    runCommands_next (wflush_next he) hf

/-- ENCODE's writer and sink, in the steps the commands take. -/
theorem encodeOut_eq (s : State) :
    encodeOut s = flushBits (writeAll
      (s.src.bytes.flatMap (codeBits (codeTableOf (countsOf s.src.bytes))))
      (writeAll (headerBits (countsOf s.src.bytes) (BitVec.ofNat 64 s.src.bytes.length))
        (BitWriter.empty, s.snk))) := by
  rw [encodeOut, encodedBits_eq _ rfl, writeAll_append]

/-- ENCODE, by what its counts, tree, table and streams come to: retired or with SinkFailure raised. -/
theorem encode_next {s : State} {ft : SymTable Word} {n : Word} {b : Builder}
    {ct : SymTable CodeEntry} {p : BitWriter × Sink} (hf : s.fault = false) (hb : s.src.bytes ≠ [])
    (hl : s.src.bytes.length < 2 ^ 64) (hft : countsOf s.src.bytes = ft)
    (hn : BitVec.ofNat 64 s.src.bytes.length = n) (htree : encodeTree s = b)
    (hct : codeTableOf ft = ct) (hp : encodeOut s = p) :
    ∃ e info, exec .encode s = .next { s with
      ft := ft, ntot := n, node := b.node, nnodes := BitVec.ofNat 9 b.next, treeOk := true
      ct := ct, ctOk := true, bw := p.1, br := BitReader.empty
      src := { s.src with pos := s.src.bytes.length }, snk := p.2, draws := s.draws + 2
      fault := p.1.fail, err := e, errinfo := info, cseq := s.cseq + 1#32 } := by
  have hend : encodeEnd s = encodedCore s ft n b ct (s.draws + 2) p := by
    rw [encodeEnd, hft, hn, htree, hct, hp]
  cases hfail : p.1.fail with
  | false =>
    have hexec := exec_encode_ok hb hl (hp ▸ hfail)
    rw [hend] at hexec
    refine ⟨s.err, s.errinfo, ?_⟩
    rw [hexec, ← hf]
    rfl
  | true =>
    have hexec := exec_encode_failed hb hl (hp ▸ hfail)
    rw [hend] at hexec
    exact ⟨_, _, hexec⟩

/-- The step commands of the encoding side, over some draw of node memory: what ENCODE leaves. -/
theorem runCommands_encode {s : State} {ft : SymTable Word} {n : Word} {ct : SymTable CodeEntry}
    {e : BitWriter × Sink} (hf : s.fault = false) (hbw : s.bw = BitWriter.empty)
    (hb : s.src.bytes ≠ []) (hl : s.src.bytes.length < 2 ^ 64) (hft : countsOf s.src.bytes = ft)
    (hn : BitVec.ofNat 64 s.src.bytes.length = n) (hct : codeTableOf ft = ct)
    (he : encodeOut s = e) :
    ∃ m b d, treeOf ft m = b ∧
      runCommands [.ftclr, .srcrw, .scan, .build, .ctgen, .wrhdr, .srcrw, .encpay, .wflush] s
        = .next { s with
            ft := ft, ntot := n, node := b.node, nnodes := BitVec.ofNat 9 b.next, treeOk := true
            ct := ct, ctOk := true, bw := e.1, br := BitReader.empty
            src := { s.src with pos := s.src.bytes.length }, snk := e.2, draws := d
            cseq := s.cseq + 9#32 } := by
  have hsome := countsOf_some hb hl
  have hvalid : ∀ b ∈ s.src.bytes, (symGet (codeTableOf (countsOf s.src.bytes)) b).valid = true :=
    fun b hmem => (codeTableOf_present ((countsOf_present _ hl b).mpr hmem)).1
  rw [encodeOut_eq, hft, hn, hct, ← hbw] at he
  rw [hft] at hsome hvalid
  rw [hct] at hvalid
  have hc : s.cseq + 9#32 = s.cseq + 3#32 + 2#32 + 4#32 := by simp [BitVec.add_assoc]
  obtain ⟨m, d, hcount⟩ := runCommands_count (s := s)
    [.build, .ctgen, .wrhdr, .srcrw, .encpay, .wflush] hf hl hft hn
  refine ⟨unspecifiedNodes d, _, d + 1, rfl, ?_⟩
  rw [hc, hcount]
  exact Eq.trans (runCommands_tree _ hf hsome rfl hct) <| runCommands_send hf rfl hvalid rfl rfl he

/-- A source of no bytes has no symbol to count, and BUILD faults. -/
theorem runCommands_encode_empty {s : State} (hf : s.fault = false) (h : s.src.bytes = []) :
    ∃ t, runCommands [.ftclr, .srcrw, .scan, .build, .ctgen, .wrhdr, .srcrw, .encpay, .wflush] s
      = .next t ∧ t.fault = true ∧ t.err = 2#8 := by
  have hzero : ∀ v, symGet (countsOf s.src.bytes) v = 0#64 := fun v => by
    rw [symGet_countsOf, h, List.count_nil]
  generalize hft : countsOf s.src.bytes = ft at hzero
  obtain ⟨m, d, hcount⟩ := runCommands_count (s := s)
    [.build, .ctgen, .wrhdr, .srcrw, .encpay, .wflush] hf (by simp [h]) hft rfl
  refine ⟨_, hcount.trans (Eq.trans (runCommands_next (execBuild_empty _ hzero) hf)
    (runCommands_faulted rfl (by decide))), rfl, rfl⟩

/-! ### The decoding side -/

/-- The step commands ended in `t`, DECODE in `u`: the same fault and sink, and with no fault the same
counts, tree marks, tree, reader and source (R216). -/
structure DecodesAlike (t u : State) : Prop where
  fault : t.fault = u.fault
  err : t.err = u.err
  errinfo : t.errinfo = u.errinfo
  snk : t.snk = u.snk
  rest : u.fault = false →
    t.ft = u.ft ∧ t.ntot = u.ntot ∧ t.nnodes = u.nnodes ∧
    (∀ i, i < u.nnodes.toNat → nodeAt t.node i = nodeAt u.node i) ∧
    t.treeOk = u.treeOk ∧ t.ctOk = u.ctOk ∧ t.br = u.br ∧ t.src = u.src

/-- Two cores with the same streams and the same fault state. -/
structure StreamsAlike (s t : State) : Prop where
  fault : s.fault = t.fault
  err : s.err = t.err
  errinfo : s.errinfo = t.errinfo
  snk : s.snk = t.snk
  br : s.br = t.br
  src : s.src = t.src

/-- What BUILD and DECPAY read of two cores. -/
structure StartAlike (s t : State) : Prop extends StreamsAlike s t where
  ft : s.ft = t.ft
  ntot : s.ntot = t.ntot

/-- Two cores with the tree of the same counts and the same streams are alike. -/
theorem alike_of_trees {s a : State} {ft : SymTable Word} {m k : NodeMem} {b c : Builder}
    (h : StartAlike s a) (hsome : ∃ v, symGet ft v ≠ 0#64) (hb : treeOf ft m = b)
    (hc : treeOf ft k = c) (hnode : s.node = b.node) (hn : s.nnodes = BitVec.ofNat 9 b.next)
    (hnode' : a.node = c.node) (hn' : a.nnodes = BitVec.ofNat 9 c.next) : Alike s a := by
  subst hb hc
  obtain ⟨hbuilt, hone⟩ := treeOf_built ft m hsome
  have hshape := built_treeShape ft _ hbuilt hone
  refine ⟨h.br.symm, h.src.symm, h.snk.symm, by rw [hn, hn', (treeOf_same ft m k).next],
    leafCount ft, by rw [hnode, hn]; exact hshape, fun i hi => ?_⟩
  rw [hnode, hnode', treeOf_entries ft m k i (by rw [hshape.size]; exact hi)]

/-- DECPAY as a command beside `dec_pay()` in a core alike. -/
theorem exec_decpay_alike {s a : State} (h : StartAlike s a) (halike : Alike s a)
    (htree : s.treeOk = true) (htree' : a.treeOk = true) (hct : s.ctOk = a.ctOk) :
    ∃ t u, exec .decpay s = .next t ∧ finish (decPay a) = .next u ∧ DecodesAlike t u ∧
      t.bw = s.bw ∧ t.cseq = s.cseq + 1#32 ∧ u.cseq = a.cseq + 1#32 := by
  have hexec := exec_decpay htree
  have hnodes : ∀ i, i < a.nnodes.toNat → nodeAt s.node i = nodeAt a.node i := fun i hi => by
    obtain ⟨L, hshape, hsame⟩ := halike.tree
    rw [halike.nnodes, hshape.size] at hi
    exact hsame i hi
  have hnnodes := halike.nnodes.symm
  rw [decPay, ← h.ntot]
  obtain ⟨r, p, k, ⟨hs, ha⟩ | ⟨c, info, hs, ha⟩⟩ :=
    decPayLoop_alike s.ntot.toNat 0#64 s a halike
  · rw [hs, finish_ok] at hexec
    rw [ha, finish_ok]
    exact ⟨_, _, hexec, rfl, ⟨h.fault, h.err, h.errinfo, rfl, fun _ =>
      ⟨h.ft, h.ntot, hnnodes, hnodes, htree.trans htree'.symm, hct, rfl, rfl⟩⟩, rfl, rfl, rfl⟩
  · rw [hs, finish_raised] at hexec
    rw [ha, finish_raised]
    exact ⟨_, _, hexec, rfl, ⟨rfl, rfl, rfl, rfl, fun hu => absurd hu (by simp)⟩, rfl, rfl, rfl⟩

/-- BUILD and DECPAY as commands beside the rest of DECODE's body, from cores alike. -/
theorem runCommands_build_decpay {s a : State} (h : StartAlike s a) (hf : s.fault = false) :
    ∃ t u, runCommands [.build, .decpay] s = .next t ∧
      finish ((buildBody a).bind decPay) = .next u ∧ DecodesAlike t u ∧ t.bw = s.bw ∧
      (u.fault = false → t.cseq = s.cseq + 2#32 ∧ u.cseq = a.cseq + 1#32) := by
  by_cases hsome : ∃ v, symGet s.ft v ≠ 0#64
  case neg =>
    simp only [not_exists, not_not] at hsome
    have hbuild : exec .build s = _ := execBuild_empty s hsome
    have hbody : finish ((buildBody a).bind decPay)
        = .next (raiseFault .emptyAlphabet 0#64 (invalidate a)) := by
      rw [buildBody_empty a (h.ft ▸ hsome), bind_raised, finish_raised]
    exact ⟨_, _, (runCommands_next hbuild hf).trans (runCommands_faulted rfl (by decide)), hbody,
      ⟨rfl, rfl, rfl, h.snk, fun hu => absurd hu (by simp)⟩, rfl, fun hu => absurd hu (by simp)⟩
  case pos =>
    have hbuild : exec .build s = _ := execBuild_ok s hsome
    have hbody := buildBody_ok a (h.ft ▸ hsome)
    rw [← h.ft] at hbody
    generalize hb : treeOf s.ft (unspecifiedNodes s.draws) = b at hbuild
    generalize hc : treeOf s.ft (unspecifiedNodes a.draws) = c at hbody
    rw [hbody, bind_ok, runCommands_next hbuild hf]
    have hstart : StartAlike { s with
          node := b.node, nnodes := BitVec.ofNat 9 b.next, treeOk := true, ctOk := false
          draws := s.draws + 1, cseq := s.cseq + 1#32 }
        { invalidate a with node := c.node, nnodes := BitVec.ofNat 9 c.next, treeOk := true } :=
      ⟨⟨h.fault, h.err, h.errinfo, h.snk, h.br, h.src⟩, h.ft, h.ntot⟩
    obtain ⟨t, u, ht, hu, halike, hbw, htc, huc⟩ := exec_decpay_alike hstart
      (alike_of_trees hstart hsome hb hc rfl rfl rfl rfl) rfl rfl rfl
    have hc2 : s.cseq + 2#32 = s.cseq + 1#32 + 1#32 := by simp [BitVec.add_assoc]
    exact ⟨t, u, runCommands_next ht hf, hu, halike, hbw, fun _ => ⟨htc.trans hc2.symm, huc⟩⟩

/-- RDHDR, BUILD and DECPAY as commands beside the body of DECODE. -/
theorem runCommands_header {s a : State} (h : StreamsAlike s a) (hf : s.fault = false) :
    ∃ t u, runCommands [.rdhdr, .build, .decpay] s = .next t ∧
      finish ((rdHdr a).bind fun s1 => (buildBody s1).bind decPay) = .next u ∧
      DecodesAlike t u ∧ t.bw = s.bw ∧
      (u.fault = false → t.cseq = s.cseq + 3#32 ∧ u.cseq = a.cseq + 1#32) := by
  have hexec := exec_rdhdr s
  obtain ⟨ft, n, r, p, ha, hs⟩ | ⟨c, info, x, y, r, p, ha, hs⟩ := rdHdr_alike a s h.br h.src
  · rw [hs, finish_ok] at hexec
    rw [ha, bind_ok, runCommands_next hexec hf]
    have hstart : StartAlike
        (retire { invalidate s with ft := ft, ntot := n, br := r, src := p })
        { invalidate a with ft := ft, ntot := n, br := r, src := p } :=
      ⟨⟨h.fault, h.err, h.errinfo, h.snk, rfl, rfl⟩, rfl, rfl⟩
    obtain ⟨t, u, ht, hu, halike, hbw, hcseq⟩ := runCommands_build_decpay hstart hf
    have hc : s.cseq + 3#32 = s.cseq + 1#32 + 2#32 := by simp [BitVec.add_assoc]
    exact ⟨t, u, ht, hu, halike, hbw, fun hok => ⟨(hcseq hok).1.trans hc.symm, (hcseq hok).2⟩⟩
  · rw [hs, finish_raised] at hexec
    rw [ha, bind_raised, finish_raised]
    exact ⟨_, _, (runCommands_next hexec hf).trans (runCommands_faulted rfl (by decide)), rfl,
      ⟨rfl, rfl, rfl, h.snk, fun hu => absurd hu (by simp)⟩, rfl, fun hu => absurd hu (by simp)⟩

/-- SRCRW, RDHDR, BUILD, DECPAY beside DECODE. -/
theorem runCommands_decode {s : State} (hf : s.fault = false) :
    ∃ t u, runCommands [.srcrw, .rdhdr, .build, .decpay] s = .next t ∧ exec .decode s = .next u ∧
      DecodesAlike t u ∧ t.bw = s.bw ∧
      (u.fault = false → t.cseq = s.cseq + 4#32 ∧ u.cseq = s.cseq + 1#32) := by
  have hstreams : StreamsAlike
      { s with br := BitReader.empty, src := { s.src with pos := 0 }, cseq := s.cseq + 1#32 }
      (srcRewind (clearUnits s)) := by constructor <;> simp [Source.rewind]
  obtain ⟨t, u, ht, hu, halike, hbw, hcseq⟩ := runCommands_header hstreams hf
  have hc : s.cseq + 4#32 = s.cseq + 1#32 + 3#32 := by simp [BitVec.add_assoc]
  exact ⟨t, u, (runCommands_next (srcrw_next s) hf).trans ht, hu, halike, hbw,
    fun h => ⟨(hcseq h).1.trans hc.symm, by simpa using (hcseq h).2⟩⟩

/-! ### The statement -/

/-- Settles O55: on each side both go through the same stages. -/
theorem stepwiseEquivalents : Obligations.StepwiseEquivalents := by
  intro s hf
  refine ⟨fun hbw hb hl => ?encode, fun hempty => ?noBytes, ?decode⟩
  case encode =>
    -- The long terms get names: Lean would otherwise evaluate them to compare the two states.
    obtain ⟨ft, hft⟩ : ∃ ft, countsOf s.src.bytes = ft := ⟨_, rfl⟩
    obtain ⟨n, hn⟩ : ∃ n, BitVec.ofNat 64 s.src.bytes.length = n := ⟨_, rfl⟩
    obtain ⟨ct, hct⟩ : ∃ ct, codeTableOf ft = ct := ⟨_, rfl⟩
    obtain ⟨p, hp⟩ : ∃ p, encodeOut s = p := ⟨_, rfl⟩
    obtain ⟨c, hc⟩ : ∃ c, encodeTree s = c := ⟨_, rfl⟩
    obtain ⟨m, b, d, htree, hrun⟩ := runCommands_encode hf hbw hb hl hft hn hct hp
    obtain ⟨e, info, hexec⟩ := encode_next hf hb hl hft hn hc hct hp
    have hsame := treeOf_same ft m (unspecifiedNodes (s.draws + 1))
    have hentries := treeOf_entries ft (unspecifiedNodes (s.draws + 1)) m
    rw [encodeTree, hft] at hc
    rw [htree, hc] at hsame hentries
    exact ⟨_, _, hrun, hexec, rfl, rfl, rfl, congrArg (BitVec.ofNat 9) hsame.next, hentries, rfl,
      rfl, rfl, rfl, rfl, rfl, hf, rfl⟩
  case noBytes =>
    obtain ⟨t, hrun, hfault, herr⟩ := runCommands_encode_empty hf hempty
    exact ⟨t, _, hrun, exec_encode_no_bytes s hempty, hfault, herr, rfl, rfl⟩
  case decode =>
    obtain ⟨t, u, hrun, hexec, halike, hbw, hcseq⟩ := runCommands_decode hf
    refine ⟨t, u, hrun, hexec, halike.fault, halike.err, halike.errinfo, halike.snk, hbw,
      fun h => ?_⟩
    obtain ⟨hft, hn, hnn, hnode, htree, hct, hbr, hsrc⟩ := halike.rest h
    exact ⟨hft, hn, hnn, hnode, htree, hct, hbr, hsrc, hcseq h⟩

end Sys2Proof.Machine
end
